-- ==== Sys2Proof/Word.lean ====
section
/-! DEFINITION. The two word types of the LW1 core and nothing else (spec 00_scope.md R7). -/

namespace Sys2Proof

/-- A byte is 8 bits; bit 7 is the most significant (R7, R32). -/
abbrev Byte := BitVec 8

/-- The 32-bit word of a scalar access and of the command word (R33, R70). -/
abbrev Word := BitVec 32

end Sys2Proof
end

