-- ==== Sys2Proof/Syntax.lean ====
section
/-! DEFINITION. The thirteen commands of the LW1 core (spec 30_encoding.md R71), one constructor per row of
spec/opcode_table.json. A command word has one format and no operand field: every operand is in a register (R70). -/

namespace Sys2Proof

/-- The commands, in the order of the opcode map (R71). -/
inductive Instr where
  /-- ENC_FCTRL (R80). -/
  | encFctrl
  /-- DEC_FCTRL (R81). -/
  | decFctrl
  /-- ENC_MHDR (R82). -/
  | encMhdr
  /-- DEC_MHDR (R83). -/
  | decMhdr
  /-- SER_FHDR (R90). -/
  | serFhdr
  /-- PAR_FHDR (R91). -/
  | parFhdr
  /-- SER_DATA (R100). -/
  | serData
  /-- PAR_DATA (R101). -/
  | parData
  /-- CRYPT (R127). -/
  | crypt
  /-- MIC (R141). -/
  | mic
  /-- MIC_FRAME (R142). -/
  | micFrame
  /-- SER_PHY (R151). -/
  | serPhy
  /-- PAR_PHY (R153). -/
  | parPhy
  deriving DecidableEq, Repr

end Sys2Proof
end

