-- ==== Sys2Proof/WellFormed.lean ====
section
/-! DEFINITION. What is well-formed: an instruction as syntax, and a command word as bits (spec R70). -/

namespace Sys2Proof

/-- Every command is well-formed: the command word has no operand, no immediate and no variant (R70, R74). -/
def Instr.wellFormed (_ : Instr) : Bool := true

/-- A command word is well-formed when its bits 31:8 are 0 (R70). -/
def commandWordWellFormed (w : Word) : Bool := w.extractLsb' 8 24 == 0

end Sys2Proof
end

