-- ==== Sys2Proof/Decode.lean ====
section
/-! DEFINITION. The command word: its decoder, total on all 32-bit words and rejecting by name, and after it the
encoder (spec 30_encoding.md R70, R71). -/

namespace Sys2Proof

/-- Why a written word names no command (R70). Both give BadRequest with ERRINFO 0x19. -/
inductive DecodeError where
  /-- Bits 31:8 of the word are not all 0. -/
  | upperBitsSet
  /-- Bits 7:0 are none of the thirteen opcodes; the other 243 values are reserved (R71). -/
  | unknownOpcode
  deriving DecidableEq, Repr

/-- The opcode map, row by row (R71). -/
def opcodeMap : List (Byte × Instr) :=
  [ (0x10, .encFctrl), (0x11, .decFctrl), (0x12, .encMhdr), (0x13, .decMhdr),
    (0x20, .serFhdr), (0x21, .parFhdr),
    (0x30, .serData), (0x31, .parData),
    (0x40, .crypt),
    (0x50, .mic), (0x51, .micFrame),
    (0x60, .serPhy), (0x61, .parPhy) ]

/-- The OPCODE field, bits 7:0 of the command word (R70). -/
def opcodeField (w : Word) : Byte := w.extractLsb' 0 8

/-- The command a word written to CMD names, or why it names none (R70). -/
def decode (w : Word) : Except DecodeError Instr :=
  if commandWordWellFormed w then
    match opcodeMap.lookup (opcodeField w) with
    | some i => .ok i
    | none => .error .unknownOpcode
  else .error .upperBitsSet

/-- The OPCODE value of a command (R71). -/
def opcode : Instr → Byte
  | .encFctrl => 0x10
  | .decFctrl => 0x11
  | .encMhdr => 0x12
  | .decMhdr => 0x13
  | .serFhdr => 0x20
  | .parFhdr => 0x21
  | .serData => 0x30
  | .parData => 0x31
  | .crypt => 0x40
  | .mic => 0x50
  | .micFrame => 0x51
  | .serPhy => 0x60
  | .parPhy => 0x61

/-- The command word of a command: OPCODE in bits 7:0 and 0 above (R70). -/
def encode (i : Instr) : Word := (opcode i).setWidth 32

/-- The instruction the decoder reads from the `nbits`-bit table word `w`. A command word is one 32-bit bus word,
so bit k of the table is bit k of the word and no byte order enters (R33). A number that does not fit the 32 bits
of the CMD port is no command word. -/
def decodeTableWord (nbits w : Nat) : Option Instr :=
  let v := w % 2 ^ nbits
  if v < 2 ^ 32 then (decode (BitVec.ofNat 32 v)).toOption else none

end Sys2Proof
end

