-- ==== Sys2Proof/Config.lean ====
section
/-! DEFINITION. The constants the source fixes (spec R4) and the parameters it leaves open (R5). -/

namespace Sys2Proof.Config

/-- BLOCK, the cipher's block size in bytes (R4). -/
abbrev blockBytes : Nat := 16
/-- KEY_BYTES, the only accepted key length (R4). -/
abbrev keyBytes : Nat := 16
/-- MIC_BYTES (R4). -/
abbrev micBytes : Nat := 4
/-- FOPTS_MAX, the size of the FOPTS array (R4, R15). -/
abbrev foptsMax : Nat := 15
/-- FHDR_MIN, the smallest FHDR (R4). -/
abbrev fhdrMin : Nat := 7
/-- PHY_MIN, the smallest PHYPayload (R4). -/
abbrev phyMin : Nat := 5
/-- MSG_MAX, the largest MIC message (R4). -/
abbrev msgMax : Nat := 255
/-- CRYPT_MAX = 255 × 16, the largest CRYPT input (R5, D14). -/
abbrev cryptMax : Nat := 4080

/-- BUF_CAP is an OPEN parameter of the platform, 259 ≤ BUF_CAP ≤ 4096 (R5, D8). These are its bounds. -/
abbrev bufCapMin : Nat := 259
/-- The upper bound of BUF_CAP: each buffer stays inside its 0x1000 window (R40). -/
abbrev bufCapMax : Nat := 4096

/-- The default of BUF_CAP that R5 and D8 give. It is used in `State.reset` only; every meaning reads the
capacity from the CAP register, so a statement over all states covers every legal capacity (log entry 1). -/
abbrev bufCapDefault : Nat := 512

/-- BASE, the bus address of offset 0 of the register map: OPEN, the platform's choice (R5, R40, D24). A free
value: nothing can evaluate it, and no rule depends on it (log entry 2). -/
opaque base : Nat

end Sys2Proof.Config
end

