-- ==== Sys2Proof/Machine/State.lean ====
section
/-! DEFINITION. The state of one LW1 core and its host port, the reasons a step can stop, and the state after
reset (spec 10_state.md, 70_reset_and_hazards.md R190). -/

namespace Sys2Proof.Machine

/-- One host access on the bus, or the platform's reset input (R6, R35, R73, R190). Offsets count from BASE. -/
inductive Access where
  /-- A read of `bits` bits at `offset`; the spec admits 32 on a scalar register and 8 on an array byte (R35). -/
  | read (bits offset : Nat)
  /-- A write of `value` as `bits` bits at `offset`. -/
  | write (bits offset value : Nat)
  /-- Reset: "the only event other than a host access that changes the core's state" (R190). -/
  | reset
  deriving DecidableEq, Repr

/-- No rule stops the core: "There is no third outcome: no hang, no undefined result, no state in which the core
stops answering" (R160). The machine therefore has no fault and the type has no constructor. -/
inductive Fault where
  deriving DecidableEq, Repr

/-- Why a step has no meaning. All but the first are R43's accesses that are not admitted: "A model should treat a
not-admitted access as having no step (the host is refused)". -/
inductive Refusal where
  /-- Raised by no arm of `exec`: every command has its meaning. Safe. -/
  | notModelled (mnemonic : String)
  /-- Raised by a host access at an offset that the register map does not list (R41, R43). Safe: no claim can rest
  on what such an access does. -/
  | unmappedOffset
  /-- Raised by a host access whose width is not the one R35 gives its target (R43). Safe. -/
  | wrongWidth
  /-- Raised by a host write to ERR, ERRINFO, LASTOP, OLEN, CAP or OBUF (R21, R43). Safe. -/
  | notWritable
  /-- Raised by a host write of a value that does not fit its target's width (R21, R43, D27). Safe. -/
  | valueTooWide
  deriving DecidableEq, Repr

/-- The core's byte arrays as one sparse memory keyed by register-map offset (R40): a list of cells in one
canonical form, see `Memory.wf`. An unlisted offset reads as 0x00, the reset contents (R20). -/
abbrev Memory := List Host.Cell

/-- The whole architectural state of one core (R10), with the host's side of the port (log entry 3). -/
structure State where
  /-- MTYPE, MHDR.mtype (R11). -/
  mtype : BitVec 3
  /-- MAJOR, MHDR.major (R11). -/
  major : BitVec 2
  /-- DEVADDR, FHDR.dev_addr and the cryptographic device_address (R11). -/
  devaddr : BitVec 32
  /-- ADR, FCtrl.adr (R11). -/
  adr : BitVec 1
  /-- ADRACKREQ, FCtrl.adr_ack_req (R11). -/
  adrackreq : BitVec 1
  /-- ACK, FCtrl.ack (R11). -/
  ack : BitVec 1
  /-- FPENDING, FCtrl.f_pending (R11). -/
  fpending : BitVec 1
  /-- FOPTSLEN, FCtrl.opts_len: the number of valid bytes in FOPTS (R11). -/
  foptslen : BitVec 4
  /-- FCNT, FHDR.fcnt and the cryptographic frame_counter (R11). -/
  fcnt : BitVec 16
  /-- FPORTV, 1 when DataPayload.port is present (R11). -/
  fportv : BitVec 1
  /-- FPORT, DataPayload.port when FPORTV = 1 (R11). -/
  fport : BitVec 8
  /-- FRMLEN, the number of valid bytes in FRM (R11). -/
  frmlen : BitVec 16
  /-- BYTE, the one-byte operand and result of the bit-field commands (R11). -/
  byte : BitVec 8
  /-- DIR, is_downlink of CRYPT (R11). -/
  dir : BitVec 1
  /-- KEYLEN, the number of key bytes the host declares (R11). -/
  keylen : BitVec 8
  /-- ILEN, the number of valid bytes in IBUF (R11). -/
  ilen : BitVec 16
  /-- ERR, the error code of the last command (R14, R162). -/
  err : BitVec 4
  /-- ERRINFO, STRUCT in bits 6:4 and FIELD in bits 3:0 (R14, R163). -/
  errinfo : BitVec 8
  /-- LASTOP, bits 7:0 of the last value written to CMD (R14). -/
  lastop : BitVec 8
  /-- OLEN, the number of valid bytes in OBUF (R14). -/
  olen : BitVec 16
  /-- CAP, the constant BUF_CAP; hardwired, so no step changes it (R14). -/
  cap : BitVec 16
  /-- KEY, FOPTS, MIC, FRM, IBUF and OBUF (R15, R16), by register-map offset (R40). -/
  mem : Memory
  /-- The model's own field: the accesses the host has issued and the core has not yet taken, oldest first (R37). -/
  pending : List Access
  /-- The model's own field: the data the last access returned to the host, zero-extended to 32 bits; `none` after
  an access that returns none (R35, R37). -/
  reply : Option Word
  deriving DecidableEq, Repr

/-- The three outcomes of a step on this machine. -/
abbrev Result := Host.Outcome State Fault Refusal

/-- The reset state of a core whose capacity is `cap`: every scalar 0 except CAP, every array byte 0x00 (R20). -/
def State.resetWith (cap : BitVec 16) : State where
  mtype := 0
  major := 0
  devaddr := 0
  adr := 0
  adrackreq := 0
  ack := 0
  fpending := 0
  foptslen := 0
  fcnt := 0
  fportv := 0
  fport := 0
  frmlen := 0
  byte := 0
  dir := 0
  keylen := 0
  ilen := 0
  err := 0
  errinfo := 0
  lastop := 0
  olen := 0
  cap := cap
  mem := []
  pending := []
  reply := none

/-- The machine right after reset, with BUF_CAP at its default (R20, R190, log entry 1). -/
def State.reset : State := State.resetWith (BitVec.ofNat 16 Config.bufCapDefault)

end Sys2Proof.Machine
end

