-- ==== Sys2Proof/Machine/Bits.lean ====
section
/-! DEFINITION. Byte strings, little-endian integers and the other notation of spec 00_scope.md R7 (R59, R75). -/

namespace Sys2Proof.Machine

/-- `le_N(v)`: the N-byte string whose byte k is `v[8k+7:8k]`, least significant byte first (R7, R30). -/
def le {w : Nat} (n : Nat) (v : BitVec w) : List Byte :=
  (List.range n).map fun k => v.extractLsb' (8 * k) 8

/-- `from_le(s)`: the sum over k of `s[k] × 2^(8k)` (R7). -/
def fromLe : List Byte → Nat
  | [] => 0
  | b :: bs => b.toNat + 256 * fromLe bs

/-- `s[a..b)`: the half-open slice of bytes a to b-1 (R7). -/
def slice (s : List Byte) (a b : Nat) : List Byte := (s.drop a).take (b - a)

/-- `s[i]`, byte i counted from 0 (R7). The rules index only inside the string. -/
def byteAt (s : List Byte) (i : Nat) : Byte := s.getD i 0

/-- `zeros(n)`: n bytes of 0x00 (R7). -/
def zeros (n : Nat) : List Byte := List.replicate n 0

/-- `a xor b` on byte strings, byte-wise; the result has the shorter one's length (R7). -/
def xorBytes (a b : List Byte) : List Byte := List.zipWith (· ^^^ ·) a b

/-- `ceil(a / b)`: the least q with q × b ≥ a, for positive b (R7). -/
def ceilDiv (a b : Nat) : Nat := (a + b - 1) / b

end Sys2Proof.Machine
end

