-- ==== Sys2Proof/Machine/Flags.lean ====
section
/-! DEFINITION. The core has no flags (spec 10_state.md R13). The only status a command leaves is ERR with its
companion ERRINFO: their values (60_exceptions.md R162, R163). -/

namespace Sys2Proof.Machine

/-- The named errors of R162, in the order of their codes. -/
inductive Error where
  | tooShort | truncatedOptions | unsupportedVersion | unsupportedMessageType | notImplemented | invalidKey
  /-- Allocated and never raised (R166). -/
  | cipherInitError
  /-- Allocated and never raised (R166). -/
  | integrityComputationError
  | unsupportedDirection | lengthOutOfRange | badRequest
  deriving DecidableEq, Repr

/-- `code(E)`, the value ERR holds after the error; 0 is OK and 12 to 15 are never produced (R162). -/
def Error.code : Error → BitVec 4
  | .tooShort => 1
  | .truncatedOptions => 2
  | .unsupportedVersion => 3
  | .unsupportedMessageType => 4
  | .notImplemented => 5
  | .invalidKey => 6
  | .cipherInitError => 7
  | .integrityComputationError => 8
  | .unsupportedDirection => 9
  | .lengthOutOfRange => 10
  | .badRequest => 11

/-- STRUCT: the structure or unit whose rule detected the error (R163). -/
inductive Struct where
  | cmd | fhdr | data | phy | cipher | mic
  deriving DecidableEq, Repr

/-- The number of a STRUCT, bits 6:4 of ERRINFO (R163). -/
def Struct.code : Struct → Byte
  | .cmd => 1
  | .fhdr => 2
  | .data => 3
  | .phy => 4
  | .cipher => 5
  | .mic => 6

/-- FIELD: the field that offended (R163). -/
inductive Field where
  | ilen | foptslen | major | mtype | keylen | msglen | olen | frmlen | opcode | fportv | join
  deriving DecidableEq, Repr

/-- The number of a FIELD, bits 3:0 of ERRINFO (R163). -/
def Field.code : Field → Byte
  | .ilen => 1
  | .foptslen => 2
  | .major => 3
  | .mtype => 4
  | .keylen => 5
  | .msglen => 6
  | .olen => 7
  | .frmlen => 8
  | .opcode => 9
  | .fportv => 10
  | .join => 11

/-- `ERRINFO = (STRUCT << 4) | FIELD` (R163). -/
def errInfo (st : Struct) (f : Field) : Byte := (st.code <<< 4) ||| f.code

/-- An error with its "operation + offending field" context, the `raise E(info)` of R7. -/
structure Report where
  error : Error
  struct : Struct
  field : Field
  deriving DecidableEq, Repr

/-- The ERRINFO byte of a report (R163). -/
def Report.info (r : Report) : Byte := errInfo r.struct r.field

end Sys2Proof.Machine
end

