-- ==== Sys2Proof/Machine/RegMap.lean ====
section
/-! DEFINITION. The register map (spec 20_memory.md R40): the scalar registers and the byte arrays by name, their
offsets, widths and host access rights, and what an offset names. -/

namespace Sys2Proof.Machine

/-- The scalar registers of R40, CMD first (a port, not storage: R10, R14). -/
inductive Reg where
  | cmd | err | errinfo | lastop
  | mtype | major | devaddr | adr | adrackreq | ack | fpending | foptslen | fcnt | fportv | fport | frmlen
  | byte | dir | keylen | ilen
  | olen | cap
  deriving DecidableEq, Repr

/-- Every scalar register, in the order of the map. -/
def Reg.all : List Reg :=
  [.cmd, .err, .errinfo, .lastop, .mtype, .major, .devaddr, .adr, .adrackreq, .ack, .fpending, .foptslen, .fcnt,
   .fportv, .fport, .frmlen, .byte, .dir, .keylen, .ilen, .olen, .cap]

/-- The register's offset from BASE (R40). -/
def Reg.offset : Reg → Nat
  | .cmd => 0x000
  | .err => 0x004
  | .errinfo => 0x008
  | .lastop => 0x00C
  | .mtype => 0x010
  | .major => 0x014
  | .devaddr => 0x018
  | .adr => 0x01C
  | .adrackreq => 0x020
  | .ack => 0x024
  | .fpending => 0x028
  | .foptslen => 0x02C
  | .fcnt => 0x030
  | .fportv => 0x034
  | .fport => 0x038
  | .frmlen => 0x03C
  | .byte => 0x040
  | .dir => 0x044
  | .keylen => 0x048
  | .ilen => 0x04C
  | .olen => 0x050
  | .cap => 0x054

/-- The register's width in bits (R40). -/
def Reg.width : Reg → Nat
  | .cmd => 32
  | .err => 4
  | .errinfo => 8
  | .lastop => 8
  | .mtype => 3
  | .major => 2
  | .devaddr => 32
  | .adr => 1
  | .adrackreq => 1
  | .ack => 1
  | .fpending => 1
  | .foptslen => 4
  | .fcnt => 16
  | .fportv => 1
  | .fport => 8
  | .frmlen => 16
  | .byte => 8
  | .dir => 1
  | .keylen => 8
  | .ilen => 16
  | .olen => 16
  | .cap => 16

/-- Whether the host may write the register: the field registers and CMD (R21). -/
def Reg.hostWritable : Reg → Bool
  | .err | .errinfo | .lastop | .olen | .cap => false
  | .cmd | .mtype | .major | .devaddr | .adr | .adrackreq | .ack | .fpending | .foptslen | .fcnt | .fportv | .fport
  | .frmlen | .byte | .dir | .keylen | .ilen => true

/-- The byte arrays, the SPACEs of R7. -/
inductive Space where
  | key | fopts | mic | frm | ibuf | obuf
  deriving DecidableEq, Repr

/-- Every byte array, in the order of the map. -/
def Space.all : List Space := [.key, .fopts, .mic, .frm, .ibuf, .obuf]

/-- The offset of the array's byte 0 (R40). -/
def Space.base : Space → Nat
  | .key => 0x100
  | .fopts => 0x110
  | .mic => 0x120
  | .frm => 0x1000
  | .ibuf => 0x2000
  | .obuf => 0x3000

/-- The number of bytes of the array on a core whose BUF_CAP is `cap` (R15, R16). -/
def Space.size (cap : Nat) : Space → Nat
  | .key => Config.keyBytes
  | .fopts => Config.foptsMax
  | .mic => Config.micBytes
  | .frm | .ibuf | .obuf => cap

/-- Whether the host may write the array's bytes: all but OBUF (R21). -/
def Space.hostWritable : Space → Bool
  | .obuf => false
  | .key | .fopts | .mic | .frm | .ibuf => true

/-- Whether `offset` is the offset of a byte of the array (R40). -/
def Space.holds (cap offset : Nat) (sp : Space) : Bool :=
  decide (sp.base ≤ offset) && decide (offset < sp.base + sp.size cap)

/-- What a mapped offset names: a scalar register, or a byte of an array (R40). -/
inductive Target where
  | reg (r : Reg)
  | byte (sp : Space)
  deriving DecidableEq, Repr

/-- What `offset` names on a core whose BUF_CAP is `cap`; `none` for an unmapped offset (R40, R41). -/
def targetOf (cap offset : Nat) : Option Target :=
  match Reg.all.find? (fun r => r.offset == offset) with
  | some r => some (.reg r)
  | none => (Space.all.find? (fun sp => sp.holds cap offset)).map .byte

/-- The scalar register as a host read returns it: its value zero-extended to 32 bits; CMD reads as 0 (R14, R33). -/
def State.get (s : State) : Reg → Word
  | .cmd => 0
  | .err => s.err.setWidth 32
  | .errinfo => s.errinfo.setWidth 32
  | .lastop => s.lastop.setWidth 32
  | .mtype => s.mtype.setWidth 32
  | .major => s.major.setWidth 32
  | .devaddr => s.devaddr
  | .adr => s.adr.setWidth 32
  | .adrackreq => s.adrackreq.setWidth 32
  | .ack => s.ack.setWidth 32
  | .fpending => s.fpending.setWidth 32
  | .foptslen => s.foptslen.setWidth 32
  | .fcnt => s.fcnt.setWidth 32
  | .fportv => s.fportv.setWidth 32
  | .fport => s.fport.setWidth 32
  | .frmlen => s.frmlen.setWidth 32
  | .byte => s.byte.setWidth 32
  | .dir => s.dir.setWidth 32
  | .keylen => s.keylen.setWidth 32
  | .ilen => s.ilen.setWidth 32
  | .olen => s.olen.setWidth 32
  | .cap => s.cap.setWidth 32

/-- The state with `v`, a number below 2^width, stored in a field register (R11, R35). A register that is not a
field register is left alone: the host may not write it, and a write to CMD is a command, not a store (R21, R70). -/
def State.setField (s : State) (v : Nat) : Reg → State
  | .mtype => { s with mtype := BitVec.ofNat 3 v }
  | .major => { s with major := BitVec.ofNat 2 v }
  | .devaddr => { s with devaddr := BitVec.ofNat 32 v }
  | .adr => { s with adr := BitVec.ofNat 1 v }
  | .adrackreq => { s with adrackreq := BitVec.ofNat 1 v }
  | .ack => { s with ack := BitVec.ofNat 1 v }
  | .fpending => { s with fpending := BitVec.ofNat 1 v }
  | .foptslen => { s with foptslen := BitVec.ofNat 4 v }
  | .fcnt => { s with fcnt := BitVec.ofNat 16 v }
  | .fportv => { s with fportv := BitVec.ofNat 1 v }
  | .fport => { s with fport := BitVec.ofNat 8 v }
  | .frmlen => { s with frmlen := BitVec.ofNat 16 v }
  | .byte => { s with byte := BitVec.ofNat 8 v }
  | .dir => { s with dir := BitVec.ofNat 1 v }
  | .keylen => { s with keylen := BitVec.ofNat 8 v }
  | .ilen => { s with ilen := BitVec.ofNat 16 v }
  | .cmd | .err | .errinfo | .lastop | .olen | .cap => s

end Sys2Proof.Machine
end

