-- ==== Sys2Proof/Machine/Ops.lean ====
section
/-! DEFINITION. The named operations over memory, the byte arrays and the status registers that every meaning is
built from, ending a command in success or in an error among them (spec 00_scope.md R7, 60_exceptions.md R160, R161). -/

namespace Sys2Proof.Machine

/-- The canonical form of a memory: offsets strictly rising, and no cell that holds 0x00, which is what an unlisted
offset reads as. Equal memories are then equal lists. -/
abbrev Memory.wf (m : Memory) : Prop :=
  m.Pairwise (fun c d => c.1 < d.1) ∧ ∀ c ∈ m, c.2 ≠ 0

/-- What an unlisted offset reads as: the reset contents of every array (R20). -/
abbrev Memory.unlisted : Byte := 0

/-- The byte at an offset. -/
def Memory.read : Memory → Nat → Byte
  | [], _ => Memory.unlisted
  | (b, v) :: m, a => if a = b then v else Memory.read m a

/-- Store a byte at an offset, keeping the canonical form: storing 0x00 removes the cell. -/
def Memory.write : Memory → Nat → Byte → Memory
  | [], a, v => if v = Memory.unlisted then [] else [(a, v)]
  | (b, w) :: m, a, v =>
    if a < b then (if v = Memory.unlisted then (b, w) :: m else (a, v) :: (b, w) :: m)
    else if a = b then (if v = Memory.unlisted then m else (a, v) :: m)
    else (b, w) :: Memory.write m a v

/-- The `n` bytes at offsets `a` to `a + n - 1`. -/
def Memory.readBytes (m : Memory) : Nat → Nat → List Byte
  | _, 0 => []
  | a, n + 1 => m.read a :: m.readBytes (a + 1) n

/-- Store a byte string at offset `a` and up. -/
def Memory.writeBytes : Memory → Nat → List Byte → Memory
  | m, _, [] => m
  | m, a, b :: bs => Memory.writeBytes (m.write a b) (a + 1) bs

/-- `MemRead(SPACE + off, n)` (R7, R44). -/
def State.memRead (s : State) (sp : Space) (off n : Nat) : List Byte := s.mem.readBytes (sp.base + off) n

/-- `MemWrite(SPACE + off, len(v), v)` (R7, R44). -/
def State.memWrite (s : State) (sp : Space) (off : Nat) (v : List Byte) : State :=
  { s with mem := s.mem.writeBytes (sp.base + off) v }

/-- BUF_CAP, read from the hardwired CAP register (R14). -/
def State.bufCap (s : State) : Nat := s.cap.toNat

/-- Store a command's output byte string: the new valid bytes of OBUF, and OLEN; the tail stays (R16, R17). -/
def State.putOutput (s : State) (v : List Byte) : State :=
  { s.memWrite .obuf 0 v with olen := BitVec.ofNat 16 v.length }

/-- The state with the two status registers a command ends by writing (R13, R160, R161). -/
def State.withStatus (s : State) (err : BitVec 4) (info : Byte) : State := { s with err := err, errinfo := info }

/-- A command that reaches its end: ERR and ERRINFO become 0 (R160). LASTOP was written when it started (R70). -/
def succeed (s : State) : Result := .next (s.withStatus 0 0)

/-- `raise E(info)`, the core's one exceptional mechanism: ERR and ERRINFO are written, nothing else changes, no
control is transferred and nothing needs restoring (R161, R169, R170). -/
def raiseReport (r : Report) (s : State) : Result := .next (s.withStatus r.error.code r.info)

/-- `raise E((STRUCT << 4) | FIELD)` as the command rules write it. -/
def raise (e : Error) (st : Struct) (f : Field) (s : State) : Result := raiseReport ⟨e, st, f⟩ s

end Sys2Proof.Machine
end

