-- ==== Sys2Proof/Machine/Values.lean ====
section
/-! DEFINITION. The abstract values the rules speak of (spec 00_scope.md R8). -/

namespace Sys2Proof.Machine

/-- FCtrl = adr, adr_ack_req, ack, f_pending : bit, opts_len : 0..15 (R8). -/
structure Fctrl where
  adr : BitVec 1
  adrAckReq : BitVec 1
  ack : BitVec 1
  fPending : BitVec 1
  optsLen : BitVec 4
  deriving DecidableEq, Repr

/-- MHDR = mtype : 0..7, major : 0..3 (R8). -/
structure Mhdr where
  mtype : BitVec 3
  major : BitVec 2
  deriving DecidableEq, Repr

/-- FHDR (R8). -/
structure Fhdr where
  devAddr : BitVec 32
  ctrl : Fctrl
  fcnt : BitVec 16
  opts : List Byte
  deriving DecidableEq, Repr

/-- DataPayload: the header, the optional port and the opaque payload bytes (R8). -/
structure DataPayload where
  hdr : Fhdr
  port : Option Byte
  frm : List Byte
  deriving DecidableEq, Repr

/-- The payload variants; JoinRequest and JoinAccept "carry no implemented fields" (R8). -/
inductive Payload where
  | data (d : DataPayload)
  | joinRequest
  | joinAccept
  deriving DecidableEq, Repr

/-- PHYPayload (R8). -/
structure PhyPayload where
  mhdr : Mhdr
  payload : Payload
  mic : List Byte
  deriving DecidableEq, Repr

/-- The names of the payload variants (R150). -/
inductive Variant where
  | data | joinRequest | joinAccept
  deriving DecidableEq, Repr

end Sys2Proof.Machine
end

