-- ==== Sys2Proof/Machine/Operands.lean ====
section
/-! DEFINITION. The operand forms: the views from registers to abstract values (spec 10_state.md R18), the input
string and the key, and the stores of the structured results. -/

namespace Sys2Proof.Machine

/-- `len(opts) = ctrl.opts_len` (R8). -/
abbrev Fhdr.wf (h : Fhdr) : Prop := h.opts.length = h.ctrl.optsLen.toNat

/-- `port = none implies frm is empty`, over a well-formed header (R8). -/
abbrev DataPayload.wf (d : DataPayload) : Prop := d.hdr.wf ∧ (d.port = none → d.frm = [])

/-- `variant_of(mtype)`; types 6 and 7 have none (R150). -/
def variantOf (mtype : BitVec 3) : Option Variant :=
  match mtype.toNat with
  | 0 => some .joinRequest
  | 1 => some .joinAccept
  | 2 | 3 | 4 | 5 => some .data
  | _ => none

/-- The variant a payload value is (R8). -/
def Payload.variant : Payload → Variant
  | .data _ => .data
  | .joinRequest => .joinRequest
  | .joinAccept => .joinAccept

/-- The invariant of R8: the payload variant is the one `variant_of(mhdr.mtype)` names, a Data payload meets its own
invariant, and the MIC has 4 bytes. -/
abbrev PhyPayload.wf (p : PhyPayload) : Prop :=
  variantOf p.mhdr.mtype = some p.payload.variant ∧ p.mic.length = Config.micBytes ∧
    match p.payload with
    | .data d => d.wf
    | .joinRequest | .joinAccept => True

/-- `view_fctrl` (R18). -/
def State.viewFctrl (s : State) : Fctrl := ⟨s.adr, s.adrackreq, s.ack, s.fpending, s.foptslen⟩

/-- `view_mhdr` (R18). -/
def State.viewMhdr (s : State) : Mhdr := ⟨s.mtype, s.major⟩

/-- `view_fhdr`: the options are the valid bytes of FOPTS (R17, R18). -/
def State.viewFhdr (s : State) : Fhdr := ⟨s.devaddr, s.viewFctrl, s.fcnt, s.memRead .fopts 0 s.foptslen.toNat⟩

/-- `view_data` (R18). It has a meaning only when FRMLEN ≤ BUF_CAP and not (FPORTV = 0 and FRMLEN > 0): the
commands that use it check both first. -/
def State.viewData (s : State) : DataPayload :=
  ⟨s.viewFhdr, if s.fportv = 1 then some s.fport else none, s.memRead .frm 0 s.frmlen.toNat⟩

/-- `view_phy`: the payload by `variant_of(MTYPE)`; none for types 6 and 7 (R18). -/
def State.viewPhy (s : State) : Option PhyPayload :=
  (variantOf s.mtype).map fun v =>
    ⟨s.viewMhdr,
     match v with
     | .data => .data s.viewData
     | .joinRequest => .joinRequest
     | .joinAccept => .joinAccept,
     s.memRead .mic 0 Config.micBytes⟩

/-- The input byte string of a command, the valid bytes of IBUF: `MemRead(IBUF + 0, x[ILEN])` (R16, R17). -/
def State.input (s : State) : List Byte := s.memRead .ibuf 0 s.ilen.toNat

/-- The key operand, `MemRead(KEY + 0, 16)` (R15). -/
def State.keyBytes (s : State) : List Byte := s.memRead .key 0 Config.keyBytes

/-- The MIC operand, `MemRead(MIC + 0, 4)` (R15). -/
def State.micBytes (s : State) : List Byte := s.memRead .mic 0 Config.micBytes

/-- Store the five FCtrl registers (R81). -/
def State.putFctrl (s : State) (c : Fctrl) : State :=
  { s with adr := c.adr, adrackreq := c.adrAckReq, ack := c.ack, fpending := c.fPending, foptslen := c.optsLen }

/-- Store MTYPE and MAJOR (R83). -/
def State.putMhdr (s : State) (h : Mhdr) : State := { s with mtype := h.mtype, major := h.major }

/-- Store an FHDR as PAR_FHDR does: DEVADDR, the FCtrl registers, FCNT and the valid bytes of FOPTS (R91). -/
def State.putFhdr (s : State) (h : Fhdr) : State :=
  { (s.putFctrl h.ctrl).memWrite .fopts 0 h.opts with devaddr := h.devAddr, fcnt := h.fcnt }

/-- Store the port and the payload of a DataPayload as PAR_DATA does: an absent port is FPORTV = 0 and FPORT = 0
(R101, D18). -/
def State.putPayload (s : State) (port : Option Byte) (frm : List Byte) : State :=
  match port with
  | some p => { s.memWrite .frm 0 frm with fportv := 1, fport := p, frmlen := BitVec.ofNat 16 frm.length }
  | none => { s with fportv := 0, fport := 0, frmlen := 0 }

end Sys2Proof.Machine
end

