-- ==== Sys2Proof/Machine/BitField.lean ====
section
/-! DEFINITION. The bit-field codec: ENC_FCTRL, DEC_FCTRL, ENC_MHDR, DEC_MHDR (spec 40_bitfield_codec.md). -/

namespace Sys2Proof.Machine

/-- `encode_fctrl(f)` (R84): ADR in bit 7, ADRACKReq 6, ACK 5, FPending 4, FOptsLen 3:0 (R51). -/
def encodeFctrl (f : Fctrl) : Byte :=
  (f.adr.setWidth 8 <<< 7) ||| (f.adrAckReq.setWidth 8 <<< 6) ||| (f.ack.setWidth 8 <<< 5)
    ||| (f.fPending.setWidth 8 <<< 4) ||| f.optsLen.setWidth 8

/-- `decode_fctrl(b)` (R84). -/
def decodeFctrl (b : Byte) : Fctrl :=
  ⟨b.extractLsb' 7 1, b.extractLsb' 6 1, b.extractLsb' 5 1, b.extractLsb' 4 1, b.extractLsb' 0 4⟩

/-- `encode_mhdr(h) = (mtype << 5) | major`: bits 4:2 are 0 (R85, conflict C1). -/
def encodeMhdr (h : Mhdr) : Byte := (h.mtype.setWidth 8 <<< 5) ||| h.major.setWidth 8

/-- `decode_mhdr(b)`: bits 7:5 and 1:0, bits 4:2 ignored (R85). -/
def decodeMhdr (b : Byte) : Mhdr := ⟨b.extractLsb' 5 3, b.extractLsb' 0 2⟩

/-- ENC_FCTRL (R80). -/
def execEncFctrl (s : State) : Result := succeed { s with byte := encodeFctrl s.viewFctrl }

/-- DEC_FCTRL (R81). -/
def execDecFctrl (s : State) : Result := succeed (s.putFctrl (decodeFctrl s.byte))

/-- ENC_MHDR (R82): no check of MTYPE or MAJOR. -/
def execEncMhdr (s : State) : Result := succeed { s with byte := encodeMhdr s.viewMhdr }

/-- DEC_MHDR (R83): no check, the host must make them (R86). -/
def execDecMhdr (s : State) : Result := succeed (s.putMhdr (decodeMhdr s.byte))

end Sys2Proof.Machine
end

