-- ==== Sys2Proof/Machine/FrameHeader.lean ====
section
/-! DEFINITION. The frame header codec: SER_FHDR, PAR_FHDR (spec 41_fhdr_codec.md). -/

namespace Sys2Proof.Machine

/-- `serialize_fhdr(h)` (R92). -/
def serializeFhdr (h : Fhdr) : List Byte := le 4 h.devAddr ++ [encodeFctrl h.ctrl] ++ le 2 h.fcnt ++ h.opts

/-- FOptsLen of a wire FHDR, `b[4][3:0]`: the number of option bytes it declares (R59, R61). -/
def declaredOpts (b : List Byte) : Nat := (decodeFctrl (byteAt b 4)).optsLen.toNat

/-- The FHDR at the front of a byte string that is long enough for it (R53, R91, R93). -/
def fhdrOf (b : List Byte) : Fhdr :=
  { devAddr := BitVec.ofNat 32 (fromLe (slice b 0 4))
    ctrl := decodeFctrl (byteAt b 4)
    fcnt := BitVec.ofNat 16 (fromLe (slice b 5 7))
    opts := slice b 7 (7 + declaredOpts b) }

/-- `parse_fhdr(b)`: the FHDR and the number of bytes it used, or TooShort or TruncatedOptions (R93). -/
def parseFhdr (b : List Byte) : Except Error (Fhdr × Nat) :=
  if b.length < Config.fhdrMin then .error .tooShort
  else if b.length - Config.fhdrMin < declaredOpts b then .error .truncatedOptions
  else .ok (fhdrOf b, Config.fhdrMin + declaredOpts b)

/-- SER_FHDR (R90). -/
def execSerFhdr (s : State) : Result := succeed (s.putOutput (serializeFhdr s.viewFhdr))

/-- PAR_FHDR (R91). -/
def execParFhdr (s : State) : Result :=
  if s.ilen.toNat > s.bufCap then raise .badRequest .fhdr .ilen s
  else if s.ilen.toNat < Config.fhdrMin then raise .tooShort .fhdr .ilen s
  else if s.ilen.toNat - Config.fhdrMin < declaredOpts s.input then raise .truncatedOptions .fhdr .foptslen s
  else succeed (s.putFhdr (fhdrOf s.input))

end Sys2Proof.Machine
end

