-- ==== Sys2Proof/Machine/MacPayload.lean ====
section
/-! DEFINITION. The MAC payload codec: SER_DATA, PAR_DATA (spec 42_mac_payload_codec.md). -/

namespace Sys2Proof.Machine

/-- `serialize_data(d)`: FHDR, then the port and the payload when a port is present (R102). -/
def serializeData (d : DataPayload) : List Byte :=
  serializeFhdr d.hdr ++
    match d.port with
    | some p => p :: d.frm
    | none => []

/-- The number of bytes of the FHDR at the front of a byte string, `7 + FOptsLen` (R53, R61). -/
def fhdrBytes (b : List Byte) : Nat := Config.fhdrMin + declaredOpts b

/-- The port of a DataPayload: the first byte after the FHDR when there is one (R54, R101, conflict C2). -/
def portOf (b : List Byte) : Option Byte :=
  if b.length > fhdrBytes b then some (byteAt b (fhdrBytes b)) else none

/-- The frame payload of a DataPayload: every byte after the port (R54, R101). -/
def frmOf (b : List Byte) : List Byte :=
  if b.length > fhdrBytes b then slice b (fhdrBytes b + 1) b.length else []

/-- `parse_data(b)` (R103). -/
def parseData (b : List Byte) : Except Error DataPayload :=
  if b.length < Config.fhdrMin then .error .tooShort
  else match parseFhdr b with
    | .error e => .error e
    | .ok (h, k) =>
      if b.length > k then .ok ⟨h, some (byteAt b k), slice b (k + 1) b.length⟩
      else .ok ⟨h, none, []⟩

/-- Write the Data registers from a byte string exactly as PAR_DATA does (R101, R153). -/
def State.putDataFrom (s : State) (b : List Byte) : State := (s.putFhdr (fhdrOf b)).putPayload (portOf b) (frmOf b)

/-- SER_DATA (R100). -/
def execSerData (s : State) : Result :=
  if s.frmlen.toNat > s.bufCap then raise .badRequest .data .frmlen s
  else if s.fportv = 0 ∧ s.frmlen.toNat > 0 then raise .badRequest .data .fportv s
  else if (serializeData s.viewData).length > s.bufCap then raise .lengthOutOfRange .data .olen s
  else succeed (s.putOutput (serializeData s.viewData))

/-- PAR_DATA (R101). -/
def execParData (s : State) : Result :=
  if s.ilen.toNat > s.bufCap then raise .badRequest .data .ilen s
  else if s.ilen.toNat < Config.fhdrMin then raise .tooShort .data .ilen s
  else if s.ilen.toNat - Config.fhdrMin < declaredOpts s.input then raise .truncatedOptions .fhdr .foptslen s
  else succeed (s.putDataFrom s.input)

end Sys2Proof.Machine
end

