-- ==== Sys2Proof/Machine/BlockCipher.lean ====
section
/-! DEFINITION. The block cipher primitive E(K, X), AES-128 forward direction (spec 43_block_cipher.md). -/

namespace Sys2Proof.Machine

/-- A column of the cipher state, or a 4-byte word of the key schedule (R111, R113). -/
structure Column where
  b0 : Byte
  b1 : Byte
  b2 : Byte
  b3 : Byte
  deriving DecidableEq, Repr

/-- A 16-byte block, four columns: byte `r + 4c` of the string is row r of column c (R111). -/
structure Block where
  c0 : Column
  c1 : Column
  c2 : Column
  c3 : Column
  deriving DecidableEq, Repr

/-- The block whose bytes are those of a 16-byte string, filled column by column (R111). -/
def Block.ofBytes (s : List Byte) : Block :=
  let col (c : Nat) : Column := ⟨byteAt s (4 * c), byteAt s (4 * c + 1), byteAt s (4 * c + 2), byteAt s (4 * c + 3)⟩
  ⟨col 0, col 1, col 2, col 3⟩

/-- The four bytes of a column, row 0 first. -/
def Column.toBytes (c : Column) : List Byte := [c.b0, c.b1, c.b2, c.b3]

/-- The 16 bytes of a block, read back column by column (R111). -/
def Block.toBytes (b : Block) : List Byte := b.c0.toBytes ++ b.c1.toBytes ++ b.c2.toBytes ++ b.c3.toBytes

/-- Byte-wise exclusive or of two columns. -/
def Column.xor (a b : Column) : Column := ⟨a.b0 ^^^ b.b0, a.b1 ^^^ b.b1, a.b2 ^^^ b.b2, a.b3 ^^^ b.b3⟩

/-- Byte-wise exclusive or of two blocks. -/
def Block.xor (a b : Block) : Block := ⟨a.c0.xor b.c0, a.c1.xor b.c1, a.c2.xor b.c2, a.c3.xor b.c3⟩

/-- zeros(16) as a block. -/
def Block.zero : Block := ⟨⟨0, 0, 0, 0⟩, ⟨0, 0, 0, 0⟩, ⟨0, 0, 0, 0⟩, ⟨0, 0, 0, 0⟩⟩

/-- Multiplication by x in GF(2^8) modulo 0x11B (R112). -/
def xtime (a : Byte) : Byte := if a.msb then (a <<< 1) ^^^ 0x1B else a <<< 1

/-- `mul2(a) = xtime(a)` (R112). -/
def mul2 (a : Byte) : Byte := xtime a

/-- `mul3(a) = xtime(a) xor a` (R112). -/
def mul3 (a : Byte) : Byte := xtime a ^^^ a

/-- The S-box table of R114, one number per row: its 32 hexadecimal digits are the row's 16 entries in order. -/
def sboxRows : List Nat :=
  [ 0x637C777BF26B6FC53001672BFED7AB76,
    0xCA82C97DFA5947F0ADD4A2AF9CA472C0,
    0xB7FD9326363FF7CC34A5E5F171D83115,
    0x04C723C31896059A071280E2EB27B275,
    0x09832C1A1B6E5AA0523BD6B329E32F84,
    0x53D100ED20FCB15B6ACBBE394A4C58CF,
    0xD0EFAAFB434D338545F9027F503C9FA8,
    0x51A3408F929D38F5BCB6DA2110FFF3D2,
    0xCD0C13EC5F974417C4A77E3D645D1973,
    0x60814FDC222A908846EEB814DE5E0BDB,
    0xE0323A0A4906245CC2D3AC629195E479,
    0xE7C8376D8DD54EA96C56F4EA657AAE08,
    0xBA78252E1CA6B4C6E8DD741F4BBD8B8A,
    0x703EB5664803F60E613557B986C11D9E,
    0xE1F8981169D98E949B1E87E9CE5528DF,
    0x8CA1890DBFE6426841992D0FB054BB16 ]

/-- `SBOX[v]`, row v div 16 and column v mod 16 of the table (R114). -/
def sbox (v : Byte) : Byte :=
  BitVec.ofNat 8 (sboxRows.getD (v.toNat / 16) 0 >>> (8 * (15 - v.toNat % 16)))

/-- The S-box on each byte of a column: SubWord of the key schedule, and one column of SubBytes (R113, R115). -/
def Column.sub (c : Column) : Column := ⟨sbox c.b0, sbox c.b1, sbox c.b2, sbox c.b3⟩

/-- RotWord: `[t1, t2, t3, t0]` (R113). -/
def Column.rot (c : Column) : Column := ⟨c.b1, c.b2, c.b3, c.b0⟩

/-- The round constants RCON[1..10] (R113). -/
def rcon : List Byte := [0x01, 0x02, 0x04, 0x08, 0x10, 0x20, 0x40, 0x80, 0x1B, 0x36]

/-- Four steps of the key expansion, w[4j..4j+3] from w[4j-4..4j-1] with RCON[j]: the first of the four, where
i mod 4 = 0, takes RotWord, SubWord and the constant; each of the others is w[i-4] xor w[i-1] (R113). -/
def nextRoundKey (rk : Block) (rc : Byte) : Block :=
  let w0 := rk.c0.xor (rk.c3.rot.sub.xor ⟨rc, 0, 0, 0⟩)
  let w1 := rk.c1.xor w0
  let w2 := rk.c2.xor w1
  let w3 := rk.c3.xor w2
  ⟨w0, w1, w2, w3⟩

/-- The round keys that follow `rk`, one per round constant. -/
def roundKeysFrom : Block → List Byte → List Block
  | _, [] => []
  | rk, rc :: rcs => nextRoundKey rk rc :: roundKeysFrom (nextRoundKey rk rc) rcs

/-- The round keys rk_1 to rk_10; rk_0 is the key itself (R113). -/
def roundKeys (k : Block) : List Block := roundKeysFrom k rcon

/-- SubBytes (R115). -/
def subBytes (t : Block) : Block := ⟨t.c0.sub, t.c1.sub, t.c2.sub, t.c3.sub⟩

/-- ShiftRows: row r is rotated left by r columns (R116). -/
def shiftRows (t : Block) : Block :=
  ⟨⟨t.c0.b0, t.c1.b1, t.c2.b2, t.c3.b3⟩,
   ⟨t.c1.b0, t.c2.b1, t.c3.b2, t.c0.b3⟩,
   ⟨t.c2.b0, t.c3.b1, t.c0.b2, t.c1.b3⟩,
   ⟨t.c3.b0, t.c0.b1, t.c1.b2, t.c2.b3⟩⟩

/-- One column of MixColumns (R117). -/
def Column.mix (a : Column) : Column :=
  ⟨mul2 a.b0 ^^^ mul3 a.b1 ^^^ a.b2 ^^^ a.b3,
   a.b0 ^^^ mul2 a.b1 ^^^ mul3 a.b2 ^^^ a.b3,
   a.b0 ^^^ a.b1 ^^^ mul2 a.b2 ^^^ mul3 a.b3,
   mul3 a.b0 ^^^ a.b1 ^^^ a.b2 ^^^ mul2 a.b3⟩

/-- MixColumns (R117). -/
def mixColumns (t : Block) : Block := ⟨t.c0.mix, t.c1.mix, t.c2.mix, t.c3.mix⟩

/-- The rounds: a round key that another follows is used with MixColumns, the last one without (R118). -/
def rounds : Block → List Block → Block
  | t, [] => t
  | t, [rk] => (shiftRows (subBytes t)).xor rk
  | t, rk :: rks => rounds ((mixColumns (shiftRows (subBytes t))).xor rk) rks

/-- `E(K, X)`, the AES-128 forward cipher (R110, R118). -/
def cipherE (k x : Block) : Block := rounds (x.xor k) (roundKeys k)

end Sys2Proof.Machine
end

