-- ==== Sys2Proof/Machine/PayloadCipher.lean ====
section
/-! DEFINITION. The payload cipher: CRYPT (spec 44_payload_cipher.md). -/

namespace Sys2Proof.Machine

/-- The 14 bytes that A_i and B0 share after their first byte, then the last byte `n`: four zeros, the direction
byte, the address and the counter widened to 32 bits with zeros, little-endian, a zero (R31, R56, R57). -/
def cryptoBlock (first dir : Byte) (addr : BitVec 32) (fcnt : BitVec 16) (n : Byte) : List Byte :=
  [first, 0x00, 0x00, 0x00, 0x00, dir] ++ le 4 addr ++ le 4 (fcnt.setWidth 32) ++ [0x00, n]

/-- `direction_byte` of the payload cipher: 0x01 for downlink, else 0x00 (R58). -/
def downByte (down : BitVec 1) : Byte := if down = 1 then 0x01 else 0x00

/-- The keystream input block `A(i, down, addr, fcnt)` (R125). -/
def blockA (i : Nat) (down : BitVec 1) (addr : BitVec 32) (fcnt : BitVec 16) : List Byte :=
  cryptoBlock 0x01 (downByte down) addr fcnt (BitVec.ofNat 8 i)

/-- The keystream `S_1 ‖ S_2 ‖ ... ‖ S_n` (R126). -/
def keystream (key : List Byte) (n : Nat) (down : BitVec 1) (addr : BitVec 32) (fcnt : BitVec 16) : List Byte :=
  (List.range n).flatMap fun k =>
    (cipherE (Block.ofBytes key) (Block.ofBytes (blockA (k + 1) down addr fcnt))).toBytes

/-- `crypt(K, data, down, addr, fcnt)`: the data xored with the keystream cut to its length (R126). -/
def cryptBytes (key data : List Byte) (down : BitVec 1) (addr : BitVec 32) (fcnt : BitVec 16) : List Byte :=
  xorBytes data (keystream key (ceilDiv data.length Config.blockBytes) down addr fcnt)

/-- CRYPT (R127). The same command encrypts and decrypts. -/
def execCrypt (s : State) : Result :=
  if s.ilen.toNat > s.bufCap then raise .badRequest .cipher .ilen s
  else if s.keylen.toNat ≠ Config.keyBytes then raise .invalidKey .cipher .keylen s
  else if s.ilen.toNat > Config.cryptMax then raise .lengthOutOfRange .cipher .ilen s
  else succeed (s.putOutput (cryptBytes s.keyBytes s.input s.dir s.devaddr s.fcnt))

end Sys2Proof.Machine
end

