-- ==== Sys2Proof/Machine/Integrity.lean ====
section
/-! DEFINITION. The integrity engine: MIC, MIC_FRAME (spec 45_integrity_engine.md). -/

namespace Sys2Proof.Machine

/-- A block read as a 128-bit number whose most significant byte is byte 0 (R136). -/
def Block.toNumber (b : Block) : BitVec 128 := BitVec.ofNat 128 (fromLe b.toBytes.reverse)

/-- The block of a 128-bit number, most significant byte first (R136). -/
def Block.ofNumber (v : BitVec 128) : Block := Block.ofBytes (le 16 v).reverse

/-- `dbl(B)`: one bit to the left, and 0x87 into the last byte when the bit shifted out is 1 (R136). -/
def dbl (b : Block) : Block :=
  let c := b.toNumber <<< 1
  Block.ofNumber (if b.toNumber.msb then c ^^^ 0x87 else c)

/-- The subkeys (K1, K2) of a key: K1 = dbl(E(K, 0)), K2 = dbl(K1) (R136). -/
def subkeys (k : Block) : Block × Block :=
  let k1 := dbl (cipherE k Block.zero)
  (k1, dbl k1)

/-- The number of blocks of a CMAC message, at least 1 (R137). -/
def cmacBlocks (m : List Byte) : Nat := max 1 (ceilDiv m.length Config.blockBytes)

/-- The bytes of the last block of a CMAC message, 0 to 16 of them (R137). -/
def cmacTail (m : List Byte) : List Byte := m.drop (Config.blockBytes * (cmacBlocks m - 1))

/-- `M_last`: a complete last block xor K1, else the 10*-padded block xor K2 (R137). -/
def cmacLast (k : Block) (m : List Byte) : Block :=
  let r := cmacTail m
  if m.length ≠ 0 ∧ m.length % Config.blockBytes = 0 then (Block.ofBytes r).xor (subkeys k).1
  else (Block.ofBytes (r ++ [0x80] ++ zeros (15 - r.length))).xor (subkeys k).2

/-- The chaining value X before the last block: X starts at zeros(16) and is E(K, X xor M_i) after block i (R137). -/
def cmacChain (k : Block) (m : List Byte) : Block :=
  (List.range (cmacBlocks m - 1)).foldl
    (fun x i => cipherE k (x.xor (Block.ofBytes (slice m (Config.blockBytes * i) (Config.blockBytes * (i + 1))))))
    Block.zero

/-- `cmac(K, M)`, the 16-byte tag T (R135, R137). -/
def cmac (k : Block) (m : List Byte) : Block := cipherE k ((cmacChain k m).xor (cmacLast k m))

/-- `dir_of(mtype)`: 0x00 for 2 and 4, 0x01 for 3 and 5, undefined otherwise (R139, R58). -/
def dirOf (mtype : BitVec 3) : Option Byte :=
  match mtype.toNat with
  | 2 | 4 => some 0x00
  | 3 | 5 => some 0x01
  | _ => none

/-- The authentication block `B0(d, addr, fcnt, n)` (R139). -/
def blockB0 (d : Byte) (addr : BitVec 32) (fcnt : BitVec 16) (n : Nat) : List Byte :=
  cryptoBlock 0x49 d addr fcnt (BitVec.ofNat 8 n)

/-- The first four bytes of the CMAC of `B0 ‖ msg` under a direction byte (R135, R140). -/
def micTag (d : Byte) (msg key : List Byte) (addr : BitVec 32) (fcnt : BitVec 16) : List Byte :=
  (cmac (Block.ofBytes key) (blockB0 d addr fcnt msg.length ++ msg)).toBytes.take Config.micBytes

/-- `compute_mic(mtype, msg, K, addr, fcnt)` (R140). -/
def computeMic (mtype : BitVec 3) (msg key : List Byte) (addr : BitVec 32) (fcnt : BitVec 16) :
    Except Error (List Byte) :=
  match dirOf mtype with
  | none => .error .unsupportedDirection
  | some d => if msg.length > Config.msgMax then .error .lengthOutOfRange else .ok (micTag d msg key addr fcnt)

/-- Run compute_mic and store its 4 bytes in MIC; an error it answers is reported with STRUCT = MIC and the field
that offended (R140, R163). The callers check the length first, as their rules order it, so that only the direction
error is left to it. -/
def State.storeMic (s : State) (msg : List Byte) : Result :=
  match computeMic s.mtype msg s.keyBytes s.devaddr s.fcnt with
  | .ok m => succeed (s.memWrite .mic 0 m)
  | .error .lengthOutOfRange => raise .lengthOutOfRange .mic .msglen s
  | .error e => raise e .mic .mtype s

/-- MIC (R141): the direction comes from MTYPE; the key is checked last. -/
def execMic (s : State) : Result :=
  if s.ilen.toNat > s.bufCap then raise .badRequest .mic .ilen s
  else if variantOf s.mtype ≠ some .data then raise .unsupportedDirection .mic .mtype s
  else if s.ilen.toNat > Config.msgMax then raise .lengthOutOfRange .mic .msglen s
  else if s.keylen.toNat ≠ Config.keyBytes then raise .invalidKey .mic .keylen s
  else s.storeMic s.input

/-- The message image of the frame in the registers: the rebuilt MHDR byte, then the data payload (R142). -/
def State.frameImage (s : State) : List Byte := encodeMhdr s.viewMhdr :: serializeData s.viewData

/-- MIC_FRAME (R142): dispatch on the variant first, then the payload registers, the length, the key. FRMLEN above
BUF_CAP is reported with STRUCT = DATA, 0x38, as R142 and R164 write it; R172's words "the STRUCT of the command's own
unit" would give 0x68. That R142 and R164 are followed is the model's reading (log entry 11, DEDUCED). -/
def execMicFrame (s : State) : Result :=
  if s.mtype.toNat ≤ 1 then raise .notImplemented .mic .join s
  else if 6 ≤ s.mtype.toNat then raise .unsupportedMessageType .mic .mtype s
  else if s.frmlen.toNat > s.bufCap then raise .badRequest .data .frmlen s
  else if s.fportv = 0 ∧ s.frmlen.toNat > 0 then raise .badRequest .data .fportv s
  else if s.frameImage.length > Config.msgMax then raise .lengthOutOfRange .mic .msglen s
  else if s.keylen.toNat ≠ Config.keyBytes then raise .invalidKey .mic .keylen s
  else s.storeMic s.frameImage

end Sys2Proof.Machine
end

