-- ==== Sys2Proof/Machine/PhyFrame.lean ====
section
/-! DEFINITION. The physical frame codec and its dispatch: SER_PHY, PAR_PHY (spec 46_phy_frame_codec.md). -/

namespace Sys2Proof.Machine

/-- `serialize_phy(p)`; defined for a Data payload only (R154). -/
def serializePhy (p : PhyPayload) : Option (List Byte) :=
  match p.payload with
  | .data d => some ([encodeMhdr p.mhdr] ++ serializeData d ++ p.mic)
  | .joinRequest | .joinAccept => none

/-- How parse_phy ends (R155). -/
inductive PhyParse where
  /-- The frame, whole. -/
  | ok (p : PhyPayload)
  /-- UnsupportedVersion "together with the partial result": the header and the MIC, no payload. -/
  | unsupportedVersion (h : Mhdr) (mic : List Byte)
  /-- Any other error: no result. -/
  | error (e : Error)
  deriving DecidableEq, Repr

/-- The MAC payload region of a frame, `b[1 .. L-4)` (R55, R155). -/
def macRegion (b : List Byte) : List Byte := slice b 1 (b.length - Config.micBytes)

/-- The MIC trailer of a frame, `b[L-4 .. L)` (R55, R155). -/
def micTrailer (b : List Byte) : List Byte := slice b (b.length - Config.micBytes) b.length

/-- `parse_phy(b)`: size, then version, then dispatch on the type (R155). -/
def parsePhy (b : List Byte) : PhyParse :=
  if b.length < Config.phyMin then .error .tooShort
  else
    let h := decodeMhdr (byteAt b 0)
    if h.major ≠ 0 then .unsupportedVersion h (micTrailer b)
    else match variantOf h.mtype with
      | some .data =>
        match parseData (macRegion b) with
        | .ok d => .ok ⟨h, .data d, micTrailer b⟩
        | .error e => .error e
      | some .joinRequest | some .joinAccept => .error .notImplemented
      | none => .error .unsupportedMessageType

/-- The byte image SER_PHY stores: MHDR, data payload, the MIC as it stands (R151). -/
def State.phyImage (s : State) : List Byte := [encodeMhdr s.viewMhdr] ++ serializeData s.viewData ++ s.micBytes

/-- SER_PHY (R151). FRMLEN above BUF_CAP is reported with STRUCT = DATA, 0x38, as R151 and R164 write it; R172's words
"the STRUCT of the command's own unit" would give 0x48. That R151 and R164 are followed is the model's reading (log
entry 11, DEDUCED). -/
def execSerPhy (s : State) : Result :=
  if s.mtype.toNat ≤ 1 then raise .notImplemented .phy .join s
  else if 6 ≤ s.mtype.toNat then raise .unsupportedMessageType .phy .mtype s
  else if s.frmlen.toNat > s.bufCap then raise .badRequest .data .frmlen s
  else if s.fportv = 0 ∧ s.frmlen.toNat > 0 then raise .badRequest .data .fportv s
  else if s.phyImage.length > s.bufCap then raise .lengthOutOfRange .phy .olen s
  else succeed (s.putOutput s.phyImage)

/-- Store the header and the MIC trailer of a received frame: the partial result of UnsupportedVersion, and the
first part of a whole one (R153). -/
def State.putHeaderAndMic (s : State) (b : List Byte) : State :=
  (s.putMhdr (decodeMhdr (byteAt b 0))).memWrite .mic 0 (micTrailer b)

/-- PAR_PHY (R153): UnsupportedVersion is the one error of the core that comes with a result. -/
def execParPhy (s : State) : Result :=
  let b := s.input
  let h := decodeMhdr (byteAt b 0)
  if s.ilen.toNat > s.bufCap then raise .badRequest .phy .ilen s
  else if s.ilen.toNat < Config.phyMin then raise .tooShort .phy .ilen s
  else if h.major ≠ 0 then raise .unsupportedVersion .phy .major (s.putHeaderAndMic b)
  else if h.mtype.toNat ≤ 1 then raise .notImplemented .phy .join s
  else if 6 ≤ h.mtype.toNat then raise .unsupportedMessageType .phy .mtype s
  else if (macRegion b).length < Config.fhdrMin then raise .tooShort .data .ilen s
  else if (macRegion b).length - Config.fhdrMin < declaredOpts (macRegion b) then
    raise .truncatedOptions .fhdr .foptslen s
  else succeed ((s.putHeaderAndMic b).putDataFrom (macRegion b))

end Sys2Proof.Machine
end

