-- ==== Sys2Proof/Machine/Dispatch.lean ====
section
/-! DEFINITION. The dispatch: one arm per command, each one direct call of its meaning (spec 30_encoding.md R71). -/

namespace Sys2Proof.Machine

def exec (i : Instr) (s : State) : Host.Outcome State Fault Refusal :=
  match i with
  | .encFctrl => Sys2Proof.Machine.execEncFctrl s
  | .decFctrl => Sys2Proof.Machine.execDecFctrl s
  | .encMhdr => Sys2Proof.Machine.execEncMhdr s
  | .decMhdr => Sys2Proof.Machine.execDecMhdr s
  | .serFhdr => Sys2Proof.Machine.execSerFhdr s
  | .parFhdr => Sys2Proof.Machine.execParFhdr s
  | .serData => Sys2Proof.Machine.execSerData s
  | .parData => Sys2Proof.Machine.execParData s
  | .crypt => Sys2Proof.Machine.execCrypt s
  | .mic => Sys2Proof.Machine.execMic s
  | .micFrame => Sys2Proof.Machine.execMicFrame s
  | .serPhy => Sys2Proof.Machine.execSerPhy s
  | .parPhy => Sys2Proof.Machine.execParPhy s

end Sys2Proof.Machine
end

