-- ==== Sys2Proof/Machine/Bus.lean ====
section
/-! DEFINITION. Host accesses: a read, a write, a command started by a write to CMD, and reset (spec 20_memory.md
R35, R43, 30_encoding.md R70, 70_reset_and_hazards.md R190). -/

namespace Sys2Proof.Machine

/-- The write of `w` to CMD: LASTOP takes bits 7:0; a word that names no command raises BadRequest(0x19), else the
command runs to completion (R36, R70). -/
def writeCommand (w : Word) (s : State) : Result :=
  let s' := { s with lastop := opcodeField w }
  match decode w with
  | .ok i => exec i s'
  | .error _ => raise .badRequest .cmd .opcode s'

/-- Return a word to the host, the upper bits zero (R33, R35). No read has any other effect. -/
def answer (w : Word) (s : State) : Result := .next { s with reply := some w }

/-- A host read of `bits` bits at `offset` (R35, R43). -/
def hostRead (bits offset : Nat) (s : State) : Result :=
  match targetOf s.bufCap offset with
  | none => .refused .unmappedOffset
  | some (.reg r) => if bits ≠ 32 then .refused .wrongWidth else answer (s.get r) s
  | some (.byte _) => if bits ≠ 8 then .refused .wrongWidth else answer ((s.mem.read offset).setWidth 32) s

/-- A host write of `v` to a scalar register (R21, R35, R43): a command for CMD, a store for a field register. -/
def writeReg (r : Reg) (v : Nat) (s : State) : Result :=
  if !r.hostWritable then .refused .notWritable
  else if 2 ^ r.width ≤ v then .refused .valueTooWide
  else if r = .cmd then writeCommand (BitVec.ofNat 32 v) s
  else .next (s.setField v r)

/-- A host write of the byte `v` to an array byte (R21, R35, R43). -/
def writeArrayByte (sp : Space) (offset v : Nat) (s : State) : Result :=
  if !sp.hostWritable then .refused .notWritable
  else if 2 ^ 8 ≤ v then .refused .valueTooWide
  else .next { s with mem := s.mem.write offset (BitVec.ofNat 8 v) }

/-- A host write of `v` as `bits` bits at `offset` (R35, R43). It returns no data. -/
def hostWrite (bits offset v : Nat) (s : State) : Result :=
  match targetOf s.bufCap offset with
  | none => .refused .unmappedOffset
  | some (.reg r) => if bits ≠ 32 then .refused .wrongWidth else writeReg r v { s with reply := none }
  | some (.byte sp) => if bits ≠ 8 then .refused .wrongWidth else writeArrayByte sp offset v { s with reply := none }

/-- Reset: the state of R20 on a core of the same capacity. The accesses the host has not yet made are not the
core's state and stay (R190, log entry 3). -/
def resetCore (s : State) : State := { State.resetWith s.cap with pending := s.pending }

/-- One host access or reset, with all its effects (R36, R37). -/
def access (a : Access) (s : State) : Result :=
  match a with
  | .read bits offset => hostRead bits offset s
  | .write bits offset v => hostWrite bits offset v s
  | .reset => .next (resetCore s)

/-- The bus address of an offset of the register map (R40); the platform chooses BASE (log entry 2). -/
def busAddress (offset : Nat) : Nat := Config.base + offset

end Sys2Proof.Machine
end

