-- ==== Sys2Proof/Machine/Step.lean ====
section
/-! DEFINITION. One step of the machine: one host access, taken whole (spec 20_memory.md R36, R37). -/

namespace Sys2Proof.Machine

/-- One step takes the oldest access the host has issued; the step for a write to CMD is the whole command (R36).
With none issued the core is idle and "holds all its state" (60_exceptions.md R185). -/
def step (s : State) : Host.Outcome State Fault Refusal :=
  match s.pending with
  | [] => .next s
  | a :: rest => access a { s with pending := rest }

/-- The core fetches nothing (R12): a command comes to run when the host writes its word to CMD. This puts that
write first among the accesses the host has issued, so that the very next step runs the command (log entry 5). -/
def State.withFetchWord (s : State) (nbits w : Nat) : State :=
  { s with pending := .write 32 Reg.cmd.offset (w % 2 ^ nbits) :: s.pending }

end Sys2Proof.Machine
end

