-- ==== Sys2Proof/Machine/Script.lean ====
section
/-! DEFINITION. Host scripts: the statements of spec 30_encoding.md R72, their expansion to bus transactions (R73),
and what running them on the machine does. -/

namespace Sys2Proof.Machine

/-- The statements and pseudo-instructions of R72. -/
inductive Stmt where
  /-- `wr NAME, v` -/
  | wr (r : Reg) (v : Nat)
  /-- `rd NAME` -/
  | rd (r : Reg)
  /-- `wrb ARRAY[i], b` -/
  | wrb (sp : Space) (i b : Nat)
  /-- `rdb ARRAY[i]` -/
  | rdb (sp : Space) (i : Nat)
  /-- `cmd MNEMONIC` -/
  | cmd (i : Instr)
  /-- `expect NAME = v` -/
  | expect (r : Reg) (v : Nat)
  /-- `expectb ARRAY[a..b) = hex` -/
  | expectb (sp : Space) (a b : Nat) (bytes : List Byte)
  /-- `ld ARRAY, hex` -/
  | ld (sp : Space) (bytes : List Byte)
  /-- `key hex` -/
  | key (bytes : List Byte)
  /-- `in hex` -/
  | input (bytes : List Byte)
  /-- `frm hex` -/
  | frm (bytes : List Byte)
  /-- `opts hex` -/
  | opts (bytes : List Byte)
  /-- `fctrl adr, req, ack, pend` -/
  | fctrl (adr req ack pend : Nat)
  /-- `mov FRM, OBUF` -/
  | movFrmObuf
  /-- `mov IBUF, OBUF` -/
  | movIbufObuf
  /-- `mov IBUF, FRM` -/
  | movIbufFrm
  deriving DecidableEq, Repr

/-- Whether a statement is one R72 has on a core of capacity `cap`: array indexes lie in the array, an `expectb`
string has b - a bytes, a loaded string fits its array. -/
def Stmt.wellFormed (cap : Nat) : Stmt → Bool
  | .wrb sp i _ => decide (i < sp.size cap)
  | .rdb sp i => decide (i < sp.size cap)
  | .expectb sp a b bytes => decide (a ≤ b) && decide (b ≤ sp.size cap) && decide (bytes.length = b - a)
  | .ld sp bytes => decide (bytes.length ≤ sp.size cap)
  | .key bytes => decide (bytes.length ≤ Space.key.size cap)
  | .opts bytes => decide (bytes.length ≤ Space.fopts.size cap)
  | .input bytes | .frm bytes => decide (bytes.length ≤ cap)
  | .wr _ _ | .rd _ | .cmd _ | .expect _ _ | .fctrl _ _ _ _ | .movFrmObuf | .movIbufObuf | .movIbufFrm => true

/-- One bus transaction, and the value a script asserts that it returns: a number, of which nothing is cut off, so that
an asserted number that no word holds fails. -/
abbrev Transaction := Access × Option Nat

/-- `W32 offset value` (R73). -/
def w32 (r : Reg) (v : Nat) : Transaction := (.write 32 r.offset v, none)
/-- `R32 offset` (R73). -/
def r32 (r : Reg) : Transaction := (.read 32 r.offset, none)
/-- `W8 offset byte` (R73). -/
def w8 (sp : Space) (i b : Nat) : Transaction := (.write 8 (sp.base + i) b, none)
/-- `R8 offset` (R73). -/
def r8 (sp : Space) (i : Nat) : Transaction := (.read 8 (sp.base + i), none)

/-- The 8-bit writes of a byte string to ARRAY[i] and up. -/
def loadFrom (sp : Space) : Nat → List Byte → List Transaction
  | _, [] => []
  | i, b :: bs => w8 sp i b.toNat :: loadFrom sp (i + 1) bs

/-- The 8-bit reads of ARRAY[i] and up, each asserted to return the next byte of the string. -/
def expectFrom (sp : Space) : Nat → List Byte → List Transaction
  | _, [] => []
  | i, b :: bs => (.read 8 (sp.base + i), some b.toNat) :: expectFrom sp (i + 1) bs

/-- The read-then-write pairs of a `mov`, byte k of the source to byte k of the destination. -/
def copyFrom (dst src : Space) : Nat → List Byte → List Transaction
  | _, [] => []
  | i, b :: bs => r8 src i :: w8 dst i b.toNat :: copyFrom dst src (i + 1) bs

/-- A `mov`: read the source's length register, copy that many bytes, write the destination's length register. The
values the host writes are those its reads return, so the expansion depends on the state. -/
def moveBytes (dst src : Space) (dstLen srcLen : Reg) (s : State) : List Transaction :=
  let n := (s.get srcLen).toNat
  r32 srcLen :: copyFrom dst src 0 (s.memRead src 0 n) ++ [w32 dstLen n]

/-- The transactions of a statement issued in state `s` (R72, R73). -/
def Stmt.transactions (s : State) : Stmt → List Transaction
  | .wr r v => [w32 r v]
  | .rd r => [r32 r]
  | .wrb sp i b => [w8 sp i b]
  | .rdb sp i => [r8 sp i]
  | .cmd i => [w32 .cmd (encode i).toNat]
  | .expect r v => [(.read 32 r.offset, some v)]
  | .expectb sp a _ bytes => expectFrom sp a bytes
  | .ld sp bytes => loadFrom sp 0 bytes
  | .key bytes => loadFrom .key 0 bytes ++ [w32 .keylen bytes.length]
  | .input bytes => loadFrom .ibuf 0 bytes ++ [w32 .ilen bytes.length]
  | .frm bytes => loadFrom .frm 0 bytes ++ [w32 .frmlen bytes.length]
  | .opts bytes => loadFrom .fopts 0 bytes ++ [w32 .foptslen bytes.length]
  | .fctrl adr req ack pend => [w32 .adr adr, w32 .adrackreq req, w32 .ack ack, w32 .fpending pend]
  | .movFrmObuf => moveBytes .frm .obuf .frmlen .olen s
  | .movIbufObuf => moveBytes .ibuf .obuf .ilen .olen s
  | .movIbufFrm => moveBytes .ibuf .frm .ilen .frmlen s

/-- How a script ends. -/
inductive ScriptEnd where
  /-- Every access was admitted and every assertion held. -/
  | done (s : State)
  /-- A read returned another value than the script asserts. -/
  | assertionFailed (s : State)
  /-- An access was not admitted. -/
  | refused (r : Refusal)
  /-- A statement is none of R72's. -/
  | illFormed
  deriving DecidableEq, Repr

/-- One access as one step of the machine. -/
def issue (a : Access) (s : State) : Result := step { s with pending := [a] }

/-- Issue transactions one at a time, in order. -/
def runTransactions : List Transaction → State → ScriptEnd
  | [], s => .done s
  | (a, want) :: ts, s =>
    match issue a s with
    | .next t => if want = none ∨ want = t.reply.map BitVec.toNat then runTransactions ts t else .assertionFailed t
    | .refused r => .refused r
    | .fault _ => .illFormed

/-- Run a host script, statement by statement (R72). -/
def runScript : List Stmt → State → ScriptEnd
  | [], s => .done s
  | st :: sts, s =>
    if st.wellFormed s.bufCap then
      match runTransactions (st.transactions s) s with
      | .done t => runScript sts t
      | e => e
    else .illFormed

end Sys2Proof.Machine
end

