-- ==== Sys2Proof/Safety.lean ====
section
/-! DEFINITION. What claims about the LW1 core are stated in: the legal capacities, the closed list of errors (spec
60_exceptions.md R164), the footprint of each command (30_encoding.md R71) and the invariant of a safe run. -/

namespace Sys2Proof.Machine

/-- 259 ≤ BUF_CAP ≤ 4096 (R5). -/
abbrev State.capLegal (s : State) : Prop := Config.bufCapMin ≤ s.bufCap ∧ s.bufCap ≤ Config.bufCapMax

/-- The (ERR, ERRINFO) pairs a command can end in other than success: the rows of R164, in its order. -/
def errorPairs : Instr → List (BitVec 4 × Byte)
  | .encFctrl | .decFctrl | .encMhdr | .decMhdr | .serFhdr => []
  | .parFhdr => [(11, 0x21), (1, 0x21), (2, 0x22)]
  | .serData => [(11, 0x38), (11, 0x3A), (10, 0x37)]
  | .parData => [(11, 0x31), (1, 0x31), (2, 0x22)]
  | .crypt => [(11, 0x51), (6, 0x55), (10, 0x51)]
  | .mic => [(11, 0x61), (9, 0x64), (10, 0x66), (6, 0x65)]
  | .micFrame => [(5, 0x6B), (4, 0x64), (11, 0x38), (11, 0x3A), (10, 0x66), (6, 0x65)]
  | .serPhy => [(5, 0x4B), (4, 0x44), (11, 0x38), (11, 0x3A), (10, 0x47)]
  | .parPhy => [(11, 0x41), (1, 0x41), (3, 0x43), (5, 0x4B), (4, 0x44), (1, 0x31), (2, 0x22)]

/-- The command an opcode byte names. -/
def commandOf (op : Byte) : Option Instr := opcodeMap.lookup op

/-- The status registers as some command, or reset, leaves them: success of a command, or no command yet; the
BadRequest of a bad command word, whatever its opcode byte; or an error that R164 lists for the command in LASTOP. -/
def statusLegal (lastop : Byte) (err : BitVec 4) (info : Byte) : Bool :=
  (err == 0 && info == 0 && (lastop == 0 || (commandOf lastop).isSome))
    || (err == 11 && info == 0x19)
    || match commandOf lastop with
       | some i => (errorPairs i).contains (err, info)
       | none => false

/-- The invariant of a safe run. -/
structure State.Inv (s : State) : Prop where
  /-- The memory is in its canonical form. -/
  memWf : Memory.wf s.mem
  /-- CAP is a legal BUF_CAP (R5, R14). -/
  cap : s.capLegal
  /-- Every stored byte lies in one of the arrays (R40, R44). -/
  mapped : ∀ c ∈ s.mem, Space.all.any (fun sp => sp.holds s.bufCap c.1) = true
  /-- OBUF's valid bytes lie in OBUF (R16, R173). -/
  olen : s.olen.toNat ≤ s.bufCap
  /-- ERR, ERRINFO and LASTOP belong together (R164, R174). -/
  status : statusLegal s.lastop s.err s.errinfo = true

/-! ### The wire formats, byte by byte, from the registers

Written from the layout tables R51 to R55 and from the block layouts R56 and R57, not from the codecs: what the
commands must produce and must have understood. -/

/-- The FCtrl byte the registers spell: ADR, ADRACKReq, ACK, FPending, FOptsLen from bit 7 down (R51). -/
def State.fctrlByte (s : State) : Byte := s.adr ++ s.adrackreq ++ s.ack ++ s.fpending ++ s.foptslen

/-- The MHDR byte the registers spell: MType in bits 7:5, RFU 0, Major in bits 1:0 (R52). -/
def State.mhdrByte (s : State) : Byte := s.mtype ++ (0 : BitVec 3) ++ s.major

/-- A device address on the wire, least significant byte first (R30). -/
def addrWire (a : BitVec 32) : List Byte :=
  [a.extractLsb' 0 8, a.extractLsb' 8 8, a.extractLsb' 16 8, a.extractLsb' 24 8]

/-- The FHDR the registers spell (R53). -/
def State.fhdrWire (s : State) : List Byte :=
  addrWire s.devaddr ++ [s.fctrlByte, s.fcnt.extractLsb' 0 8, s.fcnt.extractLsb' 8 8]
    ++ s.mem.readBytes 0x110 s.foptslen.toNat

/-- The DataPayload the registers spell (R54). -/
def State.dataWire (s : State) : List Byte :=
  s.fhdrWire ++ if s.fportv = 1 then s.fport :: s.mem.readBytes 0x1000 s.frmlen.toNat else []

/-- The number of bytes of that DataPayload. -/
def State.dataWireLength (s : State) : Nat :=
  7 + s.foptslen.toNat + if s.fportv = 1 then 1 + s.frmlen.toNat else 0

/-- A_i and B0: their first byte, the direction byte and their last byte given (R56, R57). -/
def blockWire (first dir : Byte) (addr : BitVec 32) (fcnt : BitVec 16) (last : Byte) : List Byte :=
  [first, 0, 0, 0, 0, dir] ++ addrWire addr
    ++ [fcnt.extractLsb' 0 8, fcnt.extractLsb' 8 8, 0x00, 0x00, 0x00, last]

/-- The FHDR registers of `t` hold the FHDR whose byte k is `b k` (R53). -/
def State.holdsFhdr (t : State) (b : Nat → Byte) : Prop :=
  t.devaddr = b 3 ++ b 2 ++ b 1 ++ b 0 ∧ t.fctrlByte = b 4 ∧ t.fcnt = b 6 ++ b 5 ∧
    ∀ k < t.foptslen.toNat, t.mem.read (0x110 + k) = b (7 + k)

/-- The Data registers of `t` hold the DataPayload of `len` bytes whose byte k is `b k`, with `n` option bytes (R54);
an absent port is FPORTV = 0, FPORT = 0 and FRMLEN = 0 (R101). -/
def State.holdsData (t : State) (b : Nat → Byte) (len n : Nat) : Prop :=
  t.holdsFhdr b ∧ t.foptslen.toNat = n ∧
    if 7 + n < len then
      t.fportv = 1 ∧ t.fport = b (7 + n) ∧ t.frmlen.toNat = len - (8 + n) ∧
        ∀ k < len - (8 + n), t.mem.read (0x1000 + k) = b (8 + n + k)
    else t.fportv = 0 ∧ t.fport = 0 ∧ t.frmlen = 0

/-- The bytes at every offset outside `[a, a + n)` are the same in both memories. -/
def sameOutside (a n : Nat) (m m' : Memory) : Prop := ∀ x, (x < a ∨ a + n ≤ x) → m'.read x = m.read x

/-! ### The S-box's formula (R114) -/

/-- Multiplication in GF(2^8) modulo 0x11B: the sum of `a × x^k` over the bits k of `b` (R112). -/
def gfMul (a b : Byte) : Byte :=
  (List.range 8).foldl (fun acc k => if b.getLsbD k then acc ^^^ (Nat.repeat xtime k a) else acc) 0

/-- The affine map of R114. -/
def affine (y : Byte) : Byte :=
  y ^^^ y.rotateLeft 1 ^^^ y.rotateLeft 2 ^^^ y.rotateLeft 3 ^^^ y.rotateLeft 4 ^^^ 0x63

/-! ### Footprints (R71) -/

/-- FCtrl regs, FHDR regs and Data regs of R71, the arrays aside. -/
def fctrlRegs : List Reg := [.adr, .adrackreq, .ack, .fpending, .foptslen]
/-- FHDR regs of R71, FOPTS aside. -/
def fhdrRegs : List Reg := .devaddr :: .fcnt :: fctrlRegs
/-- Data regs of R71, FOPTS and FRM aside. -/
def dataRegs : List Reg := .fportv :: .fport :: .frmlen :: fhdrRegs

/-- The registers a command reads: the "reads" column of R71. -/
def readRegs : Instr → List Reg
  | .encFctrl => fctrlRegs
  | .decFctrl => [.byte]
  | .encMhdr => [.mtype, .major]
  | .decMhdr => [.byte]
  | .serFhdr => fhdrRegs
  | .parFhdr => [.ilen]
  | .serData => dataRegs
  | .parData => [.ilen]
  | .crypt => [.keylen, .dir, .devaddr, .fcnt, .ilen]
  | .mic => [.keylen, .mtype, .devaddr, .fcnt, .ilen]
  | .micFrame => .keylen :: .mtype :: .major :: dataRegs
  | .serPhy => .mtype :: .major :: dataRegs
  | .parPhy => [.ilen]

/-- The arrays a command reads, in their valid bytes: the "reads" column of R71. -/
def readSpaces : Instr → List Space
  | .encFctrl | .decFctrl | .encMhdr | .decMhdr => []
  | .serFhdr => [.fopts]
  | .parFhdr | .parData | .parPhy => [.ibuf]
  | .serData => [.fopts, .frm]
  | .crypt | .mic => [.key, .ibuf]
  | .micFrame => [.key, .fopts, .frm]
  | .serPhy => [.fopts, .frm, .mic]

/-- The registers a command writes besides LASTOP, ERR and ERRINFO: the "writes on success" column of R71. -/
def writtenRegs : Instr → List Reg
  | .encFctrl => [.byte]
  | .decFctrl => fctrlRegs
  | .encMhdr => [.byte]
  | .decMhdr => [.mtype, .major]
  | .serFhdr | .serData | .crypt | .serPhy => [.olen]
  | .parFhdr => fhdrRegs
  | .parData => dataRegs
  | .mic | .micFrame => []
  | .parPhy => .mtype :: .major :: dataRegs

/-- The arrays a command writes: the "writes on success" column of R71. -/
def writtenSpaces : Instr → List Space
  | .encFctrl | .decFctrl | .encMhdr | .decMhdr => []
  | .serFhdr | .serData | .crypt | .serPhy => [.obuf]
  | .parFhdr => [.fopts]
  | .parData => [.fopts, .frm]
  | .mic | .micFrame => [.mic]
  | .parPhy => [.mic, .fopts, .frm]

/-- The number of valid bytes of an array: its length register, or all of KEY and MIC (R17). -/
def State.validLength (s : State) : Space → Nat
  | .key => Config.keyBytes
  | .fopts => s.foptslen.toNat
  | .mic => Config.micBytes
  | .frm => s.frmlen.toNat
  | .ibuf => s.ilen.toNat
  | .obuf => s.olen.toNat

/-- The valid bytes of an array (R17). -/
def State.valid (s : State) (sp : Space) : List Byte := s.memRead sp 0 (s.validLength sp)

/-- Two states agree on everything the rule of a command says it reads, and on the hardwired capacity. -/
def agreeOnReads (i : Instr) (s t : State) : Prop :=
  s.cap = t.cap ∧ (∀ r ∈ readRegs i, s.get r = t.get r) ∧ ∀ sp ∈ readSpaces i, s.valid sp = t.valid sp

end Sys2Proof.Machine
end

