-- ==== Sys2Proof/Certificates/Slice0/Obligations.lean ====
section
/-! DEFINITION. The statements about the LW1 core for the provers. -/

open Sys2Proof Sys2Proof.Machine

/-! ### The command word -/

/-- R71's thirteen words, and three words that name no command (R70). -/
def Obligations.OpcodeTableWordsDecode : Prop :=
  decode 0x00000010 = .ok .encFctrl ∧ decode 0x00000011 = .ok .decFctrl ∧
  decode 0x00000012 = .ok .encMhdr ∧ decode 0x00000013 = .ok .decMhdr ∧
  decode 0x00000020 = .ok .serFhdr ∧ decode 0x00000021 = .ok .parFhdr ∧
  decode 0x00000030 = .ok .serData ∧ decode 0x00000031 = .ok .parData ∧
  decode 0x00000040 = .ok .crypt ∧
  decode 0x00000050 = .ok .mic ∧ decode 0x00000051 = .ok .micFrame ∧
  decode 0x00000060 = .ok .serPhy ∧ decode 0x00000061 = .ok .parPhy ∧
  decode 0x00000000 = .error .unknownOpcode ∧ decode 0x00000099 = .error .unknownOpcode ∧
  decode 0x00000140 = .error .upperBitsSet

/-- A word decodes to a command exactly when it is that command's word (R70, R71). -/
def Obligations.DecodeAndEncodeAgree : Prop :=
  ∀ (w : Word) (i : Instr), decode w = .ok i ↔ w = encode i

/-- A write to CMD of a word that decodes runs that command, LASTOP written first (R36, R70). -/
def Obligations.StepRunsDecodedCommand : Prop :=
  ∀ (s : State) (w : Word) (i : Instr) (rest : List Access),
    s.pending = .write 32 0 w.toNat :: rest → decode w = .ok i →
    step s = exec i { s with pending := rest, reply := none, lastop := w.extractLsb' 0 8 }

/-- R70: LASTOP takes bits 7:0; a word with bits 31:8 set or an unknown opcode ends in BadRequest(0x19) and changes
nothing else; any other word runs the command of R71. -/
def Obligations.CommandWordStartsCommand : Prop :=
  ∀ (s : State) (w : Word) (rest : List Access), s.pending = .write 32 0 w.toNat :: rest →
    (w.extractLsb' 8 24 ≠ 0 ∨
        w.extractLsb' 0 8 ∉ ([0x10, 0x11, 0x12, 0x13, 0x20, 0x21, 0x30, 0x31, 0x40, 0x50, 0x51, 0x60, 0x61] : List Byte) →
      step s = .next { s with pending := rest, reply := none, lastop := w.extractLsb' 0 8, err := 11, errinfo := 0x19 }) ∧
    ∀ p ∈ ([(0x10, .encFctrl), (0x11, .decFctrl), (0x12, .encMhdr), (0x13, .decMhdr), (0x20, .serFhdr), (0x21, .parFhdr),
        (0x30, .serData), (0x31, .parData), (0x40, .crypt), (0x50, .mic), (0x51, .micFrame), (0x60, .serPhy),
        (0x61, .parPhy)] : List (Byte × Instr)),
      w.extractLsb' 8 24 = 0 → w.extractLsb' 0 8 = p.1 →
      step s = exec p.2 { s with pending := rest, reply := none, lastop := w.extractLsb' 0 8 }

/-! ### Host accesses -/

/-- With no access issued the core "holds all its state" (R185). -/
def Obligations.IdleCoreHoldsItsState : Prop :=
  ∀ s : State, s.pending = [] → step s = .next s

/-- A host read is admitted exactly at the mapped offsets, 32 bits wide on a register and 8 on an array byte, and has
no step anywhere else (R35, R40, R41, R43). -/
def Obligations.HostReadAdmittedExactlyWhereMapped : Prop :=
  ∀ (s : State) (bits o : Nat),
    let admitted := bits = 32 ∧ o < 0x058 ∧ o % 4 = 0 ∨
      bits = 8 ∧ (0x100 ≤ o ∧ o ≤ 0x11E ∨ 0x120 ≤ o ∧ o ≤ 0x123 ∨ 0x1000 ≤ o ∧ o < 0x1000 + s.cap.toNat ∨
        0x2000 ≤ o ∧ o < 0x2000 + s.cap.toNat ∨ 0x3000 ≤ o ∧ o < 0x3000 + s.cap.toNat)
    (admitted → ∃ t, access (.read bits o) s = .next t) ∧
      (¬ admitted → ∃ r, access (.read bits o) s = .refused r)

/-- A host write is admitted exactly on CMD and the field registers with a value of their width, and on the bytes of
KEY, FOPTS, MIC, FRM and IBUF; every other write has no step (R21, R35, R40, R43). -/
def Obligations.HostWriteAdmittedExactlyWhereWritable : Prop :=
  ∀ (s : State) (bits o v : Nat), s.cap.toNat ≤ 4096 →
    let admitted :=
      (bits = 32 ∧ ∃ p ∈ ([(0x000, 32), (0x010, 3), (0x014, 2), (0x018, 32), (0x01C, 1), (0x020, 1), (0x024, 1),
          (0x028, 1), (0x02C, 4), (0x030, 16), (0x034, 1), (0x038, 8), (0x03C, 16), (0x040, 8), (0x044, 1), (0x048, 8),
          (0x04C, 16)] : List (Nat × Nat)), o = p.1 ∧ v < 2 ^ p.2) ∨
      (bits = 8 ∧ v < 256 ∧ (0x100 ≤ o ∧ o ≤ 0x11E ∨ 0x120 ≤ o ∧ o ≤ 0x123 ∨
        0x1000 ≤ o ∧ o < 0x1000 + s.cap.toNat ∨ 0x2000 ≤ o ∧ o < 0x2000 + s.cap.toNat))
    (admitted → ∃ t, access (.write bits o v) s = .next t) ∧
      (¬ admitted → ∃ r, access (.write bits o v) s = .refused r)

/-- "No read anywhere has a side effect" (R35). -/
def Obligations.HostReadHasNoSideEffect : Prop :=
  ∀ (s t : State) (bits o : Nat), access (.read bits o) s = .next t → t = { s with reply := t.reply }

/-- What a host read returns: a register zero-extended (CMD as 0), or the array byte (R14, R33, R35, R37). -/
def Obligations.HostReadReturnsTheValue : Prop :=
  (∀ (s : State) (r : Reg), access (.read 32 r.offset) s = .next { s with reply := some (s.get r) }) ∧
  (∀ s : State, s.get .cmd = 0) ∧
  ∀ (s : State) (sp : Space) (k : Nat), s.cap.toNat ≤ 4096 → k < sp.size s.cap.toNat →
    access (.read 8 (sp.base + k)) s = .next { s with reply := some ((s.mem.read (sp.base + k)).setWidth 32) }

/-- A host write of a value of a field register's width stores it: the register reads as that value afterwards, and
every other register, the memory and the accesses still to come are unchanged (R35, R37). -/
def Obligations.FieldWriteStoresItsValueOnly : Prop :=
  ∀ (s : State) (r : Reg) (v : Nat), r.hostWritable = true → r ≠ .cmd → v < 2 ^ r.width →
    ∃ t, access (.write 32 r.offset v) s = .next t ∧ (t.get r).toNat = v ∧ (∀ r', r' ≠ r → t.get r' = s.get r') ∧
      t.mem = s.mem ∧ t.pending = s.pending ∧ t.reply = none

/-- A host write of a byte to KEY, FOPTS, MIC, FRM or IBUF stores it and changes no other byte and no register
(R35, R37). -/
def Obligations.ArrayWriteStoresItsByteOnly : Prop :=
  ∀ (s : State) (sp : Space) (k v : Nat), Memory.wf s.mem → s.cap.toNat ≤ 4096 → sp ≠ .obuf → k < sp.size s.cap.toNat →
    v < 256 →
    ∃ t, access (.write 8 (sp.base + k) v) s = .next t ∧ (t.mem.read (sp.base + k)).toNat = v ∧
      sameOutside (sp.base + k) 1 s.mem t.mem ∧ t = { s with mem := t.mem, reply := none }

/-- CAP is "Hardwired; never changes" (R14). -/
def Obligations.CapNeverChanges : Prop :=
  ∀ s t : State, step s = .next t → t.cap = s.cap

/-! ### Reset -/

/-- The reset state of a core of any capacity: every scalar 0 except CAP, every byte 0x00 (R20). That
State.reset takes the default capacity 512 is the model's choice (log entry 1). -/
def Obligations.ResetStateIsAllZeroButCap : Prop :=
  (∀ (c : BitVec 16) (r : Reg), r ≠ .cap → (State.resetWith c).get r = 0) ∧
  (∀ c : BitVec 16, (State.resetWith c).cap = c) ∧
  (∀ (c : BitVec 16) (a : Nat), (State.resetWith c).mem.read a = 0) ∧
  State.reset = State.resetWith 512

/-- Reset gives the reset state, the capacity as it was, whatever the state before (R190). That the accesses the host
has still to make stay is the model's choice (log entry 3). -/
def Obligations.ResetAccessTakesTheResetState : Prop :=
  ∀ (s : State) (rest : List Access), s.pending = .reset :: rest →
    ∃ t, step s = .next t ∧ t.cap = s.cap ∧ (∀ r, r ≠ .cap → t.get r = 0) ∧ (∀ a, t.mem.read a = 0) ∧ t.pending = rest

/-- What each command ends in from the reset state, by the order of checks of R164 and R167. That MIC ends there in
UnsupportedDirection and MIC_FRAME in NotImplemented, where R20 and one row of R192 say that they raise InvalidKey, is
the model's reading (log entry 9, DEDUCED); the capacity of State.reset is its choice (log entry 1). -/
def Obligations.CommandsFromReset : Prop :=
  ∀ p ∈ ([(.encFctrl, 0, 0x00), (.decFctrl, 0, 0x00), (.encMhdr, 0, 0x00), (.decMhdr, 0, 0x00), (.serFhdr, 0, 0x00),
      (.parFhdr, 1, 0x21), (.serData, 0, 0x00), (.parData, 1, 0x31), (.crypt, 6, 0x55), (.mic, 9, 0x64),
      (.micFrame, 5, 0x6B), (.serPhy, 5, 0x4B), (.parPhy, 1, 0x41)] : List (Instr × BitVec 4 × Byte)),
    ∃ t, exec p.1 State.reset = .next t ∧ t.err = p.2.1 ∧ t.errinfo = p.2.2

/-- The reset state meets the invariant. -/
def Obligations.ResetMeetsInvariant : Prop :=
  State.reset.Inv

/-- Every step keeps the invariant: the memory stays canonical and inside the arrays (R44), the capacity legal, OBUF's
valid bytes inside OBUF, and ERR, ERRINFO, LASTOP a combination R164 lists. -/
def Obligations.StepKeepsInvariant : Prop :=
  ∀ s t : State, s.Inv → step s = .next t → t.Inv

/-! ### How every command ends -/

/-- Every command ends, in success with ERR = 0 and ERRINFO = 0 or in an error that R164 lists for it; "A pair not in
this table cannot occur". -/
def Obligations.EveryCommandEndsAsListed : Prop :=
  ∀ (i : Instr) (s : State), ∃ t, exec i s = .next t ∧
    (t.err = 0 ∧ t.errinfo = 0 ∨ (t.err, t.errinfo) ∈ errorPairs i)

/-- A command that ends in an error changes nothing but ERR and ERRINFO, except PAR_PHY's UnsupportedVersion, which
also writes MTYPE, MAJOR and MIC[0..3] (R161). -/
def Obligations.FailedCommandChangesOnlyItsStatus : Prop :=
  ∀ (i : Instr) (s t : State), exec i s = .next t → t.err ≠ 0 →
    t = { s with err := t.err, errinfo := t.errinfo } ∨
    (i = .parPhy ∧ t.err = 3 ∧
      t = { s with err := 3, errinfo := 0x43, mtype := t.mtype, major := t.major, mem := t.mem } ∧
      sameOutside 0x120 4 s.mem t.mem)

/-- CipherInitError (7) and IntegrityComputationError (8) are never raised, by a command or a bad command word (R166). -/
def Obligations.CodesSevenAndEightNeverRaised : Prop :=
  (∀ (i : Instr) (s t : State), exec i s = .next t → t.err ≠ 7 ∧ t.err ≠ 8) ∧
  ∀ (w : Word) (s t : State), writeCommand w s = .next t → t.err ≠ 7 ∧ t.err ≠ 8

/-- No command reads ERR, ERRINFO or LASTOP, and every command overwrites ERR and ERRINFO: the outcome does not depend
on what they held, so errors do not latch (R13, R174). -/
def Obligations.EarlierStatusDoesNotMatter : Prop :=
  ∀ (i : Instr) (s t : State) (e : BitVec 4) (x l : Byte), exec i s = .next t →
    exec i { s with err := e, errinfo := x, lastop := l } = .next { t with lastop := l }

/-- "no command's result depends on anything but the registers that command's rule says it reads" (R10, R17, R71):
states that agree on those end alike, with the same values in what the command writes. -/
def Obligations.ResultDependsOnlyOnWhatIsRead : Prop :=
  ∀ (i : Instr) (s s' t t' : State), Memory.wf s.mem → Memory.wf s'.mem → s.capLegal → agreeOnReads i s s' →
    exec i s = .next t → exec i s' = .next t' →
    t.err = t'.err ∧ t.errinfo = t'.errinfo ∧
      (t.err = 0 → (∀ r ∈ writtenRegs i, t.get r = t'.get r) ∧ ∀ sp ∈ writtenSpaces i, t.valid sp = t'.valid sp)

/-- A command writes only what R71 names for it, besides ERR and ERRINFO: every other register and every byte of every
array it does not write are unchanged. -/
def Obligations.CommandWritesOnlyItsFootprint : Prop :=
  ∀ (i : Instr) (s t : State), s.capLegal → exec i s = .next t →
    (∀ r, r ∉ writtenRegs i → r ≠ .err → r ≠ .errinfo → t.get r = s.get r) ∧
    (∀ a, (∀ sp ∈ writtenSpaces i, sp.holds s.bufCap a = false) → t.mem.read a = s.mem.read a) ∧
    t.pending = s.pending ∧ t.reply = s.reply

/-! ### The bit-field codec -/

/-- ENC_FCTRL, command word 0x00000010: BYTE is the FCtrl byte of R51; nothing else but ERR and ERRINFO changes
(R80). -/
def Obligations.EncFctrlPacksTheRegisters : Prop :=
  decode 0x00000010 = .ok .encFctrl ∧ ∀ s : State, exec .encFctrl s =
    .next { s with byte := s.adr ++ s.adrackreq ++ s.ack ++ s.fpending ++ s.foptslen, err := 0, errinfo := 0 }

/-- DEC_FCTRL, command word 0x00000011: the five registers take BYTE's bits 7, 6, 5, 4 and 3:0; nothing else but ERR
and ERRINFO changes (R81). -/
def Obligations.DecFctrlUnpacksTheByte : Prop :=
  decode 0x00000011 = .ok .decFctrl ∧ ∀ s : State, ∃ t, exec .decFctrl s = .next t ∧
    t.adr ++ t.adrackreq ++ t.ack ++ t.fpending ++ t.foptslen = s.byte ∧
    t = { s with adr := t.adr, adrackreq := t.adrackreq, ack := t.ack, fpending := t.fpending,
                 foptslen := t.foptslen, err := 0, errinfo := 0 }

/-- ENC_MHDR, command word 0x00000012: MTYPE in bits 7:5, zeros in 4:2, MAJOR in 1:0, whatever they hold (R82). -/
def Obligations.EncMhdrPacksTheRegisters : Prop :=
  decode 0x00000012 = .ok .encMhdr ∧ ∀ s : State, exec .encMhdr s = .next { s with byte := s.mtype ++ (0 : BitVec 3) ++ s.major, err := 0, errinfo := 0 }

/-- DEC_MHDR, command word 0x00000013: MTYPE takes bits 7:5 and MAJOR bits 1:0, whatever bits 4:2 hold (R83). -/
def Obligations.DecMhdrUnpacksTheByte : Prop :=
  decode 0x00000013 = .ok .decMhdr ∧ ∀ s : State, ∃ t, exec .decMhdr s = .next t ∧ (∃ rfu : BitVec 3, s.byte = t.mtype ++ rfu ++ t.major) ∧
    t = { s with mtype := t.mtype, major := t.major, err := 0, errinfo := 0 }

/-- DEC_FCTRL then ENC_FCTRL gives every byte back, ENC_FCTRL then DEC_FCTRL gives the registers back (R84). -/
def Obligations.FctrlRoundTripsBitForBit : Prop :=
  (∀ s t u : State, exec .decFctrl s = .next t → exec .encFctrl t = .next u → u.byte = s.byte) ∧
  ∀ s t u : State, exec .encFctrl s = .next t → exec .decFctrl t = .next u → u.viewFctrl = s.viewFctrl

/-- ENC_MHDR then DEC_MHDR gives the registers back; DEC_MHDR then ENC_MHDR gives the byte with bits 4:2 cleared (R85). -/
def Obligations.MhdrRoundTripsButForRfuBits : Prop :=
  (∀ s t u : State, exec .encMhdr s = .next t → exec .decMhdr t = .next u → u.viewMhdr = s.viewMhdr) ∧
  ∀ s t u : State, exec .decMhdr s = .next t → exec .encMhdr t = .next u → u.byte = s.byte &&& 0xE3

/-! ### The frame header codec -/

/-- SER_FHDR, command word 0x00000020, always succeeds: OBUF's first 7 + FOPTSLEN bytes are the FHDR of R53, OLEN is their number, nothing else
changes (R90). -/
def Obligations.SerFhdrStoresTheHeader : Prop :=
  decode 0x00000020 = .ok .serFhdr ∧ ∀ s : State, Memory.wf s.mem → ∃ t, exec .serFhdr s = .next t ∧
    t.mem.readBytes 0x3000 (7 + s.foptslen.toNat) = s.fhdrWire ∧ t.olen.toNat = 7 + s.foptslen.toNat ∧
    t = { s with mem := t.mem, olen := t.olen, err := 0, errinfo := 0 } ∧
    sameOutside 0x3000 (7 + s.foptslen.toNat) s.mem t.mem

/-- PAR_FHDR succeeds when ILEN is at most BUF_CAP, at least 7 and leaves room for the declared options: the FHDR
registers hold the header at the front of IBUF, nothing else changes (R91). -/
def Obligations.ParFhdrReadsTheHeader : Prop :=
  ∀ s : State, Memory.wf s.mem → s.ilen.toNat ≤ s.cap.toNat → 7 ≤ s.ilen.toNat →
    (s.mem.read 0x2004).toNat % 16 ≤ s.ilen.toNat - 7 →
    ∃ t, exec .parFhdr s = .next t ∧ t.holdsFhdr (fun k => s.mem.read (0x2000 + k)) ∧
      t.foptslen.toNat = (s.mem.read 0x2004).toNat % 16 ∧
      t = { s with devaddr := t.devaddr, adr := t.adr, adrackreq := t.adrackreq, ack := t.ack, fpending := t.fpending,
                   foptslen := t.foptslen, fcnt := t.fcnt, mem := t.mem, err := 0, errinfo := 0 } ∧
      sameOutside 0x110 ((s.mem.read 0x2004).toNat % 16) s.mem t.mem

/-- PAR_FHDR's errors, in R164's order. -/
def Obligations.ParFhdrErrorsInOrder : Prop :=
  ∀ s : State,
    (s.cap.toNat < s.ilen.toNat → exec .parFhdr s = .next { s with err := 11, errinfo := 0x21 }) ∧
    (s.ilen.toNat ≤ s.cap.toNat → s.ilen.toNat < 7 → exec .parFhdr s = .next { s with err := 1, errinfo := 0x21 }) ∧
    (s.ilen.toNat ≤ s.cap.toNat → 7 ≤ s.ilen.toNat → s.ilen.toNat - 7 < (s.mem.read 0x2004).toNat % 16 →
      exec .parFhdr s = .next { s with err := 2, errinfo := 0x22 })

/-! ### The MAC payload codec -/

/-- SER_DATA succeeds when FRMLEN is at most BUF_CAP, a payload has a port, and the output fits: OBUF's first bytes are
the DataPayload of R54, OLEN is their number, nothing else changes (R100). -/
def Obligations.SerDataStoresThePayload : Prop :=
  ∀ s : State, Memory.wf s.mem → s.frmlen.toNat ≤ s.cap.toNat → (s.fportv = 0 → s.frmlen = 0) →
    s.dataWireLength ≤ s.cap.toNat →
    ∃ t, exec .serData s = .next t ∧ t.mem.readBytes 0x3000 s.dataWireLength = s.dataWire ∧
      t.olen.toNat = s.dataWireLength ∧ t = { s with mem := t.mem, olen := t.olen, err := 0, errinfo := 0 } ∧
      sameOutside 0x3000 s.dataWireLength s.mem t.mem

/-- SER_DATA's errors, in R164's order. -/
def Obligations.SerDataErrorsInOrder : Prop :=
  ∀ s : State,
    (s.cap.toNat < s.frmlen.toNat → exec .serData s = .next { s with err := 11, errinfo := 0x38 }) ∧
    (s.frmlen.toNat ≤ s.cap.toNat → s.fportv = 0 → 0 < s.frmlen.toNat →
      exec .serData s = .next { s with err := 11, errinfo := 0x3A }) ∧
    (s.frmlen.toNat ≤ s.cap.toNat → (s.fportv = 0 → s.frmlen = 0) → s.cap.toNat < s.dataWireLength →
      exec .serData s = .next { s with err := 10, errinfo := 0x37 })

/-- PAR_DATA succeeds when ILEN is at most BUF_CAP, at least 7 and leaves room for the declared options: the Data
registers hold IBUF[0..ILEN), nothing else changes (R101). -/
def Obligations.ParDataReadsThePayload : Prop :=
  ∀ s : State, Memory.wf s.mem → s.ilen.toNat ≤ s.cap.toNat → 7 ≤ s.ilen.toNat →
    (s.mem.read 0x2004).toNat % 16 ≤ s.ilen.toNat - 7 →
    ∃ t, exec .parData s = .next t ∧
      t.holdsData (fun k => s.mem.read (0x2000 + k)) s.ilen.toNat ((s.mem.read 0x2004).toNat % 16) ∧
      t = { s with devaddr := t.devaddr, adr := t.adr, adrackreq := t.adrackreq, ack := t.ack, fpending := t.fpending,
                   foptslen := t.foptslen, fcnt := t.fcnt, fportv := t.fportv, fport := t.fport, frmlen := t.frmlen,
                   mem := t.mem, err := 0, errinfo := 0 } ∧
      ∀ a, (a < 0x110 ∨ 0x110 + (s.mem.read 0x2004).toNat % 16 ≤ a) →
        (a < 0x1000 ∨ 0x1000 + (s.ilen.toNat - (8 + (s.mem.read 0x2004).toNat % 16)) ≤ a) →
        t.mem.read a = s.mem.read a

/-- PAR_DATA's errors, in R164's order. -/
def Obligations.ParDataErrorsInOrder : Prop :=
  ∀ s : State,
    (s.cap.toNat < s.ilen.toNat → exec .parData s = .next { s with err := 11, errinfo := 0x31 }) ∧
    (s.ilen.toNat ≤ s.cap.toNat → s.ilen.toNat < 7 → exec .parData s = .next { s with err := 1, errinfo := 0x31 }) ∧
    (s.ilen.toNat ≤ s.cap.toNat → 7 ≤ s.ilen.toNat → s.ilen.toNat - 7 < (s.mem.read 0x2004).toNat % 16 →
      exec .parData s = .next { s with err := 2, errinfo := 0x22 })

/-! ### The payload cipher -/

/-- CRYPT succeeds when ILEN is at most BUF_CAP and 4080 and KEYLEN is 16: OBUF[j] is IBUF[j] xor byte j mod 16 of
E(KEY, A_(j div 16 + 1)), OLEN is ILEN, nothing else changes (R126, R127). -/
def Obligations.CryptXorsTheKeystream : Prop :=
  ∀ s : State, Memory.wf s.mem → s.ilen.toNat ≤ s.cap.toNat → s.keylen = 16 → s.ilen.toNat ≤ 4080 →
    ∃ t, exec .crypt s = .next t ∧ t.olen = s.ilen ∧
      (∀ j < s.ilen.toNat, t.mem.read (0x3000 + j) = s.mem.read (0x2000 + j) ^^^
        byteAt (cipherE (Block.ofBytes (s.mem.readBytes 0x100 16)) (Block.ofBytes
          (blockWire 0x01 (if s.dir = 1 then 0x01 else 0x00) s.devaddr s.fcnt (BitVec.ofNat 8 (j / 16 + 1))))).toBytes
          (j % 16)) ∧
      t = { s with mem := t.mem, olen := t.olen, err := 0, errinfo := 0 } ∧
      sameOutside 0x3000 s.ilen.toNat s.mem t.mem

/-- CRYPT's errors, in R164's order. -/
def Obligations.CryptErrorsInOrder : Prop :=
  ∀ s : State,
    (s.cap.toNat < s.ilen.toNat → exec .crypt s = .next { s with err := 11, errinfo := 0x51 }) ∧
    (s.ilen.toNat ≤ s.cap.toNat → s.keylen ≠ 16 → exec .crypt s = .next { s with err := 6, errinfo := 0x55 }) ∧
    (s.ilen.toNat ≤ s.cap.toNat → s.keylen = 16 → 4080 < s.ilen.toNat →
      exec .crypt s = .next { s with err := 10, errinfo := 0x51 })

/-- "crypt(K, crypt(K, data, down, addr, fcnt), down, addr, fcnt) = data" (R128); here for every length, so in
particular for every K, data, down, addr, fcnt in the domain. -/
def Obligations.CryptIsAnInvolution : Prop :=
  ∀ (key data : List Byte) (down : BitVec 1) (addr : BitVec 32) (fcnt : BitVec 16),
    cryptBytes key (cryptBytes key data down addr fcnt) down addr fcnt = data

/-- On the machine: CRYPT, the host's `mov IBUF, OBUF`, and CRYPT again give the input string back in OBUF (R72, R127,
R128). -/
def Obligations.CryptTwiceRestoresTheInput : Prop :=
  ∀ s : State, s.Inv → s.ilen.toNat ≤ s.bufCap → s.keylen = 16 → s.ilen.toNat ≤ 4080 →
    ∃ t, runScript [.cmd .crypt, .movIbufObuf, .cmd .crypt] s = .done t ∧ t.valid .obuf = s.input

/-- The keystream does not depend on the data, and a shorter one is the first part of a longer one (R129). -/
def Obligations.KeystreamDependsOnNoData : Prop :=
  ∀ (key d d' : List Byte) (down : BitVec 1) (addr : BitVec 32) (fcnt : BitVec 16),
    (d.length = d'.length →
      xorBytes (cryptBytes key d down addr fcnt) (cryptBytes key d' down addr fcnt) = xorBytes d d') ∧
    ∀ n, (cryptBytes key d down addr fcnt).take n = cryptBytes key (d.take n) down addr fcnt

/-! ### The block cipher and CMAC -/

/-- The two known answers of R119 and the ten round keys of its key. -/
def Obligations.BlockCipherKnownAnswers : Prop :=
  (cipherE (Block.ofBytes (le 16 (0x2B7E151628AED2A6ABF7158809CF4F3C : BitVec 128)).reverse)
      (Block.ofBytes (le 16 (0x3243F6A8885A308D313198A2E0370734 : BitVec 128)).reverse)
    = Block.ofBytes (le 16 (0x3925841D02DC09FBDC118597196A0B32 : BitVec 128)).reverse) ∧
  (cipherE (Block.ofBytes (le 16 (0x000102030405060708090A0B0C0D0E0F : BitVec 128)).reverse)
      (Block.ofBytes (le 16 (0x00112233445566778899AABBCCDDEEFF : BitVec 128)).reverse)
    = Block.ofBytes (le 16 (0x69C4E0D86A7B0430D8CDB78070B4C55A : BitVec 128)).reverse) ∧
  roundKeys (Block.ofBytes (le 16 (0x2B7E151628AED2A6ABF7158809CF4F3C : BitVec 128)).reverse) =
    [ Block.ofBytes (le 16 (0xA0FAFE1788542CB123A339392A6C7605 : BitVec 128)).reverse,
      Block.ofBytes (le 16 (0xF2C295F27A96B9435935807A7359F67F : BitVec 128)).reverse,
      Block.ofBytes (le 16 (0x3D80477D4716FE3E1E237E446D7A883B : BitVec 128)).reverse,
      Block.ofBytes (le 16 (0xEF44A541A8525B7FB671253BDB0BAD00 : BitVec 128)).reverse,
      Block.ofBytes (le 16 (0xD4D1C6F87C839D87CAF2B8BC11F915BC : BitVec 128)).reverse,
      Block.ofBytes (le 16 (0x6D88A37A110B3EFDDBF98641CA0093FD : BitVec 128)).reverse,
      Block.ofBytes (le 16 (0x4E54F70E5F5FC9F384A64FB24EA6DC4F : BitVec 128)).reverse,
      Block.ofBytes (le 16 (0xEAD27321B58DBAD2312BF5607F8D292F : BitVec 128)).reverse,
      Block.ofBytes (le 16 (0xAC7766F319FADC2128D12941575C006E : BitVec 128)).reverse,
      Block.ofBytes (le 16 (0xD014F9A8C9EE2589E13F0CC8B6630CA6 : BitVec 128)).reverse ]

/-- Every entry of the S-box table is the affine map of R114 applied to the multiplicative inverse, with 0 mapped
to 0. -/
def Obligations.SboxIsTheAffineInverse : Prop :=
  ∀ v : Byte, ∃ y : Byte, (gfMul v y = 1 ∨ (v = 0 ∧ y = 0)) ∧ sbox v = affine y

/-- "for a fixed K it is a bijection on 16-byte blocks" (R118). -/
def Obligations.BlockCipherIsABijection : Prop :=
  ∀ k : Block, Function.Bijective (cipherE k)

/-- R136's subkeys and R138's tags of the empty and the 16-byte message, key 2B7E…4F3C. -/
def Obligations.CmacKnownAnswers : Prop :=
  let k := Block.ofBytes (le 16 (0x2B7E151628AED2A6ABF7158809CF4F3C : BitVec 128)).reverse
  let m := (le 16 (0x6BC1BEE22E409F96E93D7E117393172A : BitVec 128)).reverse
  subkeys k = (Block.ofBytes (le 16 (0xFBEED618357133667C85E08F7236A8DE : BitVec 128)).reverse,
               Block.ofBytes (le 16 (0xF7DDAC306AE266CCF90BC11EE46D513B : BitVec 128)).reverse) ∧
  cmac k [] = Block.ofBytes (le 16 (0xBB1D6929E95937287FA37D129B756746 : BitVec 128)).reverse ∧
  cmac k m = Block.ofBytes (le 16 (0x070A16B46B4D4144F79BDD9DD04A287C : BitVec 128)).reverse

/-! ### The integrity engine -/

/-- MIC succeeds for a data type, ILEN at most BUF_CAP and 255 and KEYLEN 16: MIC[0..3] are the first bytes of the CMAC
of B0 followed by IBUF[0..ILEN), the direction from MTYPE; nothing else changes (R140, R141). -/
def Obligations.MicTagsTheInput : Prop :=
  ∀ s : State, Memory.wf s.mem → s.ilen.toNat ≤ s.cap.toNat → 2 ≤ s.mtype.toNat → s.mtype.toNat ≤ 5 →
    s.ilen.toNat ≤ 255 → s.keylen = 16 →
    ∃ t, exec .mic s = .next t ∧
      t.mem.readBytes 0x120 4 = (cmac (Block.ofBytes (s.mem.readBytes 0x100 16))
        (blockWire 0x49 (if s.mtype = 3 ∨ s.mtype = 5 then 0x01 else 0x00) s.devaddr s.fcnt (BitVec.ofNat 8 s.ilen.toNat)
          ++ s.mem.readBytes 0x2000 s.ilen.toNat)).toBytes.take 4 ∧
      t = { s with mem := t.mem, err := 0, errinfo := 0 } ∧ sameOutside 0x120 4 s.mem t.mem

/-- MIC's errors, in R164's order. -/
def Obligations.MicErrorsInOrder : Prop :=
  ∀ s : State,
    (s.cap.toNat < s.ilen.toNat → exec .mic s = .next { s with err := 11, errinfo := 0x61 }) ∧
    (s.ilen.toNat ≤ s.cap.toNat → (s.mtype.toNat < 2 ∨ 5 < s.mtype.toNat) →
      exec .mic s = .next { s with err := 9, errinfo := 0x64 }) ∧
    (s.ilen.toNat ≤ s.cap.toNat → 2 ≤ s.mtype.toNat → s.mtype.toNat ≤ 5 → 255 < s.ilen.toNat →
      exec .mic s = .next { s with err := 10, errinfo := 0x66 }) ∧
    (s.ilen.toNat ≤ s.cap.toNat → 2 ≤ s.mtype.toNat → s.mtype.toNat ≤ 5 → s.ilen.toNat ≤ 255 → s.keylen ≠ 16 →
      exec .mic s = .next { s with err := 6, errinfo := 0x65 })

/-- MIC_FRAME succeeds for a data type, FRMLEN at most BUF_CAP, a port with every payload, an image of at most 255 bytes
and KEYLEN 16: MIC[0..3] are the first bytes of the CMAC of B0 followed by the frame's image; nothing else changes
(R140, R142). -/
def Obligations.MicFrameTagsTheFrame : Prop :=
  ∀ s : State, Memory.wf s.mem → 2 ≤ s.mtype.toNat → s.mtype.toNat ≤ 5 → s.frmlen.toNat ≤ s.cap.toNat →
    (s.fportv = 0 → s.frmlen = 0) → 1 + s.dataWireLength ≤ 255 → s.keylen = 16 →
    ∃ t, exec .micFrame s = .next t ∧
      t.mem.readBytes 0x120 4 = (cmac (Block.ofBytes (s.mem.readBytes 0x100 16))
        (blockWire 0x49 (if s.mtype = 3 ∨ s.mtype = 5 then 0x01 else 0x00) s.devaddr s.fcnt
          (BitVec.ofNat 8 (1 + s.dataWireLength)) ++ (s.mhdrByte :: s.dataWire))).toBytes.take 4 ∧
      t = { s with mem := t.mem, err := 0, errinfo := 0 } ∧ sameOutside 0x120 4 s.mem t.mem

/-- MIC_FRAME's errors, in R164's order. That FRMLEN above BUF_CAP is 0x38, as R164 writes it, and not R172's STRUCT of the
command's own unit, is the model's reading (log entry 11). -/
def Obligations.MicFrameErrorsInOrder : Prop :=
  ∀ s : State,
    (s.mtype.toNat < 2 → exec .micFrame s = .next { s with err := 5, errinfo := 0x6B }) ∧
    (5 < s.mtype.toNat → exec .micFrame s = .next { s with err := 4, errinfo := 0x64 }) ∧
    (2 ≤ s.mtype.toNat → s.mtype.toNat ≤ 5 →
      (s.cap.toNat < s.frmlen.toNat → exec .micFrame s = .next { s with err := 11, errinfo := 0x38 }) ∧
      (s.frmlen.toNat ≤ s.cap.toNat →
        (s.fportv = 0 → 0 < s.frmlen.toNat → exec .micFrame s = .next { s with err := 11, errinfo := 0x3A }) ∧
        ((s.fportv = 0 → s.frmlen = 0) →
          (255 < 1 + s.dataWireLength → exec .micFrame s = .next { s with err := 10, errinfo := 0x66 }) ∧
          (1 + s.dataWireLength ≤ 255 → s.keylen ≠ 16 →
            exec .micFrame s = .next { s with err := 6, errinfo := 0x65 }))))

/-- The two signatures of compute_mic are one computation: when MIC_FRAME succeeds, MIC run on the same frame's image
in IBUF, with the same type, address, counter and key, stores the same four bytes (R142, R157, D21, D22). -/
def Obligations.MicFrameIsMicOfTheImage : Prop :=
  ∀ s s' t t' : State, Memory.wf s.mem → Memory.wf s'.mem → exec .micFrame s = .next t → t.err = 0 →
    s'.mtype = s.mtype → s'.devaddr = s.devaddr → s'.fcnt = s.fcnt → s'.keylen = s.keylen →
    s'.mem.readBytes 0x100 16 = s.mem.readBytes 0x100 16 → s'.ilen.toNat ≤ s'.cap.toNat →
    s'.mem.readBytes 0x2000 s'.ilen.toNat = s.mhdrByte :: s.dataWire →
    exec .mic s' = .next t' → t'.err = 0 ∧ t'.mem.readBytes 0x120 4 = t.mem.readBytes 0x120 4

/-- "the message type enters only through its direction, so changing mtype between 2 and 4, or between 3 and 5, with
everything else including msg held fixed, does not change the MIC" (R143). -/
def Obligations.MicDependsOnTypeOnlyByDirection : Prop :=
  ∀ s t : State, exec .mic s = .next t →
    (s.mtype = 2 → exec .mic { s with mtype := 4 } = .next { t with mtype := 4 }) ∧
    (s.mtype = 3 → exec .mic { s with mtype := 5 } = .next { t with mtype := 5 })

/-! ### The physical frame codec -/

/-- SER_PHY succeeds for a data type, FRMLEN at most BUF_CAP, a port with every payload and an output that fits, whatever
MAJOR holds: OBUF's first bytes are MHDR, DataPayload and MIC (R55), OLEN is their number, nothing else changes
(R151). -/
def Obligations.SerPhyStoresTheFrame : Prop :=
  ∀ s : State, Memory.wf s.mem → 2 ≤ s.mtype.toNat → s.mtype.toNat ≤ 5 → s.frmlen.toNat ≤ s.cap.toNat →
    (s.fportv = 0 → s.frmlen = 0) → 5 + s.dataWireLength ≤ s.cap.toNat →
    ∃ t, exec .serPhy s = .next t ∧
      t.mem.readBytes 0x3000 (5 + s.dataWireLength) = s.mhdrByte :: (s.dataWire ++ s.mem.readBytes 0x120 4) ∧
      t.olen.toNat = 5 + s.dataWireLength ∧ t = { s with mem := t.mem, olen := t.olen, err := 0, errinfo := 0 } ∧
      sameOutside 0x3000 (5 + s.dataWireLength) s.mem t.mem

/-- SER_PHY's errors, in R164's order. That FRMLEN above BUF_CAP is 0x38, as R164 writes it, and not R172's STRUCT of the
command's own unit, is the model's reading (log entry 11). -/
def Obligations.SerPhyErrorsInOrder : Prop :=
  ∀ s : State,
    (s.mtype.toNat < 2 → exec .serPhy s = .next { s with err := 5, errinfo := 0x4B }) ∧
    (5 < s.mtype.toNat → exec .serPhy s = .next { s with err := 4, errinfo := 0x44 }) ∧
    (2 ≤ s.mtype.toNat → s.mtype.toNat ≤ 5 →
      (s.cap.toNat < s.frmlen.toNat → exec .serPhy s = .next { s with err := 11, errinfo := 0x38 }) ∧
      (s.frmlen.toNat ≤ s.cap.toNat →
        (s.fportv = 0 → 0 < s.frmlen.toNat → exec .serPhy s = .next { s with err := 11, errinfo := 0x3A }) ∧
        ((s.fportv = 0 → s.frmlen = 0) → s.cap.toNat < 5 + s.dataWireLength →
          exec .serPhy s = .next { s with err := 10, errinfo := 0x47 })))

/-- PAR_PHY succeeds on a frame of 12 to BUF_CAP bytes with Major 0, a data type and room for the declared options,
whatever its RFU bits: MTYPE, MAJOR, MIC and the Data registers hold the frame, nothing else changes (R153). -/
def Obligations.ParPhyReadsTheFrame : Prop :=
  ∀ s : State, Memory.wf s.mem → s.ilen.toNat ≤ s.cap.toNat → 12 ≤ s.ilen.toNat →
    (s.mem.read 0x2000).extractLsb' 0 2 = 0 → 2 ≤ ((s.mem.read 0x2000).extractLsb' 5 3).toNat →
    ((s.mem.read 0x2000).extractLsb' 5 3).toNat ≤ 5 →
    (s.mem.read 0x2005).toNat % 16 ≤ s.ilen.toNat - 12 →
    ∃ t, exec .parPhy s = .next t ∧ t.mtype = (s.mem.read 0x2000).extractLsb' 5 3 ∧ t.major = 0 ∧
      t.mem.readBytes 0x120 4 = s.mem.readBytes (0x2000 + (s.ilen.toNat - 4)) 4 ∧
      t.holdsData (fun k => s.mem.read (0x2001 + k)) (s.ilen.toNat - 5) ((s.mem.read 0x2005).toNat % 16) ∧
      t = { s with mtype := t.mtype, major := t.major, devaddr := t.devaddr, adr := t.adr, adrackreq := t.adrackreq,
                   ack := t.ack, fpending := t.fpending, foptslen := t.foptslen, fcnt := t.fcnt, fportv := t.fportv,
                   fport := t.fport, frmlen := t.frmlen, mem := t.mem, err := 0, errinfo := 0 } ∧
      ∀ a, (a < 0x110 ∨ 0x110 + (s.mem.read 0x2005).toNat % 16 ≤ a) → (a < 0x120 ∨ 0x124 ≤ a) →
        (a < 0x1000 ∨ 0x1000 + (s.ilen.toNat - (13 + (s.mem.read 0x2005).toNat % 16)) ≤ a) →
        t.mem.read a = s.mem.read a

/-- PAR_PHY's errors, in R164's order; UnsupportedVersion writes MTYPE, MAJOR and MIC and leaves every Data register. -/
def Obligations.ParPhyErrorsInOrder : Prop :=
  ∀ s : State,
    let h := s.mem.read 0x2000
    (s.cap.toNat < s.ilen.toNat → exec .parPhy s = .next { s with err := 11, errinfo := 0x41 }) ∧
    (s.ilen.toNat ≤ s.cap.toNat → s.ilen.toNat < 5 → exec .parPhy s = .next { s with err := 1, errinfo := 0x41 }) ∧
    (s.ilen.toNat ≤ s.cap.toNat → 5 ≤ s.ilen.toNat → h.extractLsb' 0 2 ≠ 0 → Memory.wf s.mem →
      ∃ t, exec .parPhy s = .next t ∧ t.mem.readBytes 0x120 4 = s.mem.readBytes (0x2000 + (s.ilen.toNat - 4)) 4 ∧
        t = { s with mtype := h.extractLsb' 5 3, major := h.extractLsb' 0 2, mem := t.mem, err := 3, errinfo := 0x43 } ∧
        sameOutside 0x120 4 s.mem t.mem) ∧
    (s.ilen.toNat ≤ s.cap.toNat → 5 ≤ s.ilen.toNat → h.extractLsb' 0 2 = 0 →
      ((h.extractLsb' 5 3).toNat < 2 → exec .parPhy s = .next { s with err := 5, errinfo := 0x4B }) ∧
      (5 < (h.extractLsb' 5 3).toNat → exec .parPhy s = .next { s with err := 4, errinfo := 0x44 }) ∧
      (2 ≤ (h.extractLsb' 5 3).toNat → (h.extractLsb' 5 3).toNat ≤ 5 →
        (s.ilen.toNat < 12 → exec .parPhy s = .next { s with err := 1, errinfo := 0x31 }) ∧
        (12 ≤ s.ilen.toNat → s.ilen.toNat - 12 < (s.mem.read 0x2005).toNat % 16 →
          exec .parPhy s = .next { s with err := 2, errinfo := 0x22 })))

/-! ### Round trips -/

/-- R94: parsing a serialized FHDR gives it back with its length, and serializing what was parsed gives back the bytes
that were used. -/
def Obligations.FhdrRoundTrips : Prop :=
  (∀ h : Fhdr, h.wf → parseFhdr (serializeFhdr h) = .ok (h, 7 + h.ctrl.optsLen.toNat)) ∧
  ∀ (b : List Byte) (h : Fhdr) (k : Nat), parseFhdr b = .ok (h, k) → h.wf ∧ serializeFhdr h = slice b 0 k

/-- R104: the same for DataPayload, whose parser uses every byte. -/
def Obligations.DataPayloadRoundTrips : Prop :=
  (∀ d : DataPayload, d.wf → parseData (serializeData d) = .ok d) ∧
  ∀ (b : List Byte) (d : DataPayload), parseData b = .ok d → d.wf ∧ serializeData d = b

/-- R156: a PHYPayload of major 0 and a data type round-trips; a parsed frame serializes to its bytes with bits 4:2 of
byte 0 cleared; with another major the parser gives the partial result. -/
def Obligations.PhyPayloadRoundTrips : Prop :=
  (∀ (p : PhyPayload) (d : DataPayload), p.wf → p.payload = .data d →
    ∃ b, serializePhy p = some b ∧
      (p.mhdr.major = 0 → parsePhy b = .ok p) ∧
      (p.mhdr.major ≠ 0 → parsePhy b = .unsupportedVersion p.mhdr p.mic)) ∧
  ∀ (b : List Byte) (p : PhyPayload), parsePhy b = .ok p →
    p.wf ∧ ∃ x rest, b = x :: rest ∧ serializePhy p = some ((x &&& 0xE3) :: rest)

/-- The parse commands do what the pure parsers say: on an error its code, on a value its fields in the registers (R91
with R93, R101 with R103, R153 with R155). -/
def Obligations.ParseCommandsFollowTheParsers : Prop :=
  ∀ s : State, s.ilen.toNat ≤ s.cap.toNat →
    (∀ e, parseFhdr s.input = .error e → ∃ t, exec .parFhdr s = .next t ∧ t.err = e.code) ∧
    (∀ h k, parseFhdr s.input = .ok (h, k) → exec .parFhdr s = .next ((s.putFhdr h).withStatus 0 0)) ∧
    (∀ e, parseData s.input = .error e → ∃ t, exec .parData s = .next t ∧ t.err = e.code) ∧
    (∀ d, parseData s.input = .ok d →
      exec .parData s = .next (((s.putFhdr d.hdr).putPayload d.port d.frm).withStatus 0 0)) ∧
    (∀ e, parsePhy s.input = .error e → ∃ t, exec .parPhy s = .next t ∧ t.err = e.code) ∧
    (∀ h m, parsePhy s.input = .unsupportedVersion h m →
      exec .parPhy s = .next (((s.putMhdr h).memWrite .mic 0 m).withStatus 3 0x43)) ∧
    (∀ p d, parsePhy s.input = .ok p → p.payload = .data d →
      exec .parPhy s =
        .next (((((s.putMhdr p.mhdr).memWrite .mic 0 p.mic).putFhdr d.hdr).putPayload d.port d.frm).withStatus 0 0))

/-- Serializing and parsing on the machine: when SER_DATA succeeds and the host moves OBUF to IBUF, PAR_DATA succeeds and
leaves the registers holding the same DataPayload (R72, R100, R101, R104). -/
def Obligations.SerDataThenParDataKeepsThePayload : Prop :=
  ∀ s : State, s.Inv → s.frmlen.toNat ≤ s.bufCap → (s.fportv = 0 → s.frmlen = 0) → s.dataWireLength ≤ s.bufCap →
    ∃ t, runScript [.cmd .serData, .movIbufObuf, .cmd .parData] s = .done t ∧ t.err = 0 ∧ t.viewData = s.viewData
end

