-- ==== Sys2Proof/Laws/Bits.lean ====
section
/-! SUPPORT. The small lemmas of byte strings and little-endian integers. -/

namespace Sys2Proof.Machine

@[simp] theorem le_length {w : Nat} (n : Nat) (v : BitVec w) : (le n v).length = n := by simp [le]

/-- The two wire integers, byte by byte (R30). -/
theorem le_two (v : BitVec 16) : le 2 v = [v.extractLsb' 0 8, v.extractLsb' 8 8] := rfl

theorem le_four (v : BitVec 32) :
    le 4 v = [v.extractLsb' 0 8, v.extractLsb' 8 8, v.extractLsb' 16 8, v.extractLsb' 24 8] := rfl

theorem fromLe_le_two (v : BitVec 16) : BitVec.ofNat 16 (fromLe (le 2 v)) = v := by
  apply BitVec.eq_of_toNat_eq
  have := v.isLt
  simp [le_two, fromLe, Nat.shiftRight_eq_div_pow]
  omega

theorem fromLe_le_four (v : BitVec 32) : BitVec.ofNat 32 (fromLe (le 4 v)) = v := by
  apply BitVec.eq_of_toNat_eq
  have := v.isLt
  simp [le_four, fromLe, Nat.shiftRight_eq_div_pow]
  omega

theorem le_fromLe_two (a b : Byte) : le 2 (BitVec.ofNat 16 (fromLe [a, b])) = [a, b] := by
  have ha := a.isLt
  have hb := b.isLt
  simp only [le_two, List.cons.injEq, and_true]
  constructor <;> apply BitVec.eq_of_toNat_eq <;> simp [fromLe, Nat.shiftRight_eq_div_pow] <;> omega

theorem le_fromLe_four (a b c d : Byte) : le 4 (BitVec.ofNat 32 (fromLe [a, b, c, d])) = [a, b, c, d] := by
  have ha := a.isLt
  have hb := b.isLt
  have hc := c.isLt
  have hd := d.isLt
  simp only [le_four, List.cons.injEq, and_true]
  refine ⟨?_, ?_, ?_, ?_⟩ <;> apply BitVec.eq_of_toNat_eq <;>
    simp [fromLe, Nat.shiftRight_eq_div_pow] <;> omega

@[simp] theorem slice_length (s : List Byte) (a b : Nat) : (slice s a b).length = min (b - a) (s.length - a) := by
  simp [slice]

theorem slice_self (s : List Byte) : slice s 0 s.length = s := by simp [slice]

/-- A slice of the second part of a concatenation. -/
theorem slice_append_right (s t : List Byte) (n : Nat) :
    slice (s ++ t) s.length (s.length + n) = t.take n := by simp [slice]

theorem byteAt_eq_getElem (s : List Byte) (i : Nat) (h : i < s.length) : byteAt s i = s[i] := by
  simp [byteAt, h]

@[simp] theorem zeros_length (n : Nat) : (zeros n).length = n := by simp [zeros]

@[simp] theorem xorBytes_length (a b : List Byte) : (xorBytes a b).length = min a.length b.length := by
  simp [xorBytes]

/-- Byte i of a byte-wise exclusive or (R7). -/
theorem byteAt_xorBytes (a b : List Byte) (i : Nat) (ha : i < a.length) (hb : i < b.length) :
    byteAt (xorBytes a b) i = byteAt a i ^^^ byteAt b i := by
  simp [byteAt, xorBytes, ha, hb]

/-- Exclusive or with one string twice gives the first string back, where the second is long enough (R128). -/
theorem xorBytes_involutive (a b : List Byte) (h : a.length ≤ b.length) : xorBytes (xorBytes a b) b = a := by
  induction a generalizing b with
  | nil => rfl
  | cons x xs ih =>
    cases b with
    | nil => simp at h
    | cons y ys =>
      simp only [List.length_cons, Nat.add_le_add_iff_right] at h
      have : x ^^^ y ^^^ y = x := by rw [BitVec.xor_assoc, BitVec.xor_self, BitVec.xor_zero]
      simpa [xorBytes, this] using ih ys h

/-- `ceil(a / 16) × 16` is at least a. -/
theorem le_ceilDiv_mul (a : Nat) : a ≤ ceilDiv a 16 * 16 := by simp [ceilDiv]; omega

end Sys2Proof.Machine
end

