-- ==== Sys2Proof/Laws/Memory.lean ====
section
/-! SUPPORT. The laws of the memory: read after write, byte strings, and that every operation keeps the canonical
form, in which equal contents are equal lists. -/

namespace Sys2Proof.Machine.Memory

/-- The offsets of a written memory are those it had and the one written. -/
theorem mem_write {c : Host.Cell} {m : Memory} {a : Nat} {v : Byte} (h : c ∈ m.write a v) : c.1 = a ∨ c ∈ m := by
  induction m with
  | nil =>
    simp only [write] at h
    split at h <;> simp_all
  | cons d m ih =>
    obtain ⟨b, w⟩ := d
    simp only [write] at h
    split at h
    · split at h
      · exact .inr h
      · rcases List.mem_cons.1 h with rfl | h
        · exact .inl rfl
        · exact .inr h
    · split at h
      · split at h
        · exact .inr (List.mem_cons_of_mem _ h)
        · rcases List.mem_cons.1 h with rfl | h
          · exact .inl rfl
          · exact .inr (List.mem_cons_of_mem _ h)
      · rcases List.mem_cons.1 h with rfl | h
        · exact .inr (List.mem_cons_self ..)
        · exact (ih h).imp_right (List.mem_cons_of_mem _)

theorem nil_wf : Memory.wf [] := ⟨List.Pairwise.nil, by simp⟩

/-- What it is for a memory with a first cell to be canonical. -/
theorem cons_wf {b : Nat} {w : Byte} {m : Memory} :
    Memory.wf ((b, w) :: m) ↔ (∀ c ∈ m, b < c.1) ∧ w ≠ 0 ∧ Memory.wf m := by
  simp only [Memory.wf, List.pairwise_cons, List.mem_cons, forall_eq_or_imp]
  tauto

/-- A write keeps the canonical form. -/
theorem write_wf {m : Memory} (h : Memory.wf m) (a : Nat) (v : Byte) : Memory.wf (m.write a v) := by
  induction m with
  | nil =>
    by_cases hv : v = unlisted
    · simpa only [write, if_pos hv] using nil_wf
    · simpa only [write, if_neg hv] using cons_wf.2 ⟨by simp, hv, nil_wf⟩
  | cons d m ih =>
    obtain ⟨b, w⟩ := d
    obtain ⟨hp, hw, hm⟩ := cons_wf.1 h
    simp only [write]
    by_cases hab : a < b
    · rw [if_pos hab]
      by_cases hv : v = unlisted
      · rwa [if_pos hv]
      · rw [if_neg hv]
        refine cons_wf.2 ⟨fun c hc => ?_, hv, h⟩
        rcases List.mem_cons.1 hc with rfl | hc
        · exact hab
        · exact Nat.lt_trans hab (hp c hc)
    · rw [if_neg hab]
      by_cases he : a = b
      · rw [if_pos he]
        by_cases hv : v = unlisted
        · rwa [if_pos hv]
        · rw [if_neg hv]
          exact cons_wf.2 ⟨fun c hc => he ▸ hp c hc, hv, hm⟩
      · rw [if_neg he]
        refine cons_wf.2 ⟨fun c hc => ?_, hw, ih hm⟩
        rcases mem_write hc with h | h
        · omega
        · exact hp c h

theorem writeBytes_wf {m : Memory} (h : Memory.wf m) (a : Nat) (bs : List Byte) : Memory.wf (m.writeBytes a bs) := by
  induction bs generalizing m a with
  | nil => exact h
  | cons b bs ih => exact ih (write_wf h a b) (a + 1)

/-- The offsets after a byte string is stored. -/
theorem mem_writeBytes {c : Host.Cell} {m : Memory} {a : Nat} {bs : List Byte} (h : c ∈ m.writeBytes a bs) :
    (a ≤ c.1 ∧ c.1 < a + bs.length) ∨ c ∈ m := by
  induction bs generalizing m a with
  | nil => exact .inr h
  | cons b bs ih =>
    rcases ih h with ⟨h1, h2⟩ | h
    · refine .inl ⟨by omega, ?_⟩
      simp only [List.length_cons]; omega
    · rcases mem_write h with h | h
      · refine .inl ⟨by omega, ?_⟩
        simp only [List.length_cons]; omega
      · exact .inr h

theorem read_eq_unlisted {m : Memory} {a : Nat} (h : ∀ c ∈ m, c.1 ≠ a) : m.read a = unlisted := by
  induction m with
  | nil => rfl
  | cons d m ih =>
    obtain ⟨b, w⟩ := d
    have hb := h (b, w) (List.mem_cons_self ..)
    simp only [read]
    rw [if_neg (fun e => hb e.symm)]
    exact ih fun c hc => h c (List.mem_cons_of_mem _ hc)

/-- A read after a write to the same offset gives the byte written. -/
theorem read_write_same {m : Memory} (h : Memory.wf m) (a : Nat) (v : Byte) : (m.write a v).read a = v := by
  induction m with
  | nil =>
    simp only [write]
    split <;> simp_all [read]
  | cons d m ih =>
    obtain ⟨b, w⟩ := d
    obtain ⟨hp, hz⟩ := h
    simp only [List.pairwise_cons, List.mem_cons, forall_eq_or_imp] at hp hz
    have above : ∀ c ∈ m, a ≤ b → c.1 ≠ a := fun c hc hab => by have := hp.1 c hc; omega
    simp only [write]
    split
    · rename_i hab
      split
      · rename_i hv
        have : b ≠ a := by omega
        simp only [read, if_neg this.symm, hv]
        exact read_eq_unlisted fun c hc => above c hc (by omega)
      · simp [read]
    · split
      · rename_i hab
        split
        · rename_i hv
          rw [hv]
          exact read_eq_unlisted fun c hc => above c hc (by omega)
        · simp [read]
      · rename_i h1 h2
        simp only [read, if_neg h2]
        exact ih ⟨hp.2, hz.2⟩

/-- A write leaves every other offset as it was. -/
theorem read_write_other {a b : Nat} (h : a ≠ b) (m : Memory) (v : Byte) : (m.write a v).read b = m.read b := by
  induction m with
  | nil =>
    simp only [write]
    split <;> simp [read, h.symm]
  | cons d m ih =>
    obtain ⟨c, w⟩ := d
    simp only [write]
    split
    · split
      · rfl
      · simp [read, h.symm]
    · split
      · rename_i hac
        subst hac
        split <;> simp [read, h.symm]
      · simp only [read, ih]

/-- A byte string store leaves every offset outside it as it was. -/
theorem read_writeBytes_outside {a b : Nat} (bs : List Byte) (h : b < a ∨ a + bs.length ≤ b) (m : Memory) :
    (m.writeBytes a bs).read b = m.read b := by
  induction bs generalizing m a with
  | nil => rfl
  | cons c bs ih =>
    simp only [List.length_cons] at h
    rw [writeBytes, ih (by omega), read_write_other (by omega)]

/-- A read after a byte string store gives the stored byte. -/
theorem read_writeBytes_inside {m : Memory} (h : Memory.wf m) {a k : Nat} {bs : List Byte} (hk : k < bs.length) :
    (m.writeBytes a bs).read (a + k) = bs[k] := by
  induction bs generalizing m a k with
  | nil => simp at hk
  | cons c bs ih =>
    rw [writeBytes]
    cases k with
    | zero =>
      rw [read_writeBytes_outside _ (by omega), Nat.add_zero, read_write_same h]
      rfl
    | succ k =>
      have := ih (write_wf h a c) (a := a + 1) (k := k) (by simpa using hk)
      rw [show a + (k + 1) = a + 1 + k by omega]
      simpa using this

@[simp] theorem readBytes_length (m : Memory) (a n : Nat) : (m.readBytes a n).length = n := by
  induction n generalizing a with
  | zero => rfl
  | succ n ih => simp [readBytes, ih]

theorem readBytes_getElem (m : Memory) (a n k : Nat) (h : k < (m.readBytes a n).length) :
    (m.readBytes a n)[k] = m.read (a + k) := by
  induction n generalizing a k with
  | zero => simp [readBytes] at h
  | succ n ih =>
    cases k with
    | zero => rfl
    | succ k =>
      simp only [readBytes, List.getElem_cons_succ]
      rw [ih (a + 1) k (by simpa [readBytes] using h)]
      congr 1; omega

/-- Two memories that agree byte for byte on a range read the same string there. -/
theorem readBytes_congr {m m' : Memory} {a n : Nat} (h : ∀ k < n, m.read (a + k) = m'.read (a + k)) :
    m.readBytes a n = m'.readBytes a n := by
  apply List.ext_getElem <;> simp only [readBytes_length]
  intro k h1 h2
  rw [readBytes_getElem, readBytes_getElem, h k h1]

/-- Reading back the byte string just stored. -/
theorem readBytes_writeBytes_same {m : Memory} (h : Memory.wf m) (a : Nat) (bs : List Byte) :
    (m.writeBytes a bs).readBytes a bs.length = bs := by
  apply List.ext_getElem <;> simp only [readBytes_length]
  intro k h1 h2
  rw [readBytes_getElem, read_writeBytes_inside h h1]

/-- A read of a range that a byte string store does not touch. -/
theorem readBytes_writeBytes_disjoint {a b n : Nat} (bs : List Byte) (h : b + n ≤ a ∨ a + bs.length ≤ b) (m : Memory) :
    (m.writeBytes a bs).readBytes b n = m.readBytes b n :=
  readBytes_congr fun k hk => read_writeBytes_outside bs (by omega) m

/-- A canonical memory's first cell is what a read at its offset gives. -/
theorem read_head (b : Nat) (w : Byte) (m : Memory) : read ((b, w) :: m) b = w := by simp [read]

/-- Equal contents are equal lists: the canonical form is unique. -/
theorem ext_of_wf {m m' : Memory} (h : Memory.wf m) (h' : Memory.wf m') (e : ∀ a, m.read a = m'.read a) : m = m' := by
  induction m generalizing m' with
  | nil =>
    cases m' with
    | nil => rfl
    | cons d m' =>
      have := e d.1
      rw [show read (d :: m') d.1 = d.2 from read_head ..] at this
      exact absurd this.symm (h'.2 d (List.mem_cons_self ..))
  | cons c m ih =>
    obtain ⟨b, w⟩ := c
    obtain ⟨hp, hz⟩ := h
    simp only [List.pairwise_cons, List.mem_cons, forall_eq_or_imp] at hp hz
    cases m' with
    | nil =>
      have := e b
      rw [read_head] at this
      exact absurd this hz.1
    | cons d m' =>
      obtain ⟨b', w'⟩ := d
      obtain ⟨hp', hz'⟩ := h'
      simp only [List.pairwise_cons, List.mem_cons, forall_eq_or_imp] at hp' hz'
      have low : ∀ {x y : Nat} {u : Byte} {l : Memory}, x < y → (∀ c ∈ l, y < c.1) → read ((y, u) :: l) x = unlisted :=
        fun {x y u l} hxy hl => read_eq_unlisted fun c hc => by
          rcases List.mem_cons.1 hc with rfl | hc
          · simp only [ne_eq]; omega
          · have := hl c hc; omega
      rcases Nat.lt_trichotomy b b' with hlt | heq | hlt
      · have := e b
        rw [read_head, low hlt (fun c hc => hp'.1 c hc)] at this
        exact absurd this hz.1
      · subst heq
        have hw : w = w' := by simpa [read_head] using e b
        subst hw
        congr 1
        refine ih ⟨hp.2, hz.2⟩ ⟨hp'.2, hz'.2⟩ fun a => ?_
        by_cases hab : a = b
        · subst hab
          rw [read_eq_unlisted fun c hc => by have := hp.1 c hc; omega,
            read_eq_unlisted fun c hc => by have := hp'.1 c hc; omega]
        · simpa [read, hab] using e a
      · have := e b'
        rw [read_head, low hlt (fun c hc => hp.1 c hc)] at this
        exact absurd this.symm hz'.1

end Sys2Proof.Machine.Memory
end

