-- ==== Sys2Proof/Laws/State.lean ====
section
/-! SUPPORT. One lemma per field per named update of State, each true by rfl, so that no proof unfolds an update. -/

namespace Sys2Proof.Machine

section withStatus
variable (s : State) (e : BitVec 4) (x : Byte)

@[simp] theorem State.withStatus_mtype : (s.withStatus e x).mtype = s.mtype := rfl
@[simp] theorem State.withStatus_major : (s.withStatus e x).major = s.major := rfl
@[simp] theorem State.withStatus_devaddr : (s.withStatus e x).devaddr = s.devaddr := rfl
@[simp] theorem State.withStatus_adr : (s.withStatus e x).adr = s.adr := rfl
@[simp] theorem State.withStatus_adrackreq : (s.withStatus e x).adrackreq = s.adrackreq := rfl
@[simp] theorem State.withStatus_ack : (s.withStatus e x).ack = s.ack := rfl
@[simp] theorem State.withStatus_fpending : (s.withStatus e x).fpending = s.fpending := rfl
@[simp] theorem State.withStatus_foptslen : (s.withStatus e x).foptslen = s.foptslen := rfl
@[simp] theorem State.withStatus_fcnt : (s.withStatus e x).fcnt = s.fcnt := rfl
@[simp] theorem State.withStatus_fportv : (s.withStatus e x).fportv = s.fportv := rfl
@[simp] theorem State.withStatus_fport : (s.withStatus e x).fport = s.fport := rfl
@[simp] theorem State.withStatus_frmlen : (s.withStatus e x).frmlen = s.frmlen := rfl
@[simp] theorem State.withStatus_byte : (s.withStatus e x).byte = s.byte := rfl
@[simp] theorem State.withStatus_dir : (s.withStatus e x).dir = s.dir := rfl
@[simp] theorem State.withStatus_keylen : (s.withStatus e x).keylen = s.keylen := rfl
@[simp] theorem State.withStatus_ilen : (s.withStatus e x).ilen = s.ilen := rfl
@[simp] theorem State.withStatus_err : (s.withStatus e x).err = e := rfl
@[simp] theorem State.withStatus_errinfo : (s.withStatus e x).errinfo = x := rfl
@[simp] theorem State.withStatus_lastop : (s.withStatus e x).lastop = s.lastop := rfl
@[simp] theorem State.withStatus_olen : (s.withStatus e x).olen = s.olen := rfl
@[simp] theorem State.withStatus_cap : (s.withStatus e x).cap = s.cap := rfl
@[simp] theorem State.withStatus_mem : (s.withStatus e x).mem = s.mem := rfl
@[simp] theorem State.withStatus_pending : (s.withStatus e x).pending = s.pending := rfl
@[simp] theorem State.withStatus_reply : (s.withStatus e x).reply = s.reply := rfl

end withStatus

section memWrite
variable (s : State) (sp : Space) (o : Nat) (v : List Byte)

@[simp] theorem State.memWrite_mtype : (s.memWrite sp o v).mtype = s.mtype := rfl
@[simp] theorem State.memWrite_major : (s.memWrite sp o v).major = s.major := rfl
@[simp] theorem State.memWrite_devaddr : (s.memWrite sp o v).devaddr = s.devaddr := rfl
@[simp] theorem State.memWrite_adr : (s.memWrite sp o v).adr = s.adr := rfl
@[simp] theorem State.memWrite_adrackreq : (s.memWrite sp o v).adrackreq = s.adrackreq := rfl
@[simp] theorem State.memWrite_ack : (s.memWrite sp o v).ack = s.ack := rfl
@[simp] theorem State.memWrite_fpending : (s.memWrite sp o v).fpending = s.fpending := rfl
@[simp] theorem State.memWrite_foptslen : (s.memWrite sp o v).foptslen = s.foptslen := rfl
@[simp] theorem State.memWrite_fcnt : (s.memWrite sp o v).fcnt = s.fcnt := rfl
@[simp] theorem State.memWrite_fportv : (s.memWrite sp o v).fportv = s.fportv := rfl
@[simp] theorem State.memWrite_fport : (s.memWrite sp o v).fport = s.fport := rfl
@[simp] theorem State.memWrite_frmlen : (s.memWrite sp o v).frmlen = s.frmlen := rfl
@[simp] theorem State.memWrite_byte : (s.memWrite sp o v).byte = s.byte := rfl
@[simp] theorem State.memWrite_dir : (s.memWrite sp o v).dir = s.dir := rfl
@[simp] theorem State.memWrite_keylen : (s.memWrite sp o v).keylen = s.keylen := rfl
@[simp] theorem State.memWrite_ilen : (s.memWrite sp o v).ilen = s.ilen := rfl
@[simp] theorem State.memWrite_err : (s.memWrite sp o v).err = s.err := rfl
@[simp] theorem State.memWrite_errinfo : (s.memWrite sp o v).errinfo = s.errinfo := rfl
@[simp] theorem State.memWrite_lastop : (s.memWrite sp o v).lastop = s.lastop := rfl
@[simp] theorem State.memWrite_olen : (s.memWrite sp o v).olen = s.olen := rfl
@[simp] theorem State.memWrite_cap : (s.memWrite sp o v).cap = s.cap := rfl
@[simp] theorem State.memWrite_mem : (s.memWrite sp o v).mem = s.mem.writeBytes (sp.base + o) v := rfl
@[simp] theorem State.memWrite_pending : (s.memWrite sp o v).pending = s.pending := rfl
@[simp] theorem State.memWrite_reply : (s.memWrite sp o v).reply = s.reply := rfl

end memWrite

section putOutput
variable (s : State) (v : List Byte)

@[simp] theorem State.putOutput_mtype : (s.putOutput v).mtype = s.mtype := rfl
@[simp] theorem State.putOutput_major : (s.putOutput v).major = s.major := rfl
@[simp] theorem State.putOutput_devaddr : (s.putOutput v).devaddr = s.devaddr := rfl
@[simp] theorem State.putOutput_adr : (s.putOutput v).adr = s.adr := rfl
@[simp] theorem State.putOutput_adrackreq : (s.putOutput v).adrackreq = s.adrackreq := rfl
@[simp] theorem State.putOutput_ack : (s.putOutput v).ack = s.ack := rfl
@[simp] theorem State.putOutput_fpending : (s.putOutput v).fpending = s.fpending := rfl
@[simp] theorem State.putOutput_foptslen : (s.putOutput v).foptslen = s.foptslen := rfl
@[simp] theorem State.putOutput_fcnt : (s.putOutput v).fcnt = s.fcnt := rfl
@[simp] theorem State.putOutput_fportv : (s.putOutput v).fportv = s.fportv := rfl
@[simp] theorem State.putOutput_fport : (s.putOutput v).fport = s.fport := rfl
@[simp] theorem State.putOutput_frmlen : (s.putOutput v).frmlen = s.frmlen := rfl
@[simp] theorem State.putOutput_byte : (s.putOutput v).byte = s.byte := rfl
@[simp] theorem State.putOutput_dir : (s.putOutput v).dir = s.dir := rfl
@[simp] theorem State.putOutput_keylen : (s.putOutput v).keylen = s.keylen := rfl
@[simp] theorem State.putOutput_ilen : (s.putOutput v).ilen = s.ilen := rfl
@[simp] theorem State.putOutput_err : (s.putOutput v).err = s.err := rfl
@[simp] theorem State.putOutput_errinfo : (s.putOutput v).errinfo = s.errinfo := rfl
@[simp] theorem State.putOutput_lastop : (s.putOutput v).lastop = s.lastop := rfl
@[simp] theorem State.putOutput_olen : (s.putOutput v).olen = BitVec.ofNat 16 v.length := rfl
@[simp] theorem State.putOutput_cap : (s.putOutput v).cap = s.cap := rfl
@[simp] theorem State.putOutput_mem : (s.putOutput v).mem = s.mem.writeBytes Space.obuf.base v := rfl
@[simp] theorem State.putOutput_pending : (s.putOutput v).pending = s.pending := rfl
@[simp] theorem State.putOutput_reply : (s.putOutput v).reply = s.reply := rfl

end putOutput

section putFctrl
variable (s : State) (c : Fctrl)

@[simp] theorem State.putFctrl_mtype : (s.putFctrl c).mtype = s.mtype := rfl
@[simp] theorem State.putFctrl_major : (s.putFctrl c).major = s.major := rfl
@[simp] theorem State.putFctrl_devaddr : (s.putFctrl c).devaddr = s.devaddr := rfl
@[simp] theorem State.putFctrl_adr : (s.putFctrl c).adr = c.adr := rfl
@[simp] theorem State.putFctrl_adrackreq : (s.putFctrl c).adrackreq = c.adrAckReq := rfl
@[simp] theorem State.putFctrl_ack : (s.putFctrl c).ack = c.ack := rfl
@[simp] theorem State.putFctrl_fpending : (s.putFctrl c).fpending = c.fPending := rfl
@[simp] theorem State.putFctrl_foptslen : (s.putFctrl c).foptslen = c.optsLen := rfl
@[simp] theorem State.putFctrl_fcnt : (s.putFctrl c).fcnt = s.fcnt := rfl
@[simp] theorem State.putFctrl_fportv : (s.putFctrl c).fportv = s.fportv := rfl
@[simp] theorem State.putFctrl_fport : (s.putFctrl c).fport = s.fport := rfl
@[simp] theorem State.putFctrl_frmlen : (s.putFctrl c).frmlen = s.frmlen := rfl
@[simp] theorem State.putFctrl_byte : (s.putFctrl c).byte = s.byte := rfl
@[simp] theorem State.putFctrl_dir : (s.putFctrl c).dir = s.dir := rfl
@[simp] theorem State.putFctrl_keylen : (s.putFctrl c).keylen = s.keylen := rfl
@[simp] theorem State.putFctrl_ilen : (s.putFctrl c).ilen = s.ilen := rfl
@[simp] theorem State.putFctrl_err : (s.putFctrl c).err = s.err := rfl
@[simp] theorem State.putFctrl_errinfo : (s.putFctrl c).errinfo = s.errinfo := rfl
@[simp] theorem State.putFctrl_lastop : (s.putFctrl c).lastop = s.lastop := rfl
@[simp] theorem State.putFctrl_olen : (s.putFctrl c).olen = s.olen := rfl
@[simp] theorem State.putFctrl_cap : (s.putFctrl c).cap = s.cap := rfl
@[simp] theorem State.putFctrl_mem : (s.putFctrl c).mem = s.mem := rfl
@[simp] theorem State.putFctrl_pending : (s.putFctrl c).pending = s.pending := rfl
@[simp] theorem State.putFctrl_reply : (s.putFctrl c).reply = s.reply := rfl

end putFctrl

section putMhdr
variable (s : State) (h : Mhdr)

@[simp] theorem State.putMhdr_mtype : (s.putMhdr h).mtype = h.mtype := rfl
@[simp] theorem State.putMhdr_major : (s.putMhdr h).major = h.major := rfl
@[simp] theorem State.putMhdr_devaddr : (s.putMhdr h).devaddr = s.devaddr := rfl
@[simp] theorem State.putMhdr_adr : (s.putMhdr h).adr = s.adr := rfl
@[simp] theorem State.putMhdr_adrackreq : (s.putMhdr h).adrackreq = s.adrackreq := rfl
@[simp] theorem State.putMhdr_ack : (s.putMhdr h).ack = s.ack := rfl
@[simp] theorem State.putMhdr_fpending : (s.putMhdr h).fpending = s.fpending := rfl
@[simp] theorem State.putMhdr_foptslen : (s.putMhdr h).foptslen = s.foptslen := rfl
@[simp] theorem State.putMhdr_fcnt : (s.putMhdr h).fcnt = s.fcnt := rfl
@[simp] theorem State.putMhdr_fportv : (s.putMhdr h).fportv = s.fportv := rfl
@[simp] theorem State.putMhdr_fport : (s.putMhdr h).fport = s.fport := rfl
@[simp] theorem State.putMhdr_frmlen : (s.putMhdr h).frmlen = s.frmlen := rfl
@[simp] theorem State.putMhdr_byte : (s.putMhdr h).byte = s.byte := rfl
@[simp] theorem State.putMhdr_dir : (s.putMhdr h).dir = s.dir := rfl
@[simp] theorem State.putMhdr_keylen : (s.putMhdr h).keylen = s.keylen := rfl
@[simp] theorem State.putMhdr_ilen : (s.putMhdr h).ilen = s.ilen := rfl
@[simp] theorem State.putMhdr_err : (s.putMhdr h).err = s.err := rfl
@[simp] theorem State.putMhdr_errinfo : (s.putMhdr h).errinfo = s.errinfo := rfl
@[simp] theorem State.putMhdr_lastop : (s.putMhdr h).lastop = s.lastop := rfl
@[simp] theorem State.putMhdr_olen : (s.putMhdr h).olen = s.olen := rfl
@[simp] theorem State.putMhdr_cap : (s.putMhdr h).cap = s.cap := rfl
@[simp] theorem State.putMhdr_mem : (s.putMhdr h).mem = s.mem := rfl
@[simp] theorem State.putMhdr_pending : (s.putMhdr h).pending = s.pending := rfl
@[simp] theorem State.putMhdr_reply : (s.putMhdr h).reply = s.reply := rfl

end putMhdr

section putFhdr
variable (s : State) (h : Fhdr)

@[simp] theorem State.putFhdr_mtype : (s.putFhdr h).mtype = s.mtype := rfl
@[simp] theorem State.putFhdr_major : (s.putFhdr h).major = s.major := rfl
@[simp] theorem State.putFhdr_devaddr : (s.putFhdr h).devaddr = h.devAddr := rfl
@[simp] theorem State.putFhdr_adr : (s.putFhdr h).adr = h.ctrl.adr := rfl
@[simp] theorem State.putFhdr_adrackreq : (s.putFhdr h).adrackreq = h.ctrl.adrAckReq := rfl
@[simp] theorem State.putFhdr_ack : (s.putFhdr h).ack = h.ctrl.ack := rfl
@[simp] theorem State.putFhdr_fpending : (s.putFhdr h).fpending = h.ctrl.fPending := rfl
@[simp] theorem State.putFhdr_foptslen : (s.putFhdr h).foptslen = h.ctrl.optsLen := rfl
@[simp] theorem State.putFhdr_fcnt : (s.putFhdr h).fcnt = h.fcnt := rfl
@[simp] theorem State.putFhdr_fportv : (s.putFhdr h).fportv = s.fportv := rfl
@[simp] theorem State.putFhdr_fport : (s.putFhdr h).fport = s.fport := rfl
@[simp] theorem State.putFhdr_frmlen : (s.putFhdr h).frmlen = s.frmlen := rfl
@[simp] theorem State.putFhdr_byte : (s.putFhdr h).byte = s.byte := rfl
@[simp] theorem State.putFhdr_dir : (s.putFhdr h).dir = s.dir := rfl
@[simp] theorem State.putFhdr_keylen : (s.putFhdr h).keylen = s.keylen := rfl
@[simp] theorem State.putFhdr_ilen : (s.putFhdr h).ilen = s.ilen := rfl
@[simp] theorem State.putFhdr_err : (s.putFhdr h).err = s.err := rfl
@[simp] theorem State.putFhdr_errinfo : (s.putFhdr h).errinfo = s.errinfo := rfl
@[simp] theorem State.putFhdr_lastop : (s.putFhdr h).lastop = s.lastop := rfl
@[simp] theorem State.putFhdr_olen : (s.putFhdr h).olen = s.olen := rfl
@[simp] theorem State.putFhdr_cap : (s.putFhdr h).cap = s.cap := rfl
@[simp] theorem State.putFhdr_mem : (s.putFhdr h).mem = s.mem.writeBytes Space.fopts.base h.opts := rfl
@[simp] theorem State.putFhdr_pending : (s.putFhdr h).pending = s.pending := rfl
@[simp] theorem State.putFhdr_reply : (s.putFhdr h).reply = s.reply := rfl

end putFhdr

section putHeaderAndMic
variable (s : State) (b : List Byte)

@[simp] theorem State.putHeaderAndMic_mtype : (s.putHeaderAndMic b).mtype = (decodeMhdr (byteAt b 0)).mtype := rfl
@[simp] theorem State.putHeaderAndMic_major : (s.putHeaderAndMic b).major = (decodeMhdr (byteAt b 0)).major := rfl
@[simp] theorem State.putHeaderAndMic_devaddr : (s.putHeaderAndMic b).devaddr = s.devaddr := rfl
@[simp] theorem State.putHeaderAndMic_adr : (s.putHeaderAndMic b).adr = s.adr := rfl
@[simp] theorem State.putHeaderAndMic_adrackreq : (s.putHeaderAndMic b).adrackreq = s.adrackreq := rfl
@[simp] theorem State.putHeaderAndMic_ack : (s.putHeaderAndMic b).ack = s.ack := rfl
@[simp] theorem State.putHeaderAndMic_fpending : (s.putHeaderAndMic b).fpending = s.fpending := rfl
@[simp] theorem State.putHeaderAndMic_foptslen : (s.putHeaderAndMic b).foptslen = s.foptslen := rfl
@[simp] theorem State.putHeaderAndMic_fcnt : (s.putHeaderAndMic b).fcnt = s.fcnt := rfl
@[simp] theorem State.putHeaderAndMic_fportv : (s.putHeaderAndMic b).fportv = s.fportv := rfl
@[simp] theorem State.putHeaderAndMic_fport : (s.putHeaderAndMic b).fport = s.fport := rfl
@[simp] theorem State.putHeaderAndMic_frmlen : (s.putHeaderAndMic b).frmlen = s.frmlen := rfl
@[simp] theorem State.putHeaderAndMic_byte : (s.putHeaderAndMic b).byte = s.byte := rfl
@[simp] theorem State.putHeaderAndMic_dir : (s.putHeaderAndMic b).dir = s.dir := rfl
@[simp] theorem State.putHeaderAndMic_keylen : (s.putHeaderAndMic b).keylen = s.keylen := rfl
@[simp] theorem State.putHeaderAndMic_ilen : (s.putHeaderAndMic b).ilen = s.ilen := rfl
@[simp] theorem State.putHeaderAndMic_err : (s.putHeaderAndMic b).err = s.err := rfl
@[simp] theorem State.putHeaderAndMic_errinfo : (s.putHeaderAndMic b).errinfo = s.errinfo := rfl
@[simp] theorem State.putHeaderAndMic_lastop : (s.putHeaderAndMic b).lastop = s.lastop := rfl
@[simp] theorem State.putHeaderAndMic_olen : (s.putHeaderAndMic b).olen = s.olen := rfl
@[simp] theorem State.putHeaderAndMic_cap : (s.putHeaderAndMic b).cap = s.cap := rfl
@[simp] theorem State.putHeaderAndMic_mem : (s.putHeaderAndMic b).mem = s.mem.writeBytes Space.mic.base (micTrailer b) := rfl
@[simp] theorem State.putHeaderAndMic_pending : (s.putHeaderAndMic b).pending = s.pending := rfl
@[simp] theorem State.putHeaderAndMic_reply : (s.putHeaderAndMic b).reply = s.reply := rfl

end putHeaderAndMic

section putPayload
variable (s : State) (p : Option Byte) (x : Byte) (v : List Byte)

@[simp] theorem State.putPayload_mtype : (s.putPayload p v).mtype = s.mtype := by cases p <;> rfl
@[simp] theorem State.putPayload_major : (s.putPayload p v).major = s.major := by cases p <;> rfl
@[simp] theorem State.putPayload_devaddr : (s.putPayload p v).devaddr = s.devaddr := by cases p <;> rfl
@[simp] theorem State.putPayload_adr : (s.putPayload p v).adr = s.adr := by cases p <;> rfl
@[simp] theorem State.putPayload_adrackreq : (s.putPayload p v).adrackreq = s.adrackreq := by cases p <;> rfl
@[simp] theorem State.putPayload_ack : (s.putPayload p v).ack = s.ack := by cases p <;> rfl
@[simp] theorem State.putPayload_fpending : (s.putPayload p v).fpending = s.fpending := by cases p <;> rfl
@[simp] theorem State.putPayload_foptslen : (s.putPayload p v).foptslen = s.foptslen := by cases p <;> rfl
@[simp] theorem State.putPayload_fcnt : (s.putPayload p v).fcnt = s.fcnt := by cases p <;> rfl
@[simp] theorem State.putPayload_byte : (s.putPayload p v).byte = s.byte := by cases p <;> rfl
@[simp] theorem State.putPayload_dir : (s.putPayload p v).dir = s.dir := by cases p <;> rfl
@[simp] theorem State.putPayload_keylen : (s.putPayload p v).keylen = s.keylen := by cases p <;> rfl
@[simp] theorem State.putPayload_ilen : (s.putPayload p v).ilen = s.ilen := by cases p <;> rfl
@[simp] theorem State.putPayload_err : (s.putPayload p v).err = s.err := by cases p <;> rfl
@[simp] theorem State.putPayload_errinfo : (s.putPayload p v).errinfo = s.errinfo := by cases p <;> rfl
@[simp] theorem State.putPayload_lastop : (s.putPayload p v).lastop = s.lastop := by cases p <;> rfl
@[simp] theorem State.putPayload_olen : (s.putPayload p v).olen = s.olen := by cases p <;> rfl
@[simp] theorem State.putPayload_cap : (s.putPayload p v).cap = s.cap := by cases p <;> rfl
@[simp] theorem State.putPayload_pending : (s.putPayload p v).pending = s.pending := by cases p <;> rfl
@[simp] theorem State.putPayload_reply : (s.putPayload p v).reply = s.reply := by cases p <;> rfl
@[simp] theorem State.putPayload_some_fportv : (s.putPayload (some x) v).fportv = 1 := rfl
@[simp] theorem State.putPayload_none_fportv : (s.putPayload none v).fportv = 0 := rfl
@[simp] theorem State.putPayload_some_fport : (s.putPayload (some x) v).fport = x := rfl
@[simp] theorem State.putPayload_none_fport : (s.putPayload none v).fport = 0 := rfl
@[simp] theorem State.putPayload_some_frmlen : (s.putPayload (some x) v).frmlen = BitVec.ofNat 16 v.length := rfl
@[simp] theorem State.putPayload_none_frmlen : (s.putPayload none v).frmlen = 0 := rfl
@[simp] theorem State.putPayload_some_mem : (s.putPayload (some x) v).mem = s.mem.writeBytes Space.frm.base v := rfl
@[simp] theorem State.putPayload_none_mem : (s.putPayload none v).mem = s.mem := rfl

end putPayload

section bufCap
variable (s : State)

@[simp] theorem State.withStatus_bufCap (e : BitVec 4) (x : Byte) : (s.withStatus e x).bufCap = s.bufCap := rfl
@[simp] theorem State.memWrite_bufCap (sp : Space) (o : Nat) (v : List Byte) : (s.memWrite sp o v).bufCap = s.bufCap := rfl
@[simp] theorem State.putOutput_bufCap (v : List Byte) : (s.putOutput v).bufCap = s.bufCap := rfl
@[simp] theorem State.putFctrl_bufCap (c : Fctrl) : (s.putFctrl c).bufCap = s.bufCap := rfl
@[simp] theorem State.putMhdr_bufCap (h : Mhdr) : (s.putMhdr h).bufCap = s.bufCap := rfl
@[simp] theorem State.putFhdr_bufCap (h : Fhdr) : (s.putFhdr h).bufCap = s.bufCap := rfl
@[simp] theorem State.putHeaderAndMic_bufCap (b : List Byte) : (s.putHeaderAndMic b).bufCap = s.bufCap := rfl
@[simp] theorem State.putPayload_bufCap (p : Option Byte) (v : List Byte) : (s.putPayload p v).bufCap = s.bufCap := by
  cases p <;> rfl

end bufCap

end Sys2Proof.Machine
end

