-- ==== Sys2Proof/Laws/Commands.lean ====
section
/-! SUPPORT. What each command can do, said once: one lemma per meaning that lists its outcomes with the conditions
they hold under, in the order of spec 60_exceptions.md R164; and what the operands read. -/

namespace Sys2Proof.Machine

@[simp] theorem succeed_eq (s : State) : succeed s = .next (s.withStatus 0 0) := rfl

@[simp] theorem raise_eq (e : Error) (st : Struct) (f : Field) (s : State) :
    raise e st f s = .next (s.withStatus e.code (errInfo st f)) := rfl

theorem next_inj {s t : State} (h : (Host.Outcome.next s : Result) = .next t) : t = s := by
  injection h with h
  exact h.symm

/-! ### Operands -/

@[simp] theorem input_length (s : State) : s.input.length = s.ilen.toNat := by simp [State.input, State.memRead]

/-- Byte k of the input string is IBUF[k] (R16). -/
theorem byteAt_input (s : State) {k : Nat} (h : k < s.ilen.toNat) : byteAt s.input k = s.mem.read (0x2000 + k) := by
  rw [byteAt_eq_getElem _ _ (by simpa using h)]
  simp [State.input, State.memRead, Memory.readBytes_getElem, Space.base]

@[simp] theorem keyBytes_length (s : State) : s.keyBytes.length = 16 := by
  simp [State.keyBytes, State.memRead, Config.keyBytes]

@[simp] theorem micBytes_length (s : State) : s.micBytes.length = 4 := by
  simp [State.micBytes, State.memRead, Config.micBytes]

@[simp] theorem viewFhdr_opts_length (s : State) : s.viewFhdr.opts.length = s.foptslen.toNat := by
  simp [State.viewFhdr, State.memRead]

/-! ### Lengths of what is serialized -/

@[simp] theorem serializeFhdr_length (h : Fhdr) : (serializeFhdr h).length = 7 + h.opts.length := by
  simp [serializeFhdr]; omega

/-- `len(s) = 7 + FOPTSLEN + (1 + FRMLEN if FPORTV = 1 else 0)` (R100). -/
theorem serializeData_view_length (s : State) :
    (serializeData s.viewData).length = 7 + s.foptslen.toNat + if s.fportv = 1 then 1 + s.frmlen.toNat else 0 := by
  simp only [serializeData, State.viewData, List.length_append, serializeFhdr_length, viewFhdr_opts_length]
  split <;> split at * <;> simp_all [State.memRead]; omega

@[simp] theorem macRegion_length (b : List Byte) (h : 5 ≤ b.length) : (macRegion b).length = b.length - 5 := by
  simp [macRegion, Config.micBytes]; omega

@[simp] theorem micTrailer_length (b : List Byte) (h : 5 ≤ b.length) : (micTrailer b).length = 4 := by
  simp [micTrailer, Config.micBytes]; omega

theorem declaredOpts_le (b : List Byte) : declaredOpts b ≤ 15 := by
  have := (decodeFctrl (byteAt b 4)).optsLen.isLt
  simp only [declaredOpts]; omega

/-- FOptsLen is bits 3:0 of byte 4 (R59). -/
theorem declaredOpts_eq (b : List Byte) : declaredOpts b = (byteAt b 4).toNat % 16 := by
  simp [declaredOpts, decodeFctrl]

@[simp] theorem fhdrOf_ctrl_optsLen (b : List Byte) : (fhdrOf b).ctrl.optsLen.toNat = declaredOpts b := rfl

theorem fhdrOf_opts_length (b : List Byte) (h : 7 + declaredOpts b ≤ b.length) :
    (fhdrOf b).opts.length = declaredOpts b := by
  simp [fhdrOf]; omega

theorem frmOf_length (b : List Byte) : (frmOf b).length = b.length - (fhdrBytes b + 1) := by
  unfold frmOf
  split
  · simp
  · simp; omega

theorem Block.toBytes_length (b : Block) : b.toBytes.length = 16 := rfl

theorem keystream_length (key : List Byte) (n : Nat) (down : BitVec 1) (addr : BitVec 32) (fcnt : BitVec 16) :
    (keystream key n down addr fcnt).length = 16 * n := by
  simp [keystream, List.length_flatMap, Block.toBytes_length, Nat.mul_comm]

@[simp] theorem cryptBytes_length (key data : List Byte) (down : BitVec 1) (addr : BitVec 32) (fcnt : BitVec 16) :
    (cryptBytes key data down addr fcnt).length = data.length := by
  have := le_ceilDiv_mul data.length
  simp [cryptBytes, keystream_length, Config.blockBytes]; omega

theorem micTag_length (d : Byte) (msg key : List Byte) (addr : BitVec 32) (fcnt : BitVec 16) :
    (micTag d msg key addr fcnt).length = 4 := by
  simp [micTag, Block.toBytes_length, Config.micBytes]

/-! ### Outcomes -/

theorem execParFhdr_cases {s t : State} (h : execParFhdr s = .next t) :
    (s.bufCap < s.ilen.toNat ∧ t = s.withStatus 11 0x21) ∨
    (s.ilen.toNat ≤ s.bufCap ∧ s.ilen.toNat < 7 ∧ t = s.withStatus 1 0x21) ∨
    (s.ilen.toNat ≤ s.bufCap ∧ 7 ≤ s.ilen.toNat ∧ s.ilen.toNat - 7 < declaredOpts s.input ∧
      t = s.withStatus 2 0x22) ∨
    (s.ilen.toNat ≤ s.bufCap ∧ 7 + declaredOpts s.input ≤ s.ilen.toNat ∧
      t = (s.putFhdr (fhdrOf s.input)).withStatus 0 0) := by
  simp only [execParFhdr, Config.fhdrMin] at h
  split at h
  · exact .inl ⟨by omega, next_inj h⟩
  · split at h
    · exact .inr (.inl ⟨by omega, by omega, next_inj h⟩)
    · split at h
      · exact .inr (.inr (.inl ⟨by omega, by omega, by omega, next_inj h⟩))
      · exact .inr (.inr (.inr ⟨by omega, by omega, next_inj h⟩))

theorem execSerData_cases {s t : State} (h : execSerData s = .next t) :
    (s.bufCap < s.frmlen.toNat ∧ t = s.withStatus 11 0x38) ∨
    (s.frmlen.toNat ≤ s.bufCap ∧ s.fportv = 0 ∧ 0 < s.frmlen.toNat ∧ t = s.withStatus 11 0x3A) ∨
    (s.frmlen.toNat ≤ s.bufCap ∧ ¬ (s.fportv = 0 ∧ 0 < s.frmlen.toNat) ∧
      s.bufCap < (serializeData s.viewData).length ∧ t = s.withStatus 10 0x37) ∨
    (s.frmlen.toNat ≤ s.bufCap ∧ ¬ (s.fportv = 0 ∧ 0 < s.frmlen.toNat) ∧
      (serializeData s.viewData).length ≤ s.bufCap ∧
      t = (s.putOutput (serializeData s.viewData)).withStatus 0 0) := by
  simp only [execSerData] at h
  split at h
  · exact .inl ⟨by omega, next_inj h⟩
  · split at h
    · rename_i hp
      exact .inr (.inl ⟨by omega, hp.1, hp.2, next_inj h⟩)
    · rename_i hp
      split at h
      · exact .inr (.inr (.inl ⟨by omega, hp, by omega, next_inj h⟩))
      · exact .inr (.inr (.inr ⟨by omega, hp, by omega, next_inj h⟩))

theorem execParData_cases {s t : State} (h : execParData s = .next t) :
    (s.bufCap < s.ilen.toNat ∧ t = s.withStatus 11 0x31) ∨
    (s.ilen.toNat ≤ s.bufCap ∧ s.ilen.toNat < 7 ∧ t = s.withStatus 1 0x31) ∨
    (s.ilen.toNat ≤ s.bufCap ∧ 7 ≤ s.ilen.toNat ∧ s.ilen.toNat - 7 < declaredOpts s.input ∧
      t = s.withStatus 2 0x22) ∨
    (s.ilen.toNat ≤ s.bufCap ∧ 7 + declaredOpts s.input ≤ s.ilen.toNat ∧
      t = (s.putDataFrom s.input).withStatus 0 0) := by
  simp only [execParData, Config.fhdrMin] at h
  split at h
  · exact .inl ⟨by omega, next_inj h⟩
  · split at h
    · exact .inr (.inl ⟨by omega, by omega, next_inj h⟩)
    · split at h
      · exact .inr (.inr (.inl ⟨by omega, by omega, by omega, next_inj h⟩))
      · exact .inr (.inr (.inr ⟨by omega, by omega, next_inj h⟩))

theorem execCrypt_cases {s t : State} (h : execCrypt s = .next t) :
    (s.bufCap < s.ilen.toNat ∧ t = s.withStatus 11 0x51) ∨
    (s.ilen.toNat ≤ s.bufCap ∧ s.keylen.toNat ≠ 16 ∧ t = s.withStatus 6 0x55) ∨
    (s.ilen.toNat ≤ s.bufCap ∧ s.keylen.toNat = 16 ∧ 4080 < s.ilen.toNat ∧ t = s.withStatus 10 0x51) ∨
    (s.ilen.toNat ≤ s.bufCap ∧ s.keylen.toNat = 16 ∧ s.ilen.toNat ≤ 4080 ∧
      t = (s.putOutput (cryptBytes s.keyBytes s.input s.dir s.devaddr s.fcnt)).withStatus 0 0) := by
  simp only [execCrypt, Config.keyBytes, Config.cryptMax] at h
  split at h
  · exact .inl ⟨by omega, next_inj h⟩
  · split at h
    · rename_i hk
      exact .inr (.inl ⟨by omega, hk, next_inj h⟩)
    · rename_i hk
      split at h
      · exact .inr (.inr (.inl ⟨by omega, by omega, by omega, next_inj h⟩))
      · exact .inr (.inr (.inr ⟨by omega, by omega, by omega, next_inj h⟩))

theorem variantOf_data_iff (m : BitVec 3) : variantOf m = some .data ↔ 2 ≤ m.toNat ∧ m.toNat ≤ 5 := by
  revert m; decide

/-- The direction byte of each data type (R52, R58). -/
theorem dirOf_data {m : BitVec 3} (h2 : 2 ≤ m.toNat) (h5 : m.toNat ≤ 5) :
    dirOf m = some (if m = 3 ∨ m = 5 then 0x01 else 0x00) := by
  revert m; decide

/-- For a data type and a message of at most 255 bytes compute_mic succeeds, and MIC takes its four bytes (R140). -/
theorem storeMic_data (s : State) (msg : List Byte) (h2 : 2 ≤ s.mtype.toNat) (h5 : s.mtype.toNat ≤ 5)
    (hl : msg.length ≤ 255) :
    s.storeMic msg = .next ((s.memWrite .mic 0 (micTag (if s.mtype = 3 ∨ s.mtype = 5 then 0x01 else 0x00) msg s.keyBytes
      s.devaddr s.fcnt)).withStatus 0 0) := by
  have hn : ¬ msg.length > Config.msgMax := by simp [Config.msgMax]; omega
  have : computeMic s.mtype msg s.keyBytes s.devaddr s.fcnt =
      .ok (micTag (if s.mtype = 3 ∨ s.mtype = 5 then 0x01 else 0x00) msg s.keyBytes s.devaddr s.fcnt) := by
    simp only [computeMic, dirOf_data h2 h5, if_neg hn]
  simp only [State.storeMic, this, succeed_eq]

theorem execMic_cases {s t : State} (h : execMic s = .next t) :
    (s.bufCap < s.ilen.toNat ∧ t = s.withStatus 11 0x61) ∨
    (s.ilen.toNat ≤ s.bufCap ∧ ¬ (2 ≤ s.mtype.toNat ∧ s.mtype.toNat ≤ 5) ∧ t = s.withStatus 9 0x64) ∨
    (s.ilen.toNat ≤ s.bufCap ∧ (2 ≤ s.mtype.toNat ∧ s.mtype.toNat ≤ 5) ∧ 255 < s.ilen.toNat ∧
      t = s.withStatus 10 0x66) ∨
    (s.ilen.toNat ≤ s.bufCap ∧ (2 ≤ s.mtype.toNat ∧ s.mtype.toNat ≤ 5) ∧ s.ilen.toNat ≤ 255 ∧
      s.keylen.toNat ≠ 16 ∧ t = s.withStatus 6 0x65) ∨
    (s.ilen.toNat ≤ s.bufCap ∧ (2 ≤ s.mtype.toNat ∧ s.mtype.toNat ≤ 5) ∧ s.ilen.toNat ≤ 255 ∧ s.keylen.toNat = 16 ∧
      t = (s.memWrite .mic 0 (micTag (if s.mtype = 3 ∨ s.mtype = 5 then 0x01 else 0x00) s.input s.keyBytes
        s.devaddr s.fcnt)).withStatus 0 0) := by
  simp only [execMic, Config.keyBytes, Config.msgMax, ne_eq, variantOf_data_iff] at h
  split at h
  · exact .inl ⟨by omega, next_inj h⟩
  · split at h
    · rename_i hm
      exact .inr (.inl ⟨by omega, hm, next_inj h⟩)
    · rename_i hm
      rw [not_not] at hm
      split at h
      · exact .inr (.inr (.inl ⟨by omega, hm, by omega, next_inj h⟩))
      · split at h
        · rename_i hk
          exact .inr (.inr (.inr (.inl ⟨by omega, hm, by omega, hk, next_inj h⟩)))
        · rw [storeMic_data s s.input hm.1 hm.2 (by rw [input_length]; omega)] at h
          exact .inr (.inr (.inr (.inr ⟨by omega, hm, by omega, by omega, next_inj h⟩)))

theorem execMicFrame_cases {s t : State} (h : execMicFrame s = .next t) :
    (s.mtype.toNat < 2 ∧ t = s.withStatus 5 0x6B) ∨
    (5 < s.mtype.toNat ∧ t = s.withStatus 4 0x64) ∨
    (2 ≤ s.mtype.toNat ∧ s.mtype.toNat ≤ 5) ∧
      ((s.bufCap < s.frmlen.toNat ∧ t = s.withStatus 11 0x38) ∨
       (s.frmlen.toNat ≤ s.bufCap ∧ s.fportv = 0 ∧ 0 < s.frmlen.toNat ∧ t = s.withStatus 11 0x3A) ∨
       (s.frmlen.toNat ≤ s.bufCap ∧ ¬ (s.fportv = 0 ∧ 0 < s.frmlen.toNat)) ∧
        ((255 < s.frameImage.length ∧ t = s.withStatus 10 0x66) ∨
         (s.frameImage.length ≤ 255 ∧ s.keylen.toNat ≠ 16 ∧ t = s.withStatus 6 0x65) ∨
         (s.frameImage.length ≤ 255 ∧ s.keylen.toNat = 16 ∧
          t = (s.memWrite .mic 0 (micTag (if s.mtype = 3 ∨ s.mtype = 5 then 0x01 else 0x00) s.frameImage s.keyBytes
            s.devaddr s.fcnt)).withStatus 0 0))) := by
  simp only [execMicFrame, Config.keyBytes, Config.msgMax, ne_eq] at h
  split at h
  · exact .inl ⟨by omega, next_inj h⟩
  · split at h
    · exact .inr (.inl ⟨by omega, next_inj h⟩)
    · refine .inr (.inr ⟨⟨by omega, by omega⟩, ?_⟩)
      split at h
      · exact .inl ⟨by omega, next_inj h⟩
      · split at h
        · rename_i hp
          exact .inr (.inl ⟨by omega, hp.1, hp.2, next_inj h⟩)
        · rename_i hp
          refine .inr (.inr ⟨⟨by omega, hp⟩, ?_⟩)
          split at h
          · exact .inl ⟨by omega, next_inj h⟩
          · split at h
            · rename_i hk
              exact .inr (.inl ⟨by omega, hk, next_inj h⟩)
            · rw [storeMic_data s s.frameImage (by omega) (by omega) (by omega)] at h
              exact .inr (.inr ⟨by omega, by omega, next_inj h⟩)

theorem execSerPhy_cases {s t : State} (h : execSerPhy s = .next t) :
    (s.mtype.toNat < 2 ∧ t = s.withStatus 5 0x4B) ∨
    (5 < s.mtype.toNat ∧ t = s.withStatus 4 0x44) ∨
    (2 ≤ s.mtype.toNat ∧ s.mtype.toNat ≤ 5) ∧
      ((s.bufCap < s.frmlen.toNat ∧ t = s.withStatus 11 0x38) ∨
       (s.frmlen.toNat ≤ s.bufCap ∧ s.fportv = 0 ∧ 0 < s.frmlen.toNat ∧ t = s.withStatus 11 0x3A) ∨
       (s.frmlen.toNat ≤ s.bufCap ∧ ¬ (s.fportv = 0 ∧ 0 < s.frmlen.toNat)) ∧
        ((s.bufCap < s.phyImage.length ∧ t = s.withStatus 10 0x47) ∨
         (s.phyImage.length ≤ s.bufCap ∧ t = (s.putOutput s.phyImage).withStatus 0 0))) := by
  simp only [execSerPhy] at h
  split at h
  · exact .inl ⟨by omega, next_inj h⟩
  · split at h
    · exact .inr (.inl ⟨by omega, next_inj h⟩)
    · refine .inr (.inr ⟨⟨by omega, by omega⟩, ?_⟩)
      split at h
      · exact .inl ⟨by omega, next_inj h⟩
      · split at h
        · rename_i hp
          exact .inr (.inl ⟨by omega, hp.1, hp.2, next_inj h⟩)
        · rename_i hp
          refine .inr (.inr ⟨⟨by omega, hp⟩, ?_⟩)
          split at h
          · exact .inl ⟨by omega, next_inj h⟩
          · exact .inr ⟨by omega, next_inj h⟩

theorem execParPhy_cases {s t : State} (h : execParPhy s = .next t) :
    (s.bufCap < s.ilen.toNat ∧ t = s.withStatus 11 0x41) ∨
    (s.ilen.toNat ≤ s.bufCap ∧ s.ilen.toNat < 5 ∧ t = s.withStatus 1 0x41) ∨
    (s.ilen.toNat ≤ s.bufCap ∧ 5 ≤ s.ilen.toNat) ∧
      (((decodeMhdr (byteAt s.input 0)).major ≠ 0 ∧ t = (s.putHeaderAndMic s.input).withStatus 3 0x43) ∨
       (decodeMhdr (byteAt s.input 0)).major = 0 ∧
        (((decodeMhdr (byteAt s.input 0)).mtype.toNat < 2 ∧ t = s.withStatus 5 0x4B) ∨
         (5 < (decodeMhdr (byteAt s.input 0)).mtype.toNat ∧ t = s.withStatus 4 0x44) ∨
         (2 ≤ (decodeMhdr (byteAt s.input 0)).mtype.toNat ∧ (decodeMhdr (byteAt s.input 0)).mtype.toNat ≤ 5) ∧
          ((s.ilen.toNat < 12 ∧ t = s.withStatus 1 0x31) ∨
           (12 ≤ s.ilen.toNat ∧ s.ilen.toNat - 12 < declaredOpts (macRegion s.input) ∧ t = s.withStatus 2 0x22) ∨
           (12 + declaredOpts (macRegion s.input) ≤ s.ilen.toNat ∧
            t = ((s.putHeaderAndMic s.input).putDataFrom (macRegion s.input)).withStatus 0 0)))) := by
  simp only [execParPhy, Config.phyMin, Config.fhdrMin] at h
  split at h
  · exact .inl ⟨by omega, next_inj h⟩
  · split at h
    · exact .inr (.inl ⟨by omega, by omega, next_inj h⟩)
    · have hl : (macRegion s.input).length = s.ilen.toNat - 5 := by
        rw [macRegion_length _ (by rw [input_length]; omega), input_length]
      refine .inr (.inr ⟨⟨by omega, by omega⟩, ?_⟩)
      split at h
      · rename_i hm
        exact .inl ⟨hm, next_inj h⟩
      · rename_i hm
        refine .inr ⟨not_not.1 hm, ?_⟩
        split at h
        · exact .inl ⟨by omega, next_inj h⟩
        · split at h
          · exact .inr (.inl ⟨by omega, next_inj h⟩)
          · refine .inr (.inr ⟨⟨by omega, by omega⟩, ?_⟩)
            rw [hl] at h
            split at h
            · exact .inl ⟨by omega, next_inj h⟩
            · split at h
              · exact .inr (.inl ⟨by omega, by omega, next_inj h⟩)
              · exact .inr (.inr ⟨by omega, next_inj h⟩)

end Sys2Proof.Machine
end

