-- ==== Sys2Proof/Laws/Bus.lean ====
section
/-! SUPPORT. What an offset names, and what a host access does, said once per kind of access. -/

namespace Sys2Proof.Machine

/-! ### The register map -/

/-- The register offsets are the multiples of 4 below 0x058 (R40, R41). -/
theorem exists_reg_offset {o : Nat} (h : o < 0x58 ∧ o % 4 = 0) : ∃ r : Reg, r.offset = o := by
  have : ∀ k < 0x58, k % 4 = 0 → ∃ r ∈ Reg.all, r.offset = k := by decide
  obtain ⟨r, _, h⟩ := this o h.1 h.2
  exact ⟨r, h⟩

theorem Reg.offset_lt (r : Reg) : r.offset < 0x58 ∧ r.offset % 4 = 0 := by cases r <;> decide

@[simp] theorem targetOf_reg (cap : Nat) (r : Reg) : targetOf cap r.offset = some (.reg r) := by cases r <;> rfl

/-- An offset that is no register's names the array that holds it, if one does. -/
theorem targetOf_of_not_reg {o : Nat} (cap : Nat) (h : ¬ (o < 0x58 ∧ o % 4 = 0)) :
    targetOf cap o = (Space.all.find? (fun sp => sp.holds cap o)).map .byte := by
  have : Reg.all.find? (fun r => r.offset == o) = none := by
    rw [List.find?_eq_none]
    intro r _ hr
    have hro : r.offset = o := by simpa using hr
    exact h (hro ▸ r.offset_lt)
  unfold targetOf
  rw [this]

theorem Space.holds_iff {sp : Space} {cap o : Nat} :
    sp.holds cap o = true ↔ sp.base ≤ o ∧ o < sp.base + sp.size cap := by simp [Space.holds]

/-- No array holds a register's offset (R40). -/
theorem Space.not_reg_of_holds {sp : Space} {cap o : Nat} (h : sp.holds cap o = true) : ¬ (o < 0x58 ∧ o % 4 = 0) := by
  have hb : 0x100 ≤ sp.base := by cases sp <;> decide
  have := Space.holds_iff.1 h
  omega

/-- The arrays do not overlap while BUF_CAP keeps each buffer inside its window (R40). -/
theorem Space.eq_of_holds {sp sp' : Space} {cap o : Nat} (hc : cap ≤ 4096) (h : sp.holds cap o = true)
    (h' : sp'.holds cap o = true) : sp = sp' := by
  rw [Space.holds_iff] at h h'
  cases sp <;> cases sp' <;> first
    | rfl
    | (simp only [Space.base, Space.size, Config.keyBytes, Config.foptsMax, Config.micBytes] at h h'; omega)

/-- The offset of an array byte names that array (R40). -/
theorem targetOf_byte {sp : Space} {cap o : Nat} (hc : cap ≤ 4096) (h : sp.holds cap o = true) :
    targetOf cap o = some (.byte sp) := by
  rw [targetOf_of_not_reg cap (Space.not_reg_of_holds h)]
  cases hf : Space.all.find? (fun sp => sp.holds cap o) with
  | none =>
    rw [List.find?_eq_none] at hf
    exact absurd h (hf sp (by cases sp <;> decide))
  | some sp' =>
    have := List.find?_some hf
    rw [Space.eq_of_holds hc h this]
    rfl

/-- A byte target is an array that holds the offset. -/
theorem holds_of_targetOf {sp : Space} {cap o : Nat} (h : targetOf cap o = some (.byte sp)) : sp.holds cap o = true := by
  by_cases hr : o < 0x58 ∧ o % 4 = 0
  · obtain ⟨r, rfl⟩ := exists_reg_offset hr
    rw [targetOf_reg] at h
    cases h
  · rw [targetOf_of_not_reg cap hr] at h
    cases hf : Space.all.find? (fun sp => sp.holds cap o) with
    | none => rw [hf] at h; cases h
    | some sp' =>
      rw [hf] at h
      cases h
      exact List.find?_some (p := fun x => Space.holds cap o x) hf

/-! ### Accesses -/

/-- An admitted read only answers (R35). -/
theorem hostRead_cases {s t : State} {bits o : Nat} (h : hostRead bits o s = .next t) : ∃ w, t = { s with reply := some w } := by
  simp only [hostRead, answer] at h
  split at h
  · cases h
  · split at h
    · cases h
    · exact ⟨_, next_inj h⟩
  · split at h
    · cases h
    · exact ⟨_, next_inj h⟩

/-- A write of a 32-bit word to CMD runs the word's command (R70). -/
theorem hostWrite_command (s : State) (w : Word) : hostWrite 32 0 w.toNat s = writeCommand w { s with reply := none } := by
  have ht : targetOf s.bufCap 0 = some (.reg .cmd) := rfl
  have hn : ¬ 2 ^ Reg.cmd.width ≤ w.toNat := by have := w.isLt; simp only [Reg.width]; omega
  simp only [hostWrite, ht, writeReg, Reg.hostWritable]
  rw [if_neg (by decide), if_neg (by decide), if_neg hn, if_pos trivial, BitVec.ofNat_toNat, BitVec.setWidth_eq]

/-- What an admitted write does: run a command, store a field, or store an array byte. -/
theorem hostWrite_cases {s t : State} {bits o v : Nat} (h : hostWrite bits o v s = .next t) :
    (bits = 32 ∧ o = 0 ∧ v < 2 ^ 32 ∧ writeCommand (BitVec.ofNat 32 v) { s with reply := none } = .next t) ∨
    (∃ r : Reg, bits = 32 ∧ o = r.offset ∧ r.hostWritable = true ∧ r ≠ .cmd ∧ v < 2 ^ r.width ∧
      t = ({ s with reply := none } : State).setField v r) ∨
    (∃ sp : Space, bits = 8 ∧ sp.holds s.bufCap o = true ∧ sp.hostWritable = true ∧ v < 2 ^ 8 ∧
      t = { s with reply := none, mem := s.mem.write o (BitVec.ofNat 8 v) }) := by
  simp only [hostWrite] at h
  split at h
  · cases h
  · rename_i r hr
    have ho : o = r.offset := by
      by_cases hreg : o < 0x58 ∧ o % 4 = 0
      · obtain ⟨r', rfl⟩ := exists_reg_offset hreg
        rw [targetOf_reg] at hr
        cases hr; rfl
      · rw [targetOf_of_not_reg _ hreg] at hr
        cases hf : Space.all.find? (fun sp => sp.holds s.bufCap o) <;> rw [hf] at hr <;> cases hr
    split at h
    · cases h
    · rename_i hb
      simp only [writeReg] at h
      split at h
      · cases h
      · rename_i hw
        split at h
        · cases h
        · rename_i hv
          split at h
          · rename_i hc
            subst hc
            exact .inl ⟨by omega, ho, by simpa [Reg.width] using hv, h⟩
          · rename_i hc
            exact .inr (.inl ⟨r, by omega, ho, by simpa using hw, hc, by omega, next_inj h⟩)
  · rename_i sp hsp
    split at h
    · cases h
    · simp only [writeArrayByte] at h
      split at h
      · cases h
      · rename_i hw
        split at h
        · cases h
        · exact .inr (.inr ⟨sp, by omega, holds_of_targetOf hsp, by simpa using hw, by omega, next_inj h⟩)

/-- What a write to CMD does: run the command, or end in BadRequest(0x19), LASTOP written first (R70). -/
theorem writeCommand_cases {s t : State} {w : Word} (h : writeCommand w s = .next t) :
    (∃ i, decode w = .ok i ∧ exec i { s with lastop := opcodeField w } = .next t) ∨
    (∃ e, decode w = .error e ∧ t = ({ s with lastop := opcodeField w } : State).withStatus 11 0x19) := by
  simp only [writeCommand] at h
  split at h
  · exact .inl ⟨_, by assumption, h⟩
  · exact .inr ⟨_, by assumption, next_inj h⟩

/-- What a step does: nothing, or the oldest access. -/
theorem step_cases {s t : State} (h : step s = .next t) :
    (s.pending = [] ∧ t = s) ∨ ∃ a rest, s.pending = a :: rest ∧ access a { s with pending := rest } = .next t := by
  simp only [step] at h
  split at h
  · exact .inl ⟨by assumption, next_inj h⟩
  · exact .inr ⟨_, _, by assumption, h⟩

end Sys2Proof.Machine
end

