-- ==== Sys2Proof/Laws/PerInstr.lean ====
section
/-! SUPPORT. The per-command family of LAWS.json: every command is well-formed and its word decodes to it. -/

/-- A command as syntax: it is well-formed, its command word is well-formed (bits 31:8 are 0), and the decoder reads
the command back from the word (spec 30_encoding.md R70, R71). -/
def Sys2Proof.Laws.EncodeDecode.Statement (i : Sys2Proof.Instr) : Prop :=
  i.wellFormed = true ∧ Sys2Proof.commandWordWellFormed (Sys2Proof.encode i) = true ∧
    Sys2Proof.decode (Sys2Proof.encode i) = .ok i

namespace Sys2Proof.Laws.EncodeDecode

theorem encFctrl : Statement .encFctrl := ⟨rfl, rfl, rfl⟩
theorem decFctrl : Statement .decFctrl := ⟨rfl, rfl, rfl⟩
theorem encMhdr : Statement .encMhdr := ⟨rfl, rfl, rfl⟩
theorem decMhdr : Statement .decMhdr := ⟨rfl, rfl, rfl⟩
theorem serFhdr : Statement .serFhdr := ⟨rfl, rfl, rfl⟩
theorem parFhdr : Statement .parFhdr := ⟨rfl, rfl, rfl⟩
theorem serData : Statement .serData := ⟨rfl, rfl, rfl⟩
theorem parData : Statement .parData := ⟨rfl, rfl, rfl⟩
theorem crypt : Statement .crypt := ⟨rfl, rfl, rfl⟩
theorem mic : Statement .mic := ⟨rfl, rfl, rfl⟩
theorem micFrame : Statement .micFrame := ⟨rfl, rfl, rfl⟩
theorem serPhy : Statement .serPhy := ⟨rfl, rfl, rfl⟩
theorem parPhy : Statement .parPhy := ⟨rfl, rfl, rfl⟩

end Sys2Proof.Laws.EncodeDecode
end

