-- ==== Sys2Proof/Machine/ScriptText.lean ====
section
/-! DEFINITION. The text of host scripts: one line to a statement (spec 30_encoding.md R72), and a bus transaction
to its text (R73). -/

namespace Sys2Proof.Machine.Text

/-- The scalar registers' names (R40). -/
def regNames : List (String × Reg) :=
  [("CMD", .cmd), ("ERR", .err), ("ERRINFO", .errinfo), ("LASTOP", .lastop), ("MTYPE", .mtype), ("MAJOR", .major),
   ("DEVADDR", .devaddr), ("ADR", .adr), ("ADRACKREQ", .adrackreq), ("ACK", .ack), ("FPENDING", .fpending),
   ("FOPTSLEN", .foptslen), ("FCNT", .fcnt), ("FPORTV", .fportv), ("FPORT", .fport), ("FRMLEN", .frmlen),
   ("BYTE", .byte), ("DIR", .dir), ("KEYLEN", .keylen), ("ILEN", .ilen), ("OLEN", .olen), ("CAP", .cap)]

/-- The byte arrays' names (R40). -/
def spaceNames : List (String × Space) :=
  [("KEY", .key), ("FOPTS", .fopts), ("MIC", .mic), ("FRM", .frm), ("IBUF", .ibuf), ("OBUF", .obuf)]

/-- The commands' mnemonics (R71). -/
def mnemonics : List (String × Instr) :=
  [("ENC_FCTRL", .encFctrl), ("DEC_FCTRL", .decFctrl), ("ENC_MHDR", .encMhdr), ("DEC_MHDR", .decMhdr),
   ("SER_FHDR", .serFhdr), ("PAR_FHDR", .parFhdr), ("SER_DATA", .serData), ("PAR_DATA", .parData),
   ("CRYPT", .crypt), ("MIC", .mic), ("MIC_FRAME", .micFrame), ("SER_PHY", .serPhy), ("PAR_PHY", .parPhy)]

/-- The value of a name in one of the three lists. -/
def named {α : Type} (names : List (String × α)) (w : List Char) : Option α :=
  (names.find? fun p => p.1.toList == w).map (·.2)

/-- The words of a line up to its comment, `;` (R72). Spaces end a word; each `,` and each `=` is a word of its own. -/
def wordsFrom : List Char → List Char → List (List Char)
  | [], w => if w.isEmpty then [] else [w.reverse]
  | c :: cs, w =>
    if c == ';' then (if w.isEmpty then [] else [w.reverse])
    else if c == ' ' then (if w.isEmpty then wordsFrom cs [] else w.reverse :: wordsFrom cs [])
    else if c == ',' || c == '=' then
      (if w.isEmpty then [c] :: wordsFrom cs [] else w.reverse :: [c] :: wordsFrom cs [])
    else wordsFrom cs (c :: w)

/-- The value of a hexadecimal digit. -/
def hexDigit (c : Char) : Option Nat :=
  let n := c.toNat
  if 48 ≤ n ∧ n ≤ 57 then some (n - 48)
  else if 65 ≤ n ∧ n ≤ 70 then some (n - 55)
  else if 97 ≤ n ∧ n ≤ 102 then some (n - 87)
  else none

/-- The digits of a number in a base, most significant first, after the value `acc`. -/
def digitsFrom (base : Nat) : Nat → List Char → Option Nat
  | acc, [] => some acc
  | acc, c :: cs =>
    match hexDigit c with
    | some d => if d < base then digitsFrom base (acc * base + d) cs else none
    | none => none

/-- A decimal or `0x` hexadecimal number (R72). -/
def number : List Char → Option Nat
  | [] => none
  | '0' :: 'x' :: d :: ds => digitsFrom 16 0 (d :: ds)
  | ds => digitsFrom 10 0 ds

/-- A hex byte string, pairs of hex digits (R72). -/
def hexPairs : List Char → Option (List Byte)
  | [] => some []
  | [_] => none
  | a :: b :: cs =>
    match hexDigit a, hexDigit b, hexPairs cs with
    | some x, some y, some bs => some (BitVec.ofNat 8 (16 * x + y) :: bs)
    | _, _, _ => none

/-- A hex byte string whose pairs are separated by optional spaces: each word is whole pairs. -/
def hexWords : List (List Char) → Option (List Byte)
  | [] => some []
  | w :: ws =>
    match hexPairs w, hexWords ws with
    | some a, some b => some (a ++ b)
    | _, _ => none

/-- The two numbers of `a..b`. -/
def range : List Char → List Char → Option (Nat × Nat)
  | [], _ => none
  | '.' :: '.' :: b, a =>
    match number a.reverse, number b with
    | some x, some y => some (x, y)
    | _, _ => none
  | c :: cs, a => range cs (c :: a)

/-- Split `ARRAY[index` and a closing bracket into ARRAY and index; the closing bracket is the word's last character. -/
def bracketed (close : Char) : List Char → List Char → Option (List Char × List Char)
  | [], _ => none
  | '[' :: cs, a =>
    match cs.reverse with
    | [] => none
    | c :: r => if c == close then some (a.reverse, r.reverse) else none
  | c :: cs, a => bracketed close cs (c :: a)

/-- `ARRAY[i]`. -/
def element (w : List Char) : Option (Space × Nat) := do
  let (a, i) ← bracketed ']' w []
  return (← named spaceNames a, ← number i)

/-- `ARRAY[a..b)`. -/
def arraySlice (w : List Char) : Option (Space × Nat × Nat) := do
  let (a, r) ← bracketed ')' w []
  return (← named spaceNames a, ← range r [])

/-- The statement of a line's words: one of the forms of R72, with its commas, its `=` and its brackets, or none. -/
def statement : List (List Char) → Option Stmt
  | [] => none
  | k :: args =>
    match String.ofList k, args with
    | "wr", [n, [','], v] => do return .wr (← named regNames n) (← number v)
    | "rd", [n] => do return .rd (← named regNames n)
    | "wrb", [e, [','], b] => do
      let (sp, i) ← element e
      return .wrb sp i (← number b)
    | "rdb", [e] => do
      let (sp, i) ← element e
      return .rdb sp i
    | "cmd", [m] => do return .cmd (← named mnemonics m)
    | "expect", [n, ['='], v] => do return .expect (← named regNames n) (← number v)
    | "expectb", e :: ['='] :: hex => do
      let (sp, x, y) ← arraySlice e
      return .expectb sp x y (← hexWords hex)
    | "ld", a :: [','] :: hex => do return .ld (← named spaceNames a) (← hexWords hex)
    | "key", hex => do return .key (← hexWords hex)
    | "in", hex => do return .input (← hexWords hex)
    | "frm", hex => do return .frm (← hexWords hex)
    | "opts", hex => do return .opts (← hexWords hex)
    | "fctrl", [a, [','], r, [','], k, [','], p] => do
      return .fctrl (← number a) (← number r) (← number k) (← number p)
    | "mov", [d, [','], s] =>
      match named spaceNames d, named spaceNames s with
      | some .frm, some .obuf => some .movFrmObuf
      | some .ibuf, some .obuf => some .movIbufObuf
      | some .ibuf, some .frm => some .movIbufFrm
      | _, _ => none
    | _, _ => none

/-- How a line of a script reads. -/
inductive Line where
  /-- Nothing but space or a comment. -/
  | blank
  /-- A statement. -/
  | stmt (st : Stmt)
  /-- Text that R72 does not have. -/
  | bad
  deriving DecidableEq, Repr

/-- One access per line; `;` starts a comment (R72). -/
def readLine (cs : List Char) : Line :=
  match wordsFrom cs [] with
  | [] => .blank
  | ws =>
    match statement ws with
    | some st => .stmt st
    | none => .bad

/-- The hexadecimal digit of a value below 16. -/
def hexChar (d : Nat) : Char := Char.ofNat (if d < 10 then 48 + d else 55 + d)

/-- `n` hexadecimal digits of a number, most significant first, after `0x`. -/
def hexText (n v : Nat) : List Char :=
  '0' :: 'x' :: ((List.range n).map fun k => hexChar (v / 16 ^ (n - 1 - k) % 16))

/-- The digits R73 gives an offset: three below 0x1000, four from there on. -/
def offsetText (offset : Nat) : List Char := hexText (if offset < 0x1000 then 3 else 4) offset

/-- The text of a bus transaction (R73). R73 gives none for a reset, nor for a width other than 32 and 8; and it does
not say how a value that does not fit the access's width, or an offset that does not fit four digits, would be
written: the model's choice (log entry 10, DESIGN CHOICE) is that such a transaction has no text, so that no digit of
it is dropped. -/
def accessText : Access → Option (List Char)
  | .write 32 o v =>
    if o < 2 ^ 16 ∧ v < 2 ^ 32 then some ("W32 ".toList ++ offsetText o ++ [' '] ++ hexText 8 v) else none
  | .read 32 o => if o < 2 ^ 16 then some ("R32 ".toList ++ offsetText o) else none
  | .write 8 o v =>
    if o < 2 ^ 16 ∧ v < 2 ^ 8 then some ("W8 ".toList ++ offsetText o ++ [' '] ++ hexText 2 v) else none
  | .read 8 o => if o < 2 ^ 16 then some ("R8 ".toList ++ offsetText o) else none
  | .read _ _ | .write _ _ _ | .reset => none

end Sys2Proof.Machine.Text
end

