-- ==== Sys2Proof/Tests/Slice0.lean ====
section
/-! SUPPORT. Tests of the decoder, of each command and of the host port, with expected values from spec
95_test_vectors.md and the rules' own examples; and for every statement with hypotheses a witness that meets them,
with one for each clause at a boundary of its range. -/

namespace Sys2Proof.Tests

-- One theorem at a time: checking them side by side takes a thread, and so a stack, for each.
set_option Elab.async false

open Sys2Proof Sys2Proof.Machine

/-! ### Small states -/

/-- The `n` bytes that a number spells, first byte most significant. -/
def hex (n v : Nat) : List Byte := (le n (BitVec.ofNat (8 * n) v)).reverse

/-- K0 of 95_test_vectors.md. -/
def k0 : List Byte := hex 16 0x2B7E151628AED2A6ABF7158809CF4F3C

/-- `key K0` from reset. -/
def keyed : State := { State.reset.memWrite .key 0 k0 with keylen := 16 }

/-- `in b` on a state. -/
def withInput (s : State) (b : List Byte) : State :=
  { s.memWrite .ibuf 0 b with ilen := BitVec.ofNat 16 b.length }

/-- `frm b` on a state. -/
def withFrm (s : State) (b : List Byte) : State :=
  { s.memWrite .frm 0 b with frmlen := BitVec.ofNat 16 b.length }

/-- `opts b` on a state. -/
def withOpts (s : State) (b : List Byte) : State :=
  { s.memWrite .fopts 0 b with foptslen := BitVec.ofNat 4 b.length }

/-- Frame F1 in the registers, K0 loaded. -/
def f1 : State :=
  { withFrm keyed (hex 19 0xF1A6A1F455C86AC1501BF98044917244C0CA89) with
    mtype := 2, devaddr := 0xABCDEF12, adr := 1, fcnt := 0xABCD, fportv := 1, fport := 1 }

/-- Frame F2 in the registers, K0 loaded. -/
def f2 : State :=
  { withOpts (withFrm keyed (hex 4 0xBEA9078C)) (hex 3 0xAABBCC) with
    mtype := 5, devaddr := 0xABCD1234, ack := 1, fpending := 1, fcnt := 0x5602, fportv := 1, fport := 10 }

/-- Frame F2 as received. -/
def f2Bytes : List Byte := hex 20 0xA03412CDAB330256AABBCC0ABEA9078C92E394AB

/-- The shortest data frame (T6.8), 12 bytes. -/
def shortFrame : State := withInput State.reset (hex 12 0x4012EFCDAB00010011223344)

/-- Whether an outcome is a next state with a property. -/
def ends (r : Result) (p : State → Bool) : Bool :=
  match r with
  | .next t => p t
  | .fault _ => false
  | .refused _ => false

/-- Whether an outcome is a refusal for the given reason. -/
def refusedFor (r : Result) (q : Refusal) : Bool :=
  match r with
  | .next _ => false
  | .fault _ => false
  | .refused x => decide (x = q)

/-- The first `n` bytes of an array. -/
def front (s : State) (sp : Space) (n : Nat) : List Byte := s.memRead sp 0 n

/-! ### Well-formedness: a word with a bit set above bit 7 is ill-formed and refused (R70) -/

theorem test_wellFormed_refuses_upper_bits :
    commandWordWellFormed 0x00000140 = false ∧ decode 0x00000140 = .error .upperBitsSet := ⟨rfl, rfl⟩
theorem test_wellFormed_refuses_bit_31 :
    commandWordWellFormed 0x80000010 = false ∧ decode 0x80000010 = .error .upperBitsSet := ⟨rfl, rfl⟩
theorem test_decode_refuses_unknown_opcode : decode 0x00000099 = .error .unknownOpcode := rfl

/-! ### Decoding, each word written out bit by bit from R71's opcode -/

theorem test_decode_encFctrl : decode 0b00000000000000000000000000010000 = .ok .encFctrl := rfl
theorem test_decode_decFctrl : decode 0b00000000000000000000000000010001 = .ok .decFctrl := rfl
theorem test_decode_encMhdr : decode 0b00000000000000000000000000010010 = .ok .encMhdr := rfl
theorem test_decode_decMhdr : decode 0b00000000000000000000000000010011 = .ok .decMhdr := rfl
theorem test_decode_serFhdr : decode 0b00000000000000000000000000100000 = .ok .serFhdr := rfl
theorem test_decode_parFhdr : decode 0b00000000000000000000000000100001 = .ok .parFhdr := rfl
theorem test_decode_serData : decode 0b00000000000000000000000000110000 = .ok .serData := rfl
theorem test_decode_parData : decode 0b00000000000000000000000000110001 = .ok .parData := rfl
theorem test_decode_crypt : decode 0b00000000000000000000000001000000 = .ok .crypt := rfl
theorem test_decode_mic : decode 0b00000000000000000000000001010000 = .ok .mic := rfl
theorem test_decode_micFrame : decode 0b00000000000000000000000001010001 = .ok .micFrame := rfl
theorem test_decode_serPhy : decode 0b00000000000000000000000001100000 = .ok .serPhy := rfl
theorem test_decode_parPhy : decode 0b00000000000000000000000001100001 = .ok .parPhy := rfl

theorem test_decodeTableWord : decodeTableWord 32 0x61 = some .parPhy ∧ decodeTableWord 32 0x62 = none := ⟨rfl, rfl⟩
theorem test_withFetchWord_runs_the_command :
    ends (step (State.reset.withFetchWord 32 0x20)) (fun t => t.lastop == 0x20 && t.olen == 7 && t.err == 0) = true := by
  decide

/-! ### Commands: V1 to V5 and the T vectors -/

theorem test_encFctrl_V1 :
    ends (exec .encFctrl { State.reset with adr := 1, ack := 1, foptslen := 3 }) (fun t => t.byte == 0xA3) = true := by
  decide
theorem test_encFctrl_V2 :
    ends (exec .encFctrl { State.reset with adrackreq := 1, fpending := 1, foptslen := 15 })
      (fun t => t.byte == 0x5F) = true := by decide
theorem test_decFctrl_T1_4 :
    ends (exec .decFctrl { State.reset with byte := 0xA3 })
      (fun t => t.adr == 1 && t.adrackreq == 0 && t.ack == 1 && t.fpending == 0 && t.foptslen == 3) = true := by decide
theorem test_decFctrl_T1_5 :
    ends (exec .decFctrl { State.reset with byte := 0x5F })
      (fun t => t.adr == 0 && t.adrackreq == 1 && t.ack == 0 && t.fpending == 1 && t.foptslen == 15) = true := by decide
theorem test_encMhdr_T1_9 :
    ends (exec .encMhdr { State.reset with mtype := 7, major := 3 }) (fun t => t.byte == 0xE3 && t.err == 0) = true := by
  decide
theorem test_encMhdr_T1_10 :
    ends (exec .encMhdr { State.reset with major := 1 }) (fun t => t.byte == 0x01) = true := by decide
theorem test_decMhdr_T1_11 :
    ends (exec .decMhdr { State.reset with byte := 0xFF }) (fun t => t.mtype == 7 && t.major == 3) = true := by decide
theorem test_decMhdr_T1_12 :
    ends (exec .decMhdr { State.reset with byte := 0x48 }) (fun t => t.mtype == 2 && t.major == 0) = true := by decide
theorem test_serFhdr_V3 :
    ends (exec .serFhdr { State.reset with devaddr := 0xABCD1234, fcnt := 0x5602 })
      (fun t => t.olen == 7 && front t .obuf 8 == hex 8 0x3412CDAB00025600) = true := by decide +kernel
theorem test_serFhdr_T2_2 :
    ends (exec .serFhdr f2) (fun t => t.olen == 10 && front t .obuf 10 == hex 10 0x3412CDAB330256AABBCC) = true := by
  decide +kernel
theorem test_parFhdr_T2_5 :
    ends (exec .parFhdr (withInput State.reset (hex 11 0x3412CDAB030256AABBCCDD)))
      (fun t => t.err == 0 && t.devaddr == 0xABCD1234 && t.foptslen == 3 && t.fcnt == 0x5602 &&
        front t .fopts 4 == hex 4 0xAABBCC00 && t.fportv == 0) = true := by decide +kernel
theorem test_parFhdr_T2_6 :
    ends (exec .parFhdr (withInput State.reset (hex 22 0xFFFFFFFFFFFFFF0102030405060708090A0B0C0D0E0F)))
      (fun t => t.devaddr == 0xFFFFFFFF && t.adr == 1 && t.foptslen == 15 && t.fcnt == 0xFFFF &&
        front t .fopts 15 == hex 15 0x0102030405060708090A0B0C0D0E0F) = true := by decide +kernel
theorem test_serData_T3_8 :
    ends (exec .serData { withFrm State.reset (hex 2 0xDEAD) with
        devaddr := 0xABCD1234, fcnt := 0x5602, fportv := 1, fport := 10 })
      (fun t => t.olen == 10 && front t .obuf 10 == hex 10 0x3412CDAB0002560ADEAD) = true := by decide +kernel
theorem test_serData_T3_10 :
    ends (exec .serData { State.reset with fport := 9 }) (fun t => t.olen == 7 && front t .obuf 8 == zeros 8) = true := by
  decide +kernel
theorem test_parData_T3_2 :
    ends (exec .parData (withInput State.reset (hex 8 0x3412CDAB0002560A)))
      (fun t => t.err == 0 && t.fportv == 1 && t.fport == 10 && t.frmlen == 0) = true := by decide +kernel
theorem test_parData_T3_15 :
    ends (exec .parData { withInput (withFrm State.reset (hex 2 0xDEAD)) (hex 7 0x3412CDAB000256) with
        fportv := 1, fport := 10 })
      (fun t => t.fportv == 0 && t.fport == 0 && t.frmlen == 0 && front t .frm 2 == hex 2 0xDEAD) = true := by
  decide +kernel
theorem test_crypt_V5 :
    ends (exec .crypt { withInput keyed (hex 19 0x596F75206C6F6F6B20676F6F642C204C6F7261) with
        dir := 1, devaddr := 0xABCDEF12, fcnt := 0xABCD })
      (fun t => t.olen == 19 && front t .obuf 19 == hex 19 0xEC2A32AF5556DF4647B4620C509EC73C79E409) = true := by
  decide +kernel
theorem test_crypt_T4_10 :
    ends (exec .crypt { withInput State.reset (zeros 16) with keylen := 16 })
      (fun t => front t .obuf 16 == hex 16 0xD578F20D00958C6C506E36769EADCE6E) = true := by decide +kernel
theorem test_mic_T5_3 :
    ends (exec .mic { keyed with mtype := 3 }) (fun t => front t .mic 4 == hex 4 0x58F9BEDE) = true := by decide +kernel
theorem test_mic_T5_5 :
    ends (exec .mic { withInput keyed [0x40] with mtype := 2 })
      (fun t => front t .mic 4 == hex 4 0x2F1C0427) = true := by decide +kernel
theorem test_micFrame_T5_14 :
    ends (exec .micFrame f1) (fun t => front t .mic 4 == hex 4 0x5657FF39) = true := by decide +kernel
theorem test_micFrame_T5_17 :
    ends (exec .micFrame { keyed with mtype := 2, major := 1 })
      (fun t => t.err == 0 && front t .mic 4 == hex 4 0x29385662) = true := by decide +kernel
theorem test_serPhy_T6_16 :
    ends (exec .serPhy { State.reset.memWrite .mic 0 (hex 4 0x01020304) with
        mtype := 3, major := 2, fportv := 1, fport := 0xFF })
      (fun t => t.olen == 13 && front t .obuf 13 == hex 13 0x6200000000000000FF01020304) = true := by decide +kernel
theorem test_serPhy_T6_18 :
    ends (exec .serPhy (f2.memWrite .mic 0 (hex 4 0x92E394AB)))
      (fun t => t.olen == 20 && front t .obuf 20 == f2Bytes) = true := by decide +kernel
theorem test_parPhy_T6_13 :
    ends (exec .parPhy (withInput keyed f2Bytes))
      (fun t => t.viewData == f2.viewData && t.mtype == 5 && front t .mic 4 == hex 4 0x92E394AB) = true := by
  decide +kernel
theorem test_parPhy_T6_11 :
    ends (exec .parPhy (withInput State.reset (hex 12 0x4112EFCDAB00010011223344)))
      (fun t => t.err == 3 && t.errinfo == 0x43 && t.mtype == 2 && t.major == 1 && front t .mic 4 == hex 4 0x11223344 &&
        t.devaddr == 0 && t.fcnt == 0) = true := by decide +kernel

/-! ### The command word, the host port and reset: T7 -/

theorem test_bad_word_T7_3 :
    ends (access (.write 32 0x000 0x140) keyed) (fun t => t.err == 11 && t.errinfo == 0x19 && t.lastop == 0x40) = true := by
  decide
theorem test_error_does_not_latch_T7_4 :
    ends (access (.write 32 0x000 0x10) { State.reset with err := 6, errinfo := 0x55 })
      (fun t => t.err == 0 && t.errinfo == 0) = true := by decide
theorem test_refused_T7_6 :
    refusedFor (access (.write 32 0x004 1) State.reset) .notWritable = true ∧
    refusedFor (access (.write 8 0x3000 0) State.reset) .notWritable = true ∧
    refusedFor (access (.write 32 0x058 0) State.reset) .unmappedOffset = true ∧
    refusedFor (access (.write 8 0x018 0) State.reset) .wrongWidth = true ∧
    refusedFor (access (.write 32 0x012 0) State.reset) .unmappedOffset = true ∧
    refusedFor (access (.write 32 0x100 0) State.reset) .wrongWidth = true ∧
    refusedFor (access (.write 32 0x010 8) State.reset) .valueTooWide = true ∧
    refusedFor (access (.write 32 0x02C 16) State.reset) .valueTooWide = true ∧
    refusedFor (access (.write 32 0x01C 2) State.reset) .valueTooWide = true := by decide
theorem test_cap_T7_7 : ends (access (.read 32 0x054) State.reset) (fun t => t.reply == some 512) = true := by decide
theorem test_reset_T7_8 : ends (step { f1 with pending := [.reset] }) (fun t => t == State.reset) = true := by decide +kernel

/-- R73's examples of statements and their transactions. -/
theorem test_script_lines :
    Text.readLine "wr MTYPE, 2".toList = .stmt (.wr .mtype 2) ∧
    Text.readLine "cmd CRYPT ; run it".toList = .stmt (.cmd .crypt) ∧
    Text.readLine "wrb KEY[3], 0x16".toList = .stmt (.wrb .key 3 0x16) ∧
    Text.readLine "expectb MIC[0..4) = 5657 FF39".toList = .stmt (.expectb .mic 0 4 [0x56, 0x57, 0xFF, 0x39]) := by
  decide +kernel
theorem test_script_transactions :
    (Stmt.wr .mtype 2).transactions State.reset = [(.write 32 0x010 2, none)] ∧
    (Stmt.cmd .crypt).transactions State.reset = [(.write 32 0x000 0x40, none)] ∧
    (Stmt.wrb .key 3 0x16).transactions State.reset = [(.write 8 0x103 0x16, none)] ∧
    Text.accessText (.write 32 0x010 2) = some "W32 0x010 0x00000002".toList ∧
    Text.accessText (.read 8 0x3000) = some "R8 0x3000".toList := by decide +kernel

/-- Lines without R72's comma, `=` or brackets are no statements. -/
theorem test_script_bad_lines :
    ∀ l ∈ ["wr MTYPE 2", "rdb MIC 0", "rdb MIC[0)", "wrb KEY[3] 1", "expect ERR 0", "expectb MIC[0..4] = 00", "fctrl 1 0 0 0",
      "mov FRM OBUF", "rd MIC[0]", "in 5,6"], Text.readLine l.toList = .bad := by decide +kernel
/-- `expect ERR = 4294967296` does not hold at ERR = 0. -/
theorem test_expect_cuts_nothing :
    runScript [.expect .err 0] State.reset = .done { State.reset with reply := some 0 } ∧
    runScript [.expect .err 4294967296] State.reset = .assertionFailed { State.reset with reply := some 0 } := by
  decide +kernel
theorem test_accessText_drops_no_digit :
    Text.accessText (.write 32 0x010 4294967296) = none ∧ Text.accessText (.write 8 0x103 256) = none ∧
    Text.accessText (.write 8 0x103 255) = some "W8 0x103 0xFF".toList := by decide +kernel

/-! ### Witnesses: concrete states and operands that meet the hypotheses of each statement

Named after the statement. A statement with no hypothesis has none. -/

/-- A state with accesses issued. -/
def issued (s : State) (l : List Access) : State := { s with pending := l }

theorem witness_StepRunsDecodedCommand :
    (issued f1 [.write 32 0 (0x40 : Word).toNat, .read 32 4]).pending = .write 32 0 (0x40 : Word).toNat :: [.read 32 4] ∧
      decode 0x40 = .ok .crypt := ⟨rfl, rfl⟩

/-- The first word with a bit above bit 7, the words beside an opcode, and the words of the first and last opcode. -/
theorem witness_CommandWordStartsCommand :
    (issued f1 [.write 32 0 (0x100 : Word).toNat]).pending = [.write 32 0 (0x100 : Word).toNat] ∧
    (0x100 : Word).extractLsb' 8 24 ≠ 0 ∧
    (0x0F : Word).extractLsb' 0 8 ∉
      ([0x10, 0x11, 0x12, 0x13, 0x20, 0x21, 0x30, 0x31, 0x40, 0x50, 0x51, 0x60, 0x61] : List Byte) ∧
    (0x62 : Word).extractLsb' 0 8 ∉
      ([0x10, 0x11, 0x12, 0x13, 0x20, 0x21, 0x30, 0x31, 0x40, 0x50, 0x51, 0x60, 0x61] : List Byte) ∧
    (0x10 : Word).extractLsb' 8 24 = 0 ∧ (0x10 : Word).extractLsb' 0 8 = 0x10 ∧
    (0x61 : Word).extractLsb' 8 24 = 0 ∧ (0x61 : Word).extractLsb' 0 8 = 0x61 := by
  decide +kernel

theorem witness_IdleCoreHoldsItsState : f1.pending = [] := by decide +kernel

/-- The offsets and widths at which a read is admitted, as the statement writes them. -/
abbrev readAdmitted (cap bits o : Nat) : Prop :=
  bits = 32 ∧ o < 0x058 ∧ o % 4 = 0 ∨
    bits = 8 ∧ (0x100 ≤ o ∧ o ≤ 0x11E ∨ 0x120 ≤ o ∧ o ≤ 0x123 ∨ 0x1000 ≤ o ∧ o < 0x1000 + cap ∨
      0x2000 ≤ o ∧ o < 0x2000 + cap ∨ 0x3000 ≤ o ∧ o < 0x3000 + cap)

/-- Both sides of every boundary of the map for capacity 512, and both wrong widths. -/
theorem witness_HostReadAdmittedExactlyWhereMapped :
    (∀ p ∈ ([(32, 0), (32, 0x54), (8, 0x100), (8, 0x11E), (8, 0x120), (8, 0x123), (8, 0x1000), (8, 0x11FF),
        (8, 0x2000), (8, 0x21FF), (8, 0x3000), (8, 0x31FF)] : List (Nat × Nat)), readAdmitted 512 p.1 p.2) ∧
    (∀ p ∈ ([(32, 0x53), (32, 0x58), (8, 0x54), (8, 0xFF), (32, 0x100), (8, 0x11F), (8, 0x124), (8, 0xFFF),
        (8, 0x1200), (8, 0x1FFF), (8, 0x2200), (8, 0x2FFF), (8, 0x3200), (8, 0x4000), (16, 0)] : List (Nat × Nat)),
      ¬ readAdmitted 512 p.1 p.2) := by decide

/-- The accesses at which a write is admitted, as the statement writes them. -/
abbrev writeAdmitted (cap bits o v : Nat) : Prop :=
  (bits = 32 ∧ ∃ p ∈ ([(0x000, 32), (0x010, 3), (0x014, 2), (0x018, 32), (0x01C, 1), (0x020, 1), (0x024, 1),
      (0x028, 1), (0x02C, 4), (0x030, 16), (0x034, 1), (0x038, 8), (0x03C, 16), (0x040, 8), (0x044, 1), (0x048, 8),
      (0x04C, 16)] : List (Nat × Nat)), o = p.1 ∧ v < 2 ^ p.2) ∨
  (bits = 8 ∧ v < 256 ∧ (0x100 ≤ o ∧ o ≤ 0x11E ∨ 0x120 ≤ o ∧ o ≤ 0x123 ∨
    0x1000 ≤ o ∧ o < 0x1000 + cap ∨ 0x2000 ≤ o ∧ o < 0x2000 + cap))

/-- The largest and the first too large value of a register, the last bytes of FRM and IBUF at the largest capacity,
read-only targets and wrong widths. -/
theorem witness_HostWriteAdmittedExactlyWhereWritable :
    (State.resetWith 4096).cap.toNat ≤ 4096 ∧
    (∀ p ∈ ([(32, 0, 0xFFFFFFFF), (32, 0x10, 7), (32, 0x2C, 15), (32, 0x4C, 65535), (8, 0x11E, 255), (8, 0x123, 0),
        (8, 0x1FFF, 255), (8, 0x2FFF, 255)] : List (Nat × Nat × Nat)), writeAdmitted 4096 p.1 p.2.1 p.2.2) ∧
    (∀ p ∈ ([(32, 0, 0x100000000), (32, 0x10, 8), (32, 0x2C, 16), (32, 4, 0), (32, 0x50, 0), (32, 0x54, 0), (8, 0x10, 0),
        (8, 0x100, 256), (8, 0x11F, 0), (8, 0x3000, 0), (32, 0x100, 0)] : List (Nat × Nat × Nat)),
      ¬ writeAdmitted 4096 p.1 p.2.1 p.2.2) := by decide

theorem witness_HostReadHasNoSideEffect : ∃ t, access (.read 32 0x004) f1 = .next t := ⟨_, rfl⟩

/-- The last byte of every array, at the default and at the largest capacity. -/
theorem witness_HostReadReturnsTheValue :
    (∀ p ∈ ([(.key, 15), (.fopts, 14), (.mic, 3), (.frm, 511), (.ibuf, 511), (.obuf, 511)] : List (Space × Nat)),
      State.reset.cap.toNat ≤ 4096 ∧ p.2 < p.1.size State.reset.cap.toNat) ∧
    (State.resetWith 4096).cap.toNat ≤ 4096 ∧ 4095 < Space.obuf.size (State.resetWith 4096).cap.toNat := by decide

/-- The largest value of a field register. -/
theorem witness_FieldWriteStoresItsValueOnly :
    Reg.mtype.hostWritable = true ∧ Reg.mtype ≠ .cmd ∧ 7 < 2 ^ Reg.mtype.width ∧
    Reg.devaddr.hostWritable = true ∧ Reg.devaddr ≠ .cmd ∧ 0xFFFFFFFF < 2 ^ Reg.devaddr.width ∧
    (∃ r', r' ≠ Reg.mtype) := ⟨rfl, by decide, by decide, rfl, by decide, by decide, .cap, by decide⟩

/-- The last byte of every array the host may write. -/
theorem witness_ArrayWriteStoresItsByteOnly :
    Memory.wf f2.mem ∧ f2.cap.toNat ≤ 4096 ∧
    ∀ p ∈ ([(.key, 15), (.fopts, 14), (.mic, 3), (.frm, 511), (.ibuf, 511)] : List (Space × Nat)),
      p.1 ≠ .obuf ∧ p.2 < p.1.size f2.cap.toNat ∧ 255 < 256 := by decide +kernel

theorem witness_CapNeverChanges : ∃ t, step (issued (State.resetWith 259) [.write 32 0x4C 7]) = .next t := ⟨_, rfl⟩

theorem witness_ResetStateIsAllZeroButCap : Reg.err ≠ .cap ∧ Reg.mtype ≠ .cap := by decide

theorem witness_ResetAccessTakesTheResetState : (issued f1 [.reset, .read 32 0]).pending = .reset :: [.read 32 0] := rfl

/-- A state that meets the invariant with a command, an array write and a reset issued, and its step. -/
theorem witness_StepKeepsInvariant :
    (issued f1 [.write 32 0 0x51, .write 8 0x2000 1, .reset]).Inv ∧
      ∃ t, step (issued f1 [.write 32 0 0x51, .write 8 0x2000 1, .reset]) = .next t :=
  ⟨⟨by decide +kernel, by decide +kernel, by decide +kernel, by decide +kernel, by decide +kernel⟩, _, rfl⟩

/-- A command that changes nothing but its status, and the one that does. -/
theorem witness_FailedCommandChangesOnlyItsStatus :
    (∃ t, exec .crypt State.reset = .next t ∧ t.err ≠ 0) ∧
    ∃ t, exec .parPhy (withInput State.reset (hex 5 0xE100000000)) = .next t ∧ t.err ≠ 0 :=
  ⟨⟨_, rfl, by decide +kernel⟩, _, rfl, by decide +kernel⟩

theorem witness_CodesSevenAndEightNeverRaised :
    (∃ t, exec .crypt keyed = .next t) ∧ ∃ t, writeCommand 0x99 keyed = .next t := ⟨⟨_, rfl⟩, _, rfl⟩

theorem witness_EarlierStatusDoesNotMatter : ∃ t, exec .micFrame f1 = .next t := ⟨_, rfl⟩

/-- Two states that differ in FRM's bytes, BYTE and FPORT and agree on what PAR_PHY reads, on a frame it accepts; and
two that differ in MTYPE and agree on what CRYPT reads. -/
theorem witness_ResultDependsOnlyOnWhatIsRead :
    (let s := withInput f1 f2Bytes
     let s' := { withInput State.reset f2Bytes with byte := 7, fport := 9 }
     Memory.wf s.mem ∧ Memory.wf s'.mem ∧ s.capLegal ∧ agreeOnReads .parPhy s s' ∧
       (∃ t, exec .parPhy s = .next t ∧ t.err = 0) ∧ ∃ t, exec .parPhy s' = .next t) ∧
    (let s := withInput keyed [1, 2, 3]
     let s' := { withInput keyed [1, 2, 3] with mtype := 5 }
     Memory.wf s.mem ∧ Memory.wf s'.mem ∧ s.capLegal ∧ agreeOnReads .crypt s s' ∧
       (∃ t, exec .crypt s = .next t ∧ t.err = 0) ∧ ∃ t, exec .crypt s' = .next t) := by
  refine ⟨⟨by decide +kernel, by decide +kernel, by decide +kernel, ?_, ⟨_, rfl, by decide +kernel⟩, _, rfl⟩,
    ⟨by decide +kernel, by decide +kernel, by decide +kernel, ?_, ⟨_, rfl, by decide +kernel⟩, _, rfl⟩⟩
  all_goals
    unfold agreeOnReads
    decide +kernel

/-- PAR_DATA writes FOPTS and FRM: the first byte after FOPTS, MIC and the last byte before FRM are not theirs. -/
theorem witness_CommandWritesOnlyItsFootprint :
    (withInput f1 f2Bytes).capLegal ∧ (∃ t, exec .parData (withInput f1 f2Bytes) = .next t) ∧
    (Reg.mtype ∉ writtenRegs .parData ∧ Reg.mtype ≠ .err ∧ Reg.mtype ≠ .errinfo) ∧
    ∀ a ∈ [0x10F, 0x11F, 0x120, 0xFFF, 0x1200], ∀ sp ∈ writtenSpaces .parData,
      sp.holds (withInput f1 f2Bytes).bufCap a = false := by
  refine ⟨by decide +kernel, ⟨_, rfl⟩, by decide, by decide +kernel⟩

theorem witness_FctrlRoundTripsBitForBit :
    (∃ t u, exec .decFctrl { f1 with byte := 0xFF } = .next t ∧ exec .encFctrl t = .next u) ∧
    ∃ t u, exec .encFctrl f2 = .next t ∧ exec .decFctrl t = .next u := ⟨⟨_, _, rfl, rfl⟩, _, _, rfl, rfl⟩

theorem witness_MhdrRoundTripsButForRfuBits :
    (∃ t u, exec .encMhdr f2 = .next t ∧ exec .decMhdr t = .next u) ∧
    ∃ t u, exec .decMhdr { f1 with byte := 0x5C } = .next t ∧ exec .encMhdr t = .next u :=
  ⟨⟨_, _, rfl, rfl⟩, _, _, rfl, rfl⟩

theorem witness_SerFhdrStoresTheHeader : Memory.wf f2.mem := by decide +kernel

/-- PAR_FHDR at its shortest input, ILEN = 7 with no options, and with options that just fit. -/
theorem witness_ParFhdrReadsTheHeader :
    (let s := withInput State.reset (hex 7 0x3412CDAB000256)
     Memory.wf s.mem ∧ s.ilen.toNat ≤ s.cap.toNat ∧ s.ilen.toNat = 7 ∧
       (s.mem.read 0x2004).toNat % 16 ≤ s.ilen.toNat - 7) ∧
    (let s := withInput State.reset (hex 10 0x3412CDAB030256AABBCC)
     Memory.wf s.mem ∧ s.ilen.toNat ≤ s.cap.toNat ∧ 7 ≤ s.ilen.toNat ∧
       (s.mem.read 0x2004).toNat % 16 = s.ilen.toNat - 7) := by decide +kernel

/-- ILEN = BUF_CAP + 1, ILEN = 6, and options one byte too many (T2.8, T2.3, T2.4). -/
theorem witness_ParFhdrErrorsInOrder :
    (let s := { State.reset with ilen := 513 }
     s.cap.toNat < s.ilen.toNat) ∧
    (let s := withInput State.reset (hex 6 0x3412CDAB0302)
     s.ilen.toNat ≤ s.cap.toNat ∧ s.ilen.toNat < 7) ∧
    (let s := withInput State.reset (hex 9 0x3412CDAB030256AABB)
     s.ilen.toNat ≤ s.cap.toNat ∧ 7 ≤ s.ilen.toNat ∧ s.ilen.toNat - 7 < (s.mem.read 0x2004).toNat % 16) := by
  decide +kernel

/-- The output exactly BUF_CAP bytes (T3.12), no port (T3.10), and a whole frame. -/
theorem witness_SerDataStoresThePayload :
    (∀ s ∈ [{ State.reset with fportv := 1, frmlen := 504 }, { State.reset with fport := 9 }, f2],
      Memory.wf s.mem ∧ s.frmlen.toNat ≤ s.cap.toNat ∧ (s.fportv = 0 → s.frmlen = 0) ∧
        s.dataWireLength ≤ s.cap.toNat) ∧
    ({ State.reset with fportv := 1, frmlen := 504 } : State).dataWireLength = 512 := by decide +kernel

/-- T3.14, T3.11 and T3.13. -/
theorem witness_SerDataErrorsInOrder :
    (let s := { State.reset with fportv := 1, frmlen := 513 }
     s.cap.toNat < s.frmlen.toNat) ∧
    (let s := { State.reset with frmlen := 1 }
     s.frmlen.toNat ≤ s.cap.toNat ∧ s.fportv = 0 ∧ 0 < s.frmlen.toNat) ∧
    (let s := { State.reset with fportv := 1, frmlen := 505 }
     s.frmlen.toNat ≤ s.cap.toNat ∧ (s.fportv = 0 → s.frmlen = 0) ∧ s.cap.toNat < s.dataWireLength) := by decide +kernel

/-- No byte, one byte and three bytes after the header (T3.6, T3.2, T3.3). -/
theorem witness_ParDataReadsThePayload :
    ∀ b ∈ [hex 8 0x3412CDAB010256EE, hex 8 0x3412CDAB0002560A, hex 10 0x3412CDAB0002560ADEAD],
      let s := withInput State.reset b
      Memory.wf s.mem ∧ s.ilen.toNat ≤ s.cap.toNat ∧ 7 ≤ s.ilen.toNat ∧
        (s.mem.read 0x2004).toNat % 16 ≤ s.ilen.toNat - 7 := by decide +kernel

/-- ILEN = BUF_CAP + 1, ILEN = 6 (T3.4), one option byte missing (T3.5). -/
theorem witness_ParDataErrorsInOrder :
    (let s := { State.reset with ilen := 513 }
     s.cap.toNat < s.ilen.toNat) ∧
    (let s := withInput State.reset (hex 6 0x3412CDAB0002)
     s.ilen.toNat ≤ s.cap.toNat ∧ s.ilen.toNat < 7) ∧
    (let s := withInput State.reset (hex 7 0x3412CDAB010256)
     s.ilen.toNat ≤ s.cap.toNat ∧ 7 ≤ s.ilen.toNat ∧ s.ilen.toNat - 7 < (s.mem.read 0x2004).toNat % 16) := by
  decide +kernel

/-- No input (T4.7), the last byte of the first block and the first of the second, and the longest input (T4.16). -/
theorem witness_CryptXorsTheKeystream :
    (∀ s ∈ [keyed, withInput keyed (zeros 17), { State.resetWith 4096 with keylen := 16, ilen := 4080 }],
      Memory.wf s.mem ∧ s.ilen.toNat ≤ s.cap.toNat ∧ s.keylen = 16 ∧ s.ilen.toNat ≤ 4080) ∧
    15 < (withInput keyed (zeros 17)).ilen.toNat ∧ 16 < (withInput keyed (zeros 17)).ilen.toNat ∧
    4079 < ({ State.resetWith 4096 with keylen := 16, ilen := 4080 } : State).ilen.toNat := by decide +kernel

/-- T4.15, T4.12, and T4.17 on a core of capacity 4096. -/
theorem witness_CryptErrorsInOrder :
    (let s := { State.reset with ilen := 513 }
     s.cap.toNat < s.ilen.toNat) ∧
    (let s := { keyed with keylen := 15 }
     s.ilen.toNat ≤ s.cap.toNat ∧ s.keylen ≠ 16) ∧
    (let s := { State.resetWith 4096 with keylen := 16, ilen := 4081 }
     s.ilen.toNat ≤ s.cap.toNat ∧ s.keylen = 16 ∧ 4080 < s.ilen.toNat) := by decide +kernel

theorem witness_CryptTwiceRestoresTheInput :
    (withInput keyed (hex 3 0x596F75)).Inv ∧
    (let s := withInput keyed (hex 3 0x596F75)
     s.ilen.toNat ≤ s.bufCap ∧ s.keylen = 16 ∧ s.ilen.toNat ≤ 4080) :=
  ⟨⟨by decide +kernel, by decide +kernel, by decide +kernel, by decide +kernel, by decide +kernel⟩, by decide +kernel⟩

theorem witness_KeystreamDependsOnNoData : ([1, 2] : List Byte).length = ([3, 4] : List Byte).length := rfl

/-- The shortest and the longest message, each at an uplink and a downlink type (T5.1, T5.4, T5.6). -/
theorem witness_MicTagsTheInput :
    ∀ s ∈ [{ keyed with mtype := 2 }, { keyed with mtype := 5 }, { keyed with mtype := 3, ilen := 255 }],
      Memory.wf s.mem ∧ s.ilen.toNat ≤ s.cap.toNat ∧ 2 ≤ s.mtype.toNat ∧ s.mtype.toNat ≤ 5 ∧ s.ilen.toNat ≤ 255 ∧
        s.keylen = 16 := by decide +kernel

/-- ILEN = 513; types 1 and 6 (T5.12); ILEN = 256 (T5.7); no key (T5.13). -/
theorem witness_MicErrorsInOrder :
    (let s := { State.reset with ilen := 513 }
     s.cap.toNat < s.ilen.toNat) ∧
    (∀ m ∈ ([1, 6] : List (BitVec 3)),
      let s := { keyed with mtype := m }
      s.ilen.toNat ≤ s.cap.toNat ∧ (s.mtype.toNat < 2 ∨ 5 < s.mtype.toNat)) ∧
    (let s := { keyed with mtype := 2, ilen := 256 }
     s.ilen.toNat ≤ s.cap.toNat ∧ 2 ≤ s.mtype.toNat ∧ s.mtype.toNat ≤ 5 ∧ 255 < s.ilen.toNat) ∧
    (let s := { State.reset with mtype := 5, ilen := 255 }
     s.ilen.toNat ≤ s.cap.toNat ∧ 2 ≤ s.mtype.toNat ∧ s.mtype.toNat ≤ 5 ∧ s.ilen.toNat ≤ 255 ∧ s.keylen ≠ 16) := by
  decide +kernel

/-- Frames F1 and F2, and the longest image, 255 bytes (T5.18). -/
theorem witness_MicFrameTagsTheFrame :
    (∀ s ∈ [f1, f2, { keyed with mtype := 2, fportv := 1, frmlen := 246 }],
      Memory.wf s.mem ∧ 2 ≤ s.mtype.toNat ∧ s.mtype.toNat ≤ 5 ∧ s.frmlen.toNat ≤ s.cap.toNat ∧
        (s.fportv = 0 → s.frmlen = 0) ∧ 1 + s.dataWireLength ≤ 255 ∧ s.keylen = 16) ∧
    1 + ({ keyed with mtype := 2, fportv := 1, frmlen := 246 } : State).dataWireLength = 255 := by decide +kernel

/-- T5.20, T5.21; FRMLEN = 513; T5.22; T5.19; no key. -/
theorem witness_MicFrameErrorsInOrder :
    ({ State.reset with mtype := 1 } : State).mtype.toNat < 2 ∧ 5 < ({ State.reset with mtype := 6 } : State).mtype.toNat ∧
    (let s := { State.reset with mtype := 2, fportv := 1, frmlen := 513 }
     2 ≤ s.mtype.toNat ∧ s.mtype.toNat ≤ 5 ∧ s.cap.toNat < s.frmlen.toNat) ∧
    (let s := { State.reset with mtype := 5, frmlen := 1 }
     2 ≤ s.mtype.toNat ∧ s.mtype.toNat ≤ 5 ∧ s.frmlen.toNat ≤ s.cap.toNat ∧ s.fportv = 0 ∧ 0 < s.frmlen.toNat) ∧
    (let s := { State.reset with mtype := 2, fportv := 1, frmlen := 247 }
     2 ≤ s.mtype.toNat ∧ s.mtype.toNat ≤ 5 ∧ s.frmlen.toNat ≤ s.cap.toNat ∧ (s.fportv = 0 → s.frmlen = 0) ∧
       255 < 1 + s.dataWireLength) ∧
    (let s := { State.reset with mtype := 2, fportv := 1, frmlen := 246 }
     2 ≤ s.mtype.toNat ∧ s.mtype.toNat ≤ 5 ∧ s.frmlen.toNat ≤ s.cap.toNat ∧ (s.fportv = 0 → s.frmlen = 0) ∧
       1 + s.dataWireLength ≤ 255 ∧ s.keylen ≠ 16) := by decide +kernel

/-- Frame F1 in the registers and its image in IBUF (T5.8, T5.14). -/
theorem witness_MicFrameIsMicOfTheImage :
    let s := f1
    let s' := withInput { keyed with mtype := 2, devaddr := 0xABCDEF12, fcnt := 0xABCD }
      (hex 28 0x4012EFCDAB80CDAB01F1A6A1F455C86AC1501BF98044917244C0CA89)
    Memory.wf s.mem ∧ Memory.wf s'.mem ∧ (∃ t, exec .micFrame s = .next t ∧ t.err = 0) ∧
      s'.mtype = s.mtype ∧ s'.devaddr = s.devaddr ∧ s'.fcnt = s.fcnt ∧ s'.keylen = s.keylen ∧
      s'.mem.readBytes 0x100 16 = s.mem.readBytes 0x100 16 ∧ s'.ilen.toNat ≤ s'.cap.toNat ∧
      s'.mem.readBytes 0x2000 s'.ilen.toNat = s.mhdrByte :: s.dataWire ∧ ∃ t', exec .mic s' = .next t' := by
  refine ⟨by decide +kernel, by decide +kernel, ⟨_, rfl, by decide +kernel⟩, ?_, ?_, ?_, ?_, ?_, ?_, ?_, _, rfl⟩ <;>
    decide +kernel

theorem witness_MicDependsOnTypeOnlyByDirection :
    (∃ t, exec .mic { keyed with mtype := 2 } = .next t) ∧ ({ keyed with mtype := 2 } : State).mtype = 2 ∧
    (∃ t, exec .mic { keyed with mtype := 3 } = .next t) ∧ ({ keyed with mtype := 3 } : State).mtype = 3 :=
  ⟨⟨_, rfl⟩, rfl, ⟨_, rfl⟩, rfl⟩

/-- The shortest frame (T6.15), MAJOR not 0 (T6.16), and the output exactly BUF_CAP bytes (T6.21). -/
theorem witness_SerPhyStoresTheFrame :
    (∀ s ∈ [{ State.reset with mtype := 2 }, { State.reset with mtype := 5, major := 2, fportv := 1 },
        { State.reset with mtype := 2, fportv := 1, frmlen := 499 }],
      Memory.wf s.mem ∧ 2 ≤ s.mtype.toNat ∧ s.mtype.toNat ≤ 5 ∧ s.frmlen.toNat ≤ s.cap.toNat ∧
        (s.fportv = 0 → s.frmlen = 0) ∧ 5 + s.dataWireLength ≤ s.cap.toNat) ∧
    5 + ({ State.reset with mtype := 2, fportv := 1, frmlen := 499 } : State).dataWireLength = 512 := by decide +kernel

/-- Types 1 and 6 (T6.20); FRMLEN = 513; FRMLEN = 1 without a port; T6.22. -/
theorem witness_SerPhyErrorsInOrder :
    ({ State.reset with mtype := 1 } : State).mtype.toNat < 2 ∧ 5 < ({ State.reset with mtype := 6 } : State).mtype.toNat ∧
    (let s := { State.reset with mtype := 2, fportv := 1, frmlen := 513 }
     2 ≤ s.mtype.toNat ∧ s.mtype.toNat ≤ 5 ∧ s.cap.toNat < s.frmlen.toNat) ∧
    (let s := { State.reset with mtype := 5, frmlen := 1 }
     2 ≤ s.mtype.toNat ∧ s.mtype.toNat ≤ 5 ∧ s.frmlen.toNat ≤ s.cap.toNat ∧ s.fportv = 0 ∧ 0 < s.frmlen.toNat) ∧
    (let s := { State.reset with mtype := 2, fportv := 1, frmlen := 500 }
     2 ≤ s.mtype.toNat ∧ s.mtype.toNat ≤ 5 ∧ s.frmlen.toNat ≤ s.cap.toNat ∧ (s.fportv = 0 → s.frmlen = 0) ∧
       s.cap.toNat < 5 + s.dataWireLength) := by decide +kernel

/-- The shortest frame, 12 bytes (T6.8), RFU bits set (T6.10), and frame F2, type 5 with options (T6.13). -/
theorem witness_ParPhyReadsTheFrame :
    ∀ s ∈ [shortFrame, withInput State.reset (hex 12 0x5C12EFCDAB00010011223344), withInput f1 f2Bytes],
      Memory.wf s.mem ∧ s.ilen.toNat ≤ s.cap.toNat ∧ 12 ≤ s.ilen.toNat ∧ (s.mem.read 0x2000).extractLsb' 0 2 = 0 ∧
        2 ≤ ((s.mem.read 0x2000).extractLsb' 5 3).toNat ∧ ((s.mem.read 0x2000).extractLsb' 5 3).toNat ≤ 5 ∧
        (s.mem.read 0x2005).toNat % 16 ≤ s.ilen.toNat - 12 := by decide +kernel

/-- ILEN = 513; 4 bytes (T6.1); Major 1 in 5 bytes (T6.3); types 1 and 6 (T6.5, T6.6); 11 bytes; options one byte too
many (T6.12). -/
theorem witness_ParPhyErrorsInOrder :
    (let s := { State.reset with ilen := 513 }
     s.cap.toNat < s.ilen.toNat) ∧
    (let s := withInput State.reset (hex 4 0x40000000)
     s.ilen.toNat ≤ s.cap.toNat ∧ s.ilen.toNat < 5) ∧
    (let s := withInput State.reset (hex 5 0xE100000000)
     s.ilen.toNat ≤ s.cap.toNat ∧ 5 ≤ s.ilen.toNat ∧ (s.mem.read 0x2000).extractLsb' 0 2 ≠ 0 ∧ Memory.wf s.mem) ∧
    (let s := withInput State.reset (hex 5 0x2000000000)
     s.ilen.toNat ≤ s.cap.toNat ∧ 5 ≤ s.ilen.toNat ∧ (s.mem.read 0x2000).extractLsb' 0 2 = 0 ∧
       ((s.mem.read 0x2000).extractLsb' 5 3).toNat < 2) ∧
    (let s := withInput State.reset (hex 5 0xC000000000)
     s.ilen.toNat ≤ s.cap.toNat ∧ 5 ≤ s.ilen.toNat ∧ (s.mem.read 0x2000).extractLsb' 0 2 = 0 ∧
       5 < ((s.mem.read 0x2000).extractLsb' 5 3).toNat) ∧
    (let s := withInput State.reset (hex 11 0x4012EFCDAB000100112233)
     s.ilen.toNat ≤ s.cap.toNat ∧ 5 ≤ s.ilen.toNat ∧ (s.mem.read 0x2000).extractLsb' 0 2 = 0 ∧
       2 ≤ ((s.mem.read 0x2000).extractLsb' 5 3).toNat ∧ ((s.mem.read 0x2000).extractLsb' 5 3).toNat ≤ 5 ∧
       s.ilen.toNat < 12) ∧
    (let s := withInput State.reset (hex 12 0x6012EFCDAB01010011223344)
     s.ilen.toNat ≤ s.cap.toNat ∧ 5 ≤ s.ilen.toNat ∧ (s.mem.read 0x2000).extractLsb' 0 2 = 0 ∧
       2 ≤ ((s.mem.read 0x2000).extractLsb' 5 3).toNat ∧ ((s.mem.read 0x2000).extractLsb' 5 3).toNat ≤ 5 ∧
       12 ≤ s.ilen.toNat ∧ s.ilen.toNat - 12 < (s.mem.read 0x2005).toNat % 16) := by decide +kernel

theorem witness_FhdrRoundTrips :
    f2.viewFhdr.wf ∧ ∃ h k, parseFhdr (hex 11 0x3412CDAB330256AABBCCDD) = .ok (h, k) :=
  ⟨by decide +kernel, _, _, rfl⟩

/-- With a port, with a port and no payload, and without a port. -/
theorem witness_DataPayloadRoundTrips :
    (∀ d ∈ [f2.viewData, { f2.viewData with frm := [] }, { f2.viewData with port := none, frm := [] }],
      DataPayload.wf d) ∧
    ∃ d, parseData (hex 10 0x3412CDAB0002560ADEAD) = .ok d := ⟨by decide +kernel, _, rfl⟩

/-- Major 0 and Major 1, and a received frame with its RFU bits set. -/
theorem witness_PhyPayloadRoundTrips :
    (let p : PhyPayload := ⟨⟨5, 0⟩, .data f2.viewData, hex 4 0x92E394AB⟩
     p.wf ∧ p.payload = .data f2.viewData ∧ p.mhdr.major = 0) ∧
    (let p : PhyPayload := ⟨⟨2, 1⟩, .data f2.viewData, hex 4 0x92E394AB⟩
     p.wf ∧ p.payload = .data f2.viewData ∧ p.mhdr.major ≠ 0) ∧
    ∃ p, parsePhy (hex 12 0x5C12EFCDAB00010011223344) = .ok p :=
  ⟨by decide +kernel, by decide +kernel, _, rfl⟩

/-- An error, a value and the partial result of each parser. -/
theorem witness_ParseCommandsFollowTheParsers :
    (∀ s ∈ [State.reset, withInput State.reset (hex 10 0x3412CDAB0002560ADEAD), shortFrame], s.ilen.toNat ≤ s.cap.toNat) ∧
    (∃ e, parseFhdr State.reset.input = .error e) ∧ (∃ e, parseData State.reset.input = .error e) ∧
    (∃ e, parsePhy State.reset.input = .error e) ∧
    (∃ h k, parseFhdr (withInput State.reset (hex 10 0x3412CDAB0002560ADEAD)).input = .ok (h, k)) ∧
    (∃ d, parseData (withInput State.reset (hex 10 0x3412CDAB0002560ADEAD)).input = .ok d) ∧
    (∃ h m, parsePhy (withInput State.reset (hex 5 0xE100000000)).input = .unsupportedVersion h m) ∧
    ∃ p d, parsePhy shortFrame.input = .ok p ∧ p.payload = .data d :=
  ⟨by decide +kernel, ⟨_, rfl⟩, ⟨_, rfl⟩, ⟨_, rfl⟩, ⟨_, _, rfl⟩, ⟨_, rfl⟩, ⟨_, _, rfl⟩, _, _, rfl, rfl⟩

theorem witness_SerDataThenParDataKeepsThePayload :
    f2.Inv ∧ f2.frmlen.toNat ≤ f2.bufCap ∧ (f2.fportv = 0 → f2.frmlen = 0) ∧ f2.dataWireLength ≤ f2.bufCap :=
  ⟨⟨by decide +kernel, by decide +kernel, by decide +kernel, by decide +kernel, by decide +kernel⟩, by decide +kernel⟩

end Sys2Proof.Tests
end

section
/-! PROOFS. Every step keeps the invariant of a safe run (O16, O17). The invariant is split into its storage part
(memory, capacity, OLEN), which each update of the state keeps by one rule, and its status part, which each command
ends by writing. -/

namespace Sys2Proof.Machine

/-! ### The storage part of the invariant -/

/-- `State.Inv` without its status clause: what an update of a memory or of OLEN must keep. -/
structure State.StorageInv (s : State) : Prop where
  memWf : Memory.wf s.mem
  cap : s.capLegal
  mapped : ∀ c ∈ s.mem, Space.all.any (fun sp => sp.holds s.bufCap c.1) = true
  olen : s.olen.toNat ≤ s.bufCap

theorem State.inv_iff {s : State} : s.Inv ↔ s.StorageInv ∧ statusLegal s.lastop s.err s.errinfo = true :=
  ⟨fun h => ⟨⟨h.memWf, h.cap, h.mapped, h.olen⟩, h.status⟩,
   fun ⟨h, hst⟩ => ⟨h.memWf, h.cap, h.mapped, h.olen, hst⟩⟩

/-- An offset that one array holds is mapped. -/
theorem Space.any_holds {sp : Space} {cap o : Nat} (h : sp.holds cap o = true) :
    Space.all.any (fun sp => sp.holds cap o) = true :=
  List.any_eq_true.2 ⟨sp, by cases sp <;> decide, h⟩

namespace State.StorageInv

variable {s t : State}

/-- Only the memory, CAP and OLEN matter. -/
theorem congr (h : s.StorageInv) (hm : t.mem = s.mem) (hc : t.cap = s.cap) (ho : t.olen = s.olen) : t.StorageInv := by
  have hb : t.bufCap = s.bufCap := congrArg BitVec.toNat hc
  refine ⟨hm ▸ h.memWf, ?_, ?_, ?_⟩
  · simpa only [State.capLegal, hb] using h.cap
  · simpa only [hm, hb] using h.mapped
  · simpa only [ho, hb] using h.olen

theorem withStatus (h : s.StorageInv) (e : BitVec 4) (x : Byte) : (s.withStatus e x).StorageInv := h.congr rfl rfl rfl

/-- Storing one byte at an offset of an array. -/
theorem write (h : s.StorageInv) {sp : Space} {o : Nat} (ho : sp.holds s.bufCap o = true) (v : Byte) :
    ({ s with mem := s.mem.write o v } : State).StorageInv where
  memWf := Memory.write_wf h.memWf o v
  cap := h.cap
  mapped c hc := by
    rcases Memory.mem_write hc with rfl | hc
    · exact Space.any_holds ho
    · exact h.mapped c hc
  olen := h.olen

/-- Storing a byte string that fits an array at its start (R44). -/
theorem memWrite (h : s.StorageInv) {sp : Space} {v : List Byte} (hv : v.length ≤ sp.size s.bufCap) :
    (s.memWrite sp 0 v).StorageInv where
  memWf := Memory.writeBytes_wf h.memWf _ v
  cap := h.cap
  mapped c hc := by
    rcases Memory.mem_writeBytes hc with ⟨hlo, hhi⟩ | hc
    · exact Space.any_holds (Space.holds_iff.2 ⟨hlo, show c.1 < sp.base + sp.size s.bufCap by omega⟩)
    · exact h.mapped c hc
  olen := h.olen

/-- An output that fits OBUF (R16, R173). -/
theorem putOutput (h : s.StorageInv) {v : List Byte} (hv : v.length ≤ s.bufCap) : (s.putOutput v).StorageInv := by
  obtain ⟨hwf, hcap, hmapped, -⟩ := h.memWrite (sp := .obuf) hv
  refine ⟨hwf, hcap, hmapped, ?_⟩
  calc (s.putOutput v).olen.toNat = v.length % 2 ^ 16 := BitVec.toNat_ofNat ..
    _ ≤ v.length := Nat.mod_le ..
    _ ≤ s.bufCap := hv

/-- The options of a received header fit FOPTS: a length of four bits is at most 15 (R15, R61). -/
theorem putFhdr (h : s.StorageInv) (b : List Byte) : (s.putFhdr (fhdrOf b)).StorageInv := by
  have hopts : (fhdrOf b).opts.length ≤ 15 := by
    have := declaredOpts_le b
    simp only [fhdrOf, slice_length]; omega
  exact (h.memWrite (sp := .fopts) hopts).congr rfl rfl rfl

/-- A payload that fits FRM, with or without a port. -/
theorem putPayload (h : s.StorageInv) (p : Option Byte) {v : List Byte} (hv : v.length ≤ s.bufCap) :
    (s.putPayload p v).StorageInv := by
  cases p with
  | none => exact h.congr rfl rfl rfl
  | some x => exact (h.memWrite (sp := .frm) hv).congr rfl rfl rfl

theorem putDataFrom (h : s.StorageInv) {b : List Byte} (hb : b.length ≤ s.bufCap) : (s.putDataFrom b).StorageInv :=
  (h.putFhdr b).putPayload (portOf b) (by rw [frmOf_length, putFhdr_bufCap]; omega)

/-- The MIC trailer has at most four bytes (R55). -/
theorem putHeaderAndMic (h : s.StorageInv) (b : List Byte) : (s.putHeaderAndMic b).StorageInv := by
  have hmic : (micTrailer b).length ≤ 4 := by simp only [micTrailer, slice_length, Config.micBytes]; omega
  exact (h.memWrite (sp := .mic) hmic).congr rfl rfl rfl

theorem storeTag (h : s.StorageInv) (d : Byte) (msg key : List Byte) (addr : BitVec 32) (fcnt : BitVec 16) :
    (s.memWrite .mic 0 (micTag d msg key addr fcnt)).StorageInv :=
  h.memWrite (micTag_length ..).le

end State.StorageInv

@[simp] theorem State.putDataFrom_lastop (s : State) (b : List Byte) : (s.putDataFrom b).lastop = s.lastop := by
  simp [State.putDataFrom]

/-! ### How a command ends -/

/-- A command from `s` may end in `t`: the storage stays safe, LASTOP is left to the write to CMD, and ERR and ERRINFO
are success or an error that R164 lists for the command. -/
structure EndsAsListed (i : Instr) (s t : State) : Prop where
  storage : s.StorageInv → t.StorageInv
  lastop : t.lastop = s.lastop
  status : t.err = 0 ∧ t.errinfo = 0 ∨ (t.err, t.errinfo) ∈ errorPairs i

/-- An error without a result (R161). -/
theorem EndsAsListed.error {i : Instr} {s : State} {e : BitVec 4} {x : Byte} (h : (e, x) ∈ errorPairs i) :
    EndsAsListed i s (s.withStatus e x) :=
  ⟨fun hs => hs.withStatus e x, rfl, .inr h⟩

/-- Success (R160). -/
theorem EndsAsListed.success {i : Instr} {s u : State} (hl : u.lastop = s.lastop)
    (hs : s.StorageInv → u.StorageInv) : EndsAsListed i s (u.withStatus 0 0) :=
  ⟨fun h => (hs h).withStatus 0 0, hl, .inl ⟨rfl, rfl⟩⟩

section
variable {s t : State}

theorem execEncFctrl_endsAsListed (h : execEncFctrl s = .next t) : EndsAsListed .encFctrl s t :=
  next_inj h ▸ .success rfl fun hs => hs.congr rfl rfl rfl

theorem execDecFctrl_endsAsListed (h : execDecFctrl s = .next t) : EndsAsListed .decFctrl s t :=
  next_inj h ▸ .success rfl fun hs => hs.congr rfl rfl rfl

theorem execEncMhdr_endsAsListed (h : execEncMhdr s = .next t) : EndsAsListed .encMhdr s t :=
  next_inj h ▸ .success rfl fun hs => hs.congr rfl rfl rfl

theorem execDecMhdr_endsAsListed (h : execDecMhdr s = .next t) : EndsAsListed .decMhdr s t :=
  next_inj h ▸ .success rfl fun hs => hs.congr rfl rfl rfl

/-- SER_FHDR checks nothing: at most 7 + 15 bytes fit every legal BUF_CAP (R5, R90). -/
theorem execSerFhdr_endsAsListed (h : execSerFhdr s = .next t) : EndsAsListed .serFhdr s t := by
  refine next_inj h ▸ .success rfl fun hs => hs.putOutput ?_
  have hopts : s.foptslen.toNat < 16 := s.foptslen.isLt
  have hcap : 259 ≤ s.bufCap := hs.cap.1
  rw [serializeFhdr_length, viewFhdr_opts_length]
  omega

theorem execParFhdr_endsAsListed (h : execParFhdr s = .next t) : EndsAsListed .parFhdr s t := by
  obtain ⟨-, rfl⟩ | ⟨-, -, rfl⟩ | ⟨-, -, -, rfl⟩ | ⟨-, -, rfl⟩ := execParFhdr_cases h
  · exact .error (by decide)
  · exact .error (by decide)
  · exact .error (by decide)
  · exact .success rfl fun hs => hs.putFhdr _

theorem execSerData_endsAsListed (h : execSerData s = .next t) : EndsAsListed .serData s t := by
  obtain ⟨-, rfl⟩ | ⟨-, -, -, rfl⟩ | ⟨-, -, -, rfl⟩ | ⟨-, -, hlen, rfl⟩ := execSerData_cases h
  · exact .error (by decide)
  · exact .error (by decide)
  · exact .error (by decide)
  · exact .success rfl fun hs => hs.putOutput hlen

theorem execParData_endsAsListed (h : execParData s = .next t) : EndsAsListed .parData s t := by
  obtain ⟨-, rfl⟩ | ⟨-, -, rfl⟩ | ⟨-, -, -, rfl⟩ | ⟨hlen, -, rfl⟩ := execParData_cases h
  · exact .error (by decide)
  · exact .error (by decide)
  · exact .error (by decide)
  · exact .success (State.putDataFrom_lastop ..) fun hs => hs.putDataFrom (by rwa [input_length])

theorem execCrypt_endsAsListed (h : execCrypt s = .next t) : EndsAsListed .crypt s t := by
  obtain ⟨-, rfl⟩ | ⟨-, -, rfl⟩ | ⟨-, -, -, rfl⟩ | ⟨hlen, -, -, rfl⟩ := execCrypt_cases h
  · exact .error (by decide)
  · exact .error (by decide)
  · exact .error (by decide)
  · exact .success rfl fun hs => hs.putOutput (by rwa [cryptBytes_length, input_length])

theorem execMic_endsAsListed (h : execMic s = .next t) : EndsAsListed .mic s t := by
  obtain ⟨-, rfl⟩ | ⟨-, -, rfl⟩ | ⟨-, -, -, rfl⟩ | ⟨-, -, -, -, rfl⟩ | ⟨-, -, -, -, rfl⟩ := execMic_cases h
  · exact .error (by decide)
  · exact .error (by decide)
  · exact .error (by decide)
  · exact .error (by decide)
  · exact .success rfl fun hs => hs.storeTag ..

theorem execMicFrame_endsAsListed (h : execMicFrame s = .next t) : EndsAsListed .micFrame s t := by
  obtain ⟨-, rfl⟩ | ⟨-, rfl⟩ | ⟨-, ⟨-, rfl⟩ | ⟨-, -, -, rfl⟩ | ⟨-, ⟨-, rfl⟩ | ⟨-, -, rfl⟩ | ⟨-, -, rfl⟩⟩⟩ :=
    execMicFrame_cases h
  · exact .error (by decide)
  · exact .error (by decide)
  · exact .error (by decide)
  · exact .error (by decide)
  · exact .error (by decide)
  · exact .error (by decide)
  · exact .success rfl fun hs => hs.storeTag ..

theorem execSerPhy_endsAsListed (h : execSerPhy s = .next t) : EndsAsListed .serPhy s t := by
  obtain ⟨-, rfl⟩ | ⟨-, rfl⟩ | ⟨-, ⟨-, rfl⟩ | ⟨-, -, -, rfl⟩ | ⟨-, ⟨-, rfl⟩ | ⟨hlen, rfl⟩⟩⟩ := execSerPhy_cases h
  · exact .error (by decide)
  · exact .error (by decide)
  · exact .error (by decide)
  · exact .error (by decide)
  · exact .error (by decide)
  · exact .success rfl fun hs => hs.putOutput hlen

/-- UnsupportedVersion is the one error that comes with a result, which `EndsAsListed.error` does not cover (R153). -/
theorem execParPhy_endsAsListed (h : execParPhy s = .next t) : EndsAsListed .parPhy s t := by
  obtain ⟨-, rfl⟩ | ⟨-, -, rfl⟩ | ⟨⟨hcap, hmin⟩, ⟨-, rfl⟩ | ⟨-, ⟨-, rfl⟩ | ⟨-, rfl⟩ |
    ⟨-, ⟨-, rfl⟩ | ⟨-, -, rfl⟩ | ⟨-, rfl⟩⟩⟩⟩ := execParPhy_cases h
  · exact .error (by decide)
  · exact .error (by decide)
  · exact ⟨fun hs => (hs.putHeaderAndMic _).withStatus _ _, rfl, .inr (by simp [errorPairs])⟩
  · exact .error (by decide)
  · exact .error (by decide)
  · exact .error (by decide)
  · exact .error (by decide)
  · have hlen : (macRegion s.input).length ≤ s.bufCap := by
      rw [macRegion_length _ (by rwa [input_length]), input_length]; omega
    exact .success (State.putDataFrom_lastop ..) fun hs => (hs.putHeaderAndMic _).putDataFrom hlen

theorem exec_endsAsListed {i : Instr} (h : exec i s = .next t) : EndsAsListed i s t := by
  cases i with
  | encFctrl => exact execEncFctrl_endsAsListed h
  | decFctrl => exact execDecFctrl_endsAsListed h
  | encMhdr => exact execEncMhdr_endsAsListed h
  | decMhdr => exact execDecMhdr_endsAsListed h
  | serFhdr => exact execSerFhdr_endsAsListed h
  | parFhdr => exact execParFhdr_endsAsListed h
  | serData => exact execSerData_endsAsListed h
  | parData => exact execParData_endsAsListed h
  | crypt => exact execCrypt_endsAsListed h
  | mic => exact execMic_endsAsListed h
  | micFrame => exact execMicFrame_endsAsListed h
  | serPhy => exact execSerPhy_endsAsListed h
  | parPhy => exact execParPhy_endsAsListed h

end

/-! ### The status a command leaves -/

/-- A word that decodes has its command's opcode in its low byte (R70). -/
theorem commandOf_opcodeField {w : Word} {i : Instr} (h : decode w = .ok i) : commandOf (opcodeField w) = some i := by
  simp only [decode] at h
  split at h
  · split at h
    next j hj => cases h; exact hj
    next => cases h
  · cases h

theorem statusLegal_of_listed {op : Byte} {i : Instr} {e : BitVec 4} {x : Byte} (hop : commandOf op = some i)
    (h : e = 0 ∧ x = 0 ∨ (e, x) ∈ errorPairs i) : statusLegal op e x = true := by
  obtain ⟨rfl, rfl⟩ | h := h
  · simp [statusLegal, hop]
  · simp [statusLegal, hop, h]

/-- The BadRequest of a bad command word goes with any opcode byte (R70). -/
theorem statusLegal_badWord (op : Byte) : statusLegal op 11 0x19 = true := by simp [statusLegal]

/-! ### The invariant along a step -/

namespace State.Inv

variable {s t : State}

/-- The host's side of the port does not matter. -/
theorem withPort (h : s.Inv) (p : List Access) (r : Option Word) : ({ s with pending := p, reply := r } : State).Inv :=
  ⟨h.memWf, h.cap, h.mapped, h.olen, h.status⟩

/-- A field register is no part of the invariant. -/
theorem setField (h : s.Inv) (v : Nat) (r : Reg) : (s.setField v r).Inv := by
  obtain ⟨hwf, hcap, hmapped, holen, hstatus⟩ := h
  cases r <;> exact ⟨hwf, hcap, hmapped, holen, hstatus⟩

theorem write (h : s.Inv) {sp : Space} {o : Nat} (ho : sp.holds s.bufCap o = true) (v : Byte) :
    ({ s with mem := s.mem.write o v } : State).Inv :=
  State.inv_iff.2 ⟨(State.inv_iff.1 h).1.write ho v, h.status⟩

theorem writeCommand (h : s.Inv) {w : Word} (hw : writeCommand w s = .next t) : t.Inv := by
  have hs : ({ s with lastop := opcodeField w } : State).StorageInv := (State.inv_iff.1 h).1.congr rfl rfl rfl
  obtain ⟨i, hi, hx⟩ | ⟨e, -, rfl⟩ := writeCommand_cases hw
  · obtain ⟨hstorage, hlastop, hstatus⟩ := exec_endsAsListed hx
    refine State.inv_iff.2 ⟨hstorage hs, ?_⟩
    rw [hlastop]
    exact statusLegal_of_listed (commandOf_opcodeField hi) hstatus
  · exact State.inv_iff.2 ⟨hs.withStatus _ _, statusLegal_badWord _⟩

theorem hostWrite (h : s.Inv) {bits o v : Nat} (hw : hostWrite bits o v s = .next t) : t.Inv := by
  have h' := h.withPort s.pending none
  obtain ⟨-, -, -, hc⟩ | ⟨r, -, -, -, -, -, rfl⟩ | ⟨sp, -, ho, -, -, rfl⟩ := hostWrite_cases hw
  · exact h'.writeCommand hc
  · exact h'.setField v r
  · exact h'.write ho _

/-- The reset state of a core of legal capacity (R20). -/
theorem resetWith {c : BitVec 16} (hc : (State.resetWith c).capLegal) : (State.resetWith c).Inv where
  memWf := Memory.nil_wf
  cap := hc
  mapped := by simp [State.resetWith]
  olen := Nat.zero_le _
  status := rfl

theorem access (h : s.Inv) {a : Access} (ha : access a s = .next t) : t.Inv := by
  cases a with
  | read bits o =>
    obtain ⟨w, rfl⟩ := hostRead_cases ha
    exact h.withPort _ _
  | write bits o v => exact h.hostWrite ha
  | reset =>
    rw [next_inj ha]
    exact (State.Inv.resetWith (c := s.cap) h.cap).withPort _ _

theorem step (h : s.Inv) (hs : step s = .next t) : t.Inv := by
  obtain ⟨-, rfl⟩ | ⟨a, rest, -, ha⟩ := step_cases hs
  · exact h
  · exact (h.withPort rest s.reply).access ha

end State.Inv

/-! ### The obligations -/

/-- Settles O16: the default capacity 512 is legal. -/
theorem resetMeetsInvariant : Obligations.ResetMeetsInvariant :=
  State.Inv.resetWith (by decide)

/-- Settles O17, by what each kind of access can do. -/
theorem stepKeepsInvariant : Obligations.StepKeepsInvariant :=
  fun _ _ h hs => h.step hs

end Sys2Proof.Machine
end

section
/-! PROOFS. Every command completes, whatever ERR, ERRINFO and LASTOP hold (O21), and its result depends only on what
R71 says it reads (O22). Both compare two runs of one command, whose chains of checks are walked side by side. -/

namespace Sys2Proof.Machine

/-! ### Two runs side by side -/

/-- Both results are next states, and these are related. -/
def BothNext (R : State → State → Prop) (x x' : Result) : Prop := ∃ t t', x = .next t ∧ x' = .next t' ∧ R t t'

namespace BothNext

variable {R : State → State → Prop}

theorem next {t t' : State} (h : R t t') : BothNext R (.next t) (.next t') := ⟨t, t', rfl, rfl, h⟩

/-- A check that both runs decide alike: the rest of the runs is compared knowing that it was passed. -/
theorem check {c c' : Prop} {_ : Decidable c} {_ : Decidable c'} {x x' y y' : Result} (hc : c ↔ c')
    (hx : BothNext R x x') (hy : ¬ c → BothNext R y y') :
    BothNext R (if c then x else y) (if c' then x' else y') := by
  by_cases h : c
  · rwa [if_pos h, if_pos (hc.1 h)]
  · rw [if_neg h, if_neg fun h' => h (hc.2 h')]
    exact hy h

/-- Two runs of compute_mic that answer alike (R140). -/
theorem storeMic {s s' : State} {msg : List Byte}
    (hm : computeMic s.mtype msg s.keyBytes s.devaddr s.fcnt = computeMic s'.mtype msg s'.keyBytes s'.devaddr s'.fcnt)
    (hr : ∀ e st f, BothNext R (raise e st f s) (raise e st f s'))
    (hs : ∀ m, computeMic s.mtype msg s.keyBytes s.devaddr s.fcnt = .ok m →
      BothNext R (succeed (s.memWrite .mic 0 m)) (succeed (s'.memWrite .mic 0 m))) :
    BothNext R (s.storeMic msg) (s'.storeMic msg) := by
  simp only [State.storeMic, ← hm]
  cases h : computeMic s.mtype msg s.keyBytes s.devaddr s.fcnt with
  | ok m => exact hs m h
  | error e => cases e <;> exact hr ..

end BothNext

/-! ### What an earlier command left in the status registers (R13, R174) -/

/-- The state with other values in ERR, ERRINFO and LASTOP. -/
def State.restatus (s : State) (e : BitVec 4) (x l : Byte) : State := { s with err := e, errinfo := x, lastop := l }

/-- `t'` is `t` with `l` in LASTOP. -/
def SameButLastop (l : Byte) (t t' : State) : Prop := t' = { t with lastop := l }

theorem sameButLastop_putDataFrom (s : State) (b : List Byte) (e : BitVec 4) (x l : Byte) :
    SameButLastop l ((s.putDataFrom b).withStatus 0 0) (((s.restatus e x l).putDataFrom b).withStatus 0 0) := by
  unfold State.putDataFrom
  cases portOf b <;> rfl

/-- No check of a command reads the three registers, and both ways of ending overwrite two of them. -/
theorem exec_restatus (i : Instr) (s : State) (e : BitVec 4) (x l : Byte) :
    BothNext (SameButLastop l) (exec i s) (exec i (s.restatus e x l)) := by
  cases i with
  | encFctrl => exact .next rfl
  | decFctrl => exact .next rfl
  | encMhdr => exact .next rfl
  | decMhdr => exact .next rfl
  | serFhdr => exact .next rfl
  | parFhdr =>
    exact .check .rfl (.next rfl) fun _ => .check .rfl (.next rfl) fun _ => .check .rfl (.next rfl) fun _ => .next rfl
  | serData =>
    exact .check .rfl (.next rfl) fun _ => .check .rfl (.next rfl) fun _ => .check .rfl (.next rfl) fun _ => .next rfl
  | parData =>
    exact .check .rfl (.next rfl) fun _ => .check .rfl (.next rfl) fun _ => .check .rfl (.next rfl) fun _ =>
      .next (sameButLastop_putDataFrom ..)
  | crypt =>
    exact .check .rfl (.next rfl) fun _ => .check .rfl (.next rfl) fun _ => .check .rfl (.next rfl) fun _ => .next rfl
  | mic =>
    exact .check .rfl (.next rfl) fun _ => .check .rfl (.next rfl) fun _ => .check .rfl (.next rfl) fun _ =>
      .check .rfl (.next rfl) fun _ => .storeMic rfl (fun _ _ _ => .next rfl) fun _ _ => .next rfl
  | micFrame =>
    exact .check .rfl (.next rfl) fun _ => .check .rfl (.next rfl) fun _ => .check .rfl (.next rfl) fun _ =>
      .check .rfl (.next rfl) fun _ => .check .rfl (.next rfl) fun _ => .check .rfl (.next rfl) fun _ =>
      .storeMic rfl (fun _ _ _ => .next rfl) fun _ _ => .next rfl
  | serPhy =>
    exact .check .rfl (.next rfl) fun _ => .check .rfl (.next rfl) fun _ => .check .rfl (.next rfl) fun _ =>
      .check .rfl (.next rfl) fun _ => .check .rfl (.next rfl) fun _ => .next rfl
  | parPhy =>
    exact .check .rfl (.next rfl) fun _ => .check .rfl (.next rfl) fun _ => .check .rfl (.next rfl) fun _ =>
      .check .rfl (.next rfl) fun _ => .check .rfl (.next rfl) fun _ => .check .rfl (.next rfl) fun _ =>
      .check .rfl (.next rfl) fun _ => .next (sameButLastop_putDataFrom ..)

/-- Every command has a next state (R160). -/
theorem exec_completes (i : Instr) (s : State) : ∃ t, exec i s = .next t := by
  obtain ⟨t, -, ht, -⟩ := exec_restatus i s 0 0 0
  exact ⟨t, ht⟩

/-- Settles O21: ERR and ERRINFO are overwritten, and LASTOP stays what it was replaced by. -/
theorem earlierStatusDoesNotMatter : Obligations.EarlierStatusDoesNotMatter := by
  intro i s t e x l h
  obtain ⟨u, u', hu, hu', rfl⟩ := exec_restatus i s e x l
  obtain rfl := next_inj (h.symm.trans hu)
  exact hu'

/-! ### The registers and valid bytes of two states -/

/-- The states agree on the registers `rs` and on the valid bytes of the arrays `sps`. -/
def SameOn (rs : List Reg) (sps : List Space) (s s' : State) : Prop :=
  (∀ r ∈ rs, s.get r = s'.get r) ∧ ∀ sp ∈ sps, s.valid sp = s'.valid sp

/-- A shorter bit vector is fixed by its zero-extension. -/
theorem setWidth_injective {w n : Nat} (hw : w ≤ n) {x y : BitVec w} (h : x.setWidth n = y.setWidth n) : x = y := by
  simpa [BitVec.setWidth_setWidth_of_le _ hw] using congrArg (BitVec.setWidth w) h

namespace agreeOnReads

variable {i : Instr} {s s' : State} (h : agreeOnReads i s s')
include h

theorem get (r : Reg) (hr : r ∈ readRegs i) : s.get r = s'.get r := by
  obtain ⟨-, hregs, -⟩ := h
  exact hregs r hr

theorem valid (sp : Space) (hsp : sp ∈ readSpaces i) : s.valid sp = s'.valid sp := by
  obtain ⟨-, -, hvalid⟩ := h
  exact hvalid sp hsp

theorem bufCap : s.bufCap = s'.bufCap := congrArg BitVec.toNat h.1

theorem mtype (hr : .mtype ∈ readRegs i := by decide) : s.mtype = s'.mtype :=
  setWidth_injective (by decide) (h.get .mtype hr)

theorem devaddr (hr : .devaddr ∈ readRegs i := by decide) : s.devaddr = s'.devaddr := h.get .devaddr hr

theorem fcnt (hr : .fcnt ∈ readRegs i := by decide) : s.fcnt = s'.fcnt :=
  setWidth_injective (by decide) (h.get .fcnt hr)

theorem foptslen (hr : .foptslen ∈ readRegs i := by decide) : s.foptslen = s'.foptslen :=
  setWidth_injective (by decide) (h.get .foptslen hr)

theorem fportv (hr : .fportv ∈ readRegs i := by decide) : s.fportv = s'.fportv :=
  setWidth_injective (by decide) (h.get .fportv hr)

theorem frmlen (hr : .frmlen ∈ readRegs i := by decide) : s.frmlen = s'.frmlen :=
  setWidth_injective (by decide) (h.get .frmlen hr)

theorem byte (hr : .byte ∈ readRegs i := by decide) : s.byte = s'.byte :=
  setWidth_injective (by decide) (h.get .byte hr)

theorem dir (hr : .dir ∈ readRegs i := by decide) : s.dir = s'.dir :=
  setWidth_injective (by decide) (h.get .dir hr)

theorem keylen (hr : .keylen ∈ readRegs i := by decide) : s.keylen = s'.keylen :=
  setWidth_injective (by decide) (h.get .keylen hr)

theorem ilen (hr : .ilen ∈ readRegs i := by decide) : s.ilen = s'.ilen :=
  setWidth_injective (by decide) (h.get .ilen hr)

theorem input (hsp : .ibuf ∈ readSpaces i := by decide) : s.input = s'.input := h.valid .ibuf hsp

theorem keyBytes (hsp : .key ∈ readSpaces i := by decide) : s.keyBytes = s'.keyBytes := h.valid .key hsp

theorem micBytes (hsp : .mic ∈ readSpaces i := by decide) : s.micBytes = s'.micBytes := h.valid .mic hsp

theorem viewFctrl (hrs : fctrlRegs ⊆ readRegs i := by decide) : s.viewFctrl = s'.viewFctrl := by
  simp only [State.viewFctrl, Fctrl.mk.injEq]
  exact ⟨setWidth_injective (by decide) (h.get .adr (hrs (by decide))),
    setWidth_injective (by decide) (h.get .adrackreq (hrs (by decide))),
    setWidth_injective (by decide) (h.get .ack (hrs (by decide))),
    setWidth_injective (by decide) (h.get .fpending (hrs (by decide))),
    h.foptslen (hrs (by decide))⟩

theorem viewMhdr (hrs : [.mtype, .major] ⊆ readRegs i := by decide) : s.viewMhdr = s'.viewMhdr := by
  simp only [State.viewMhdr, Mhdr.mk.injEq]
  exact ⟨h.mtype (hrs (by decide)), setWidth_injective (by decide) (h.get .major (hrs (by decide)))⟩

theorem viewFhdr (hrs : fhdrRegs ⊆ readRegs i := by decide) (hsp : .fopts ∈ readSpaces i := by decide) :
    s.viewFhdr = s'.viewFhdr := by
  simp only [State.viewFhdr, Fhdr.mk.injEq]
  exact ⟨h.devaddr (hrs (by decide)), h.viewFctrl fun r hr => hrs (by simp [fhdrRegs, hr]), h.fcnt (hrs (by decide)),
    h.valid .fopts hsp⟩

theorem viewData (hrs : dataRegs ⊆ readRegs i := by decide) (hsps : [.fopts, .frm] ⊆ readSpaces i := by decide) :
    s.viewData = s'.viewData := by
  have hport : s.fport = s'.fport := setWidth_injective (by decide) (h.get .fport (hrs (by decide)))
  simp only [State.viewData, DataPayload.mk.injEq, h.fportv (hrs (by decide)), hport, true_and]
  exact ⟨h.viewFhdr (fun r hr => hrs (by simp [dataRegs, hr])) (hsps (by decide)), h.valid .frm (hsps (by decide))⟩

end agreeOnReads

/-! ### The valid bytes after a store (R17) -/

theorem State.bufCap_lt (s : State) : s.bufCap < 2 ^ 16 := s.cap.isLt

theorem State.input_length_lt (s : State) : s.input.length < 2 ^ 16 := by
  rw [input_length]
  exact s.ilen.isLt

/-- The registers that hold a DataPayload's port and payload. -/
def payloadRegs : List Reg := [.fportv, .fport, .frmlen]

theorem State.get_putPayload {r : Reg} (hr : r ∉ payloadRegs) (s : State) (p : Option Byte) (v : List Byte) :
    (s.putPayload p v).get r = s.get r := by
  cases p <;> cases r with
  | fportv | fport | frmlen => exact absurd (by decide) hr
  | _ => rfl

theorem fhdrOf_wf {b : List Byte} (h : 7 + declaredOpts b ≤ b.length) : (fhdrOf b).wf := fhdrOf_opts_length b h

section
variable {s : State}

/-- After a byte string is stored in an array, with its length, the valid bytes are that string. -/
theorem State.valid_of_writeBytes {sp : Space} {m : Memory} {v : List Byte} (hwf : Memory.wf m)
    (hm : s.mem = m.writeBytes sp.base v) (hl : s.validLength sp = v.length) : s.valid sp = v := by
  rw [State.valid, State.memRead, hl, hm]
  exact Memory.readBytes_writeBytes_same hwf _ v

/-- A store that ends before an array, or starts after its valid bytes, leaves these. -/
theorem State.valid_of_writeBytes_disjoint {t : State} {sp : Space} {a : Nat} {v : List Byte}
    (hm : t.mem = s.mem.writeBytes a v) (hl : t.validLength sp = s.validLength sp)
    (hd : sp.base + s.validLength sp ≤ a ∨ a + v.length ≤ sp.base) : t.valid sp = s.valid sp := by
  rw [State.valid, State.memRead, hl, hm]
  exact Memory.readBytes_writeBytes_disjoint v hd s.mem

theorem State.valid_withStatus (s : State) (e : BitVec 4) (x : Byte) (sp : Space) :
    (s.withStatus e x).valid sp = s.valid sp := by cases sp <;> rfl

theorem State.valid_obuf_putOutput (hwf : Memory.wf s.mem) {v : List Byte} (hv : v.length < 2 ^ 16) :
    (s.putOutput v).valid .obuf = v :=
  valid_of_writeBytes hwf rfl (by simp only [validLength, putOutput_olen, BitVec.toNat_ofNat, Nat.mod_eq_of_lt hv])

theorem State.valid_mic_memWrite (hwf : Memory.wf s.mem) {v : List Byte} (hv : v.length = 4) :
    (s.memWrite .mic 0 v).valid .mic = v :=
  valid_of_writeBytes hwf rfl hv.symm

theorem State.valid_fopts_putFhdr (hwf : Memory.wf s.mem) {h : Fhdr} (hh : h.wf) :
    (s.putFhdr h).valid .fopts = h.opts :=
  valid_of_writeBytes hwf rfl hh.symm

theorem State.valid_mic_putFhdr {h : Fhdr} (hh : h.wf) : (s.putFhdr h).valid .mic = s.valid .mic := by
  refine valid_of_writeBytes_disjoint (putFhdr_mem ..) rfl (.inr ?_)
  have := h.ctrl.optsLen.isLt
  simp only [Space.base]; omega

/-- Storing a payload leaves the valid bytes of every array that ends before FRM starts (R40). -/
theorem State.valid_putPayload {sp : Space} (hsp : sp ≠ .frm) (hb : sp.base + s.validLength sp ≤ Space.frm.base)
    (p : Option Byte) (v : List Byte) : (s.putPayload p v).valid sp = s.valid sp := by
  have hl : (s.putPayload p v).validLength sp = s.validLength sp := by
    cases p <;> cases sp with
    | frm => exact absurd rfl hsp
    | _ => rfl
  cases p with
  | none => rw [valid, memRead, hl]; rfl
  | some x => exact valid_of_writeBytes_disjoint (putPayload_some_mem ..) hl (.inl hb)

theorem State.valid_fopts_putPayload (p : Option Byte) (v : List Byte) :
    (s.putPayload p v).valid .fopts = s.valid .fopts := by
  refine valid_putPayload (by decide) ?_ p v
  have := s.foptslen.isLt
  simp only [Space.base, validLength]; omega

theorem State.valid_mic_putPayload (p : Option Byte) (v : List Byte) : (s.putPayload p v).valid .mic = s.valid .mic :=
  valid_putPayload (by decide) (by simp [Space.base, validLength, Config.micBytes]) p v

theorem State.valid_frm_putPayload (hwf : Memory.wf s.mem) (p : Option Byte) {v : List Byte} (hv : v.length < 2 ^ 16) :
    (s.putPayload p v).valid .frm = p.elim [] fun _ => v := by
  cases p with
  | none => rfl
  | some x =>
    have hl : (s.putPayload (some x) v).validLength .frm = v.length := by
      simp only [validLength, putPayload_some_frmlen, BitVec.toNat_ofNat, Nat.mod_eq_of_lt hv]
    exact valid_of_writeBytes hwf rfl hl

end

/-! ### Equal stores in two states -/

namespace SameOn

variable {s s' : State}

theorem withStatus {rs : List Reg} {sps : List Space} (h : SameOn rs sps s s') (e : BitVec 4) (x : Byte) :
    SameOn rs sps (s.withStatus e x) (s'.withStatus e x) := by
  obtain ⟨hr, hsp⟩ := h
  refine ⟨fun r hmem => ?_, fun sp hmem => ?_⟩
  · have := hr r hmem
    cases r with
    | err | errinfo => rfl
    | _ => exact this
  · rw [State.valid_withStatus, State.valid_withStatus, hsp sp hmem]

section
variable (hwf : Memory.wf s.mem) (hwf' : Memory.wf s'.mem)
include hwf hwf'

theorem putOutput {v v' : List Byte} (hv : v = v') (hl : v.length < 2 ^ 16) :
    SameOn [.olen] [.obuf] (s.putOutput v) (s'.putOutput v') := by
  subst hv
  simp only [SameOn, List.forall_mem_singleton]
  exact ⟨rfl, by rw [State.valid_obuf_putOutput hwf hl, State.valid_obuf_putOutput hwf' hl]⟩

theorem storeTag {m : List Byte} (hm : m.length = 4) :
    SameOn [] [.mic] (s.memWrite .mic 0 m) (s'.memWrite .mic 0 m) := by
  simp only [SameOn, List.forall_mem_singleton]
  exact ⟨by simp, by rw [State.valid_mic_memWrite hwf hm, State.valid_mic_memWrite hwf' hm]⟩

theorem putFhdr {h : Fhdr} (hh : h.wf) : SameOn fhdrRegs [.fopts] (s.putFhdr h) (s'.putFhdr h) := by
  simp only [SameOn, List.forall_mem_singleton]
  refine ⟨by simp [fhdrRegs, fctrlRegs, State.get], ?_⟩
  rw [State.valid_fopts_putFhdr hwf hh, State.valid_fopts_putFhdr hwf' hh]

theorem putPayload (h : SameOn fhdrRegs [.fopts] s s') (p : Option Byte) {v : List Byte} (hv : v.length < 2 ^ 16) :
    SameOn dataRegs [.fopts, .frm] (s.putPayload p v) (s'.putPayload p v) := by
  have hfopts : s.valid .fopts = s'.valid .fopts := h.2 .fopts (by simp)
  have hport : ∀ r ∈ payloadRegs, (s.putPayload p v).get r = (s'.putPayload p v).get r := by
    cases p <;> simp [payloadRegs, State.get]
  refine ⟨fun r hr => ?_, ?_⟩
  · by_cases hp : r ∈ payloadRegs
    · exact hport r hp
    · have hr' : r ∈ fhdrRegs := (List.mem_append.1 (show r ∈ payloadRegs ++ fhdrRegs from hr)).resolve_left hp
      rw [State.get_putPayload hp, State.get_putPayload hp, h.1 r hr']
  · simp only [List.forall_mem_cons]
    refine ⟨?_, ?_, by simp⟩
    · rw [State.valid_fopts_putPayload, State.valid_fopts_putPayload, hfopts]
    · rw [State.valid_frm_putPayload hwf p hv, State.valid_frm_putPayload hwf' p hv]

/-- The data registers and arrays after PAR_DATA's store (R101). -/
theorem putDataFrom {b : List Byte} (hb : 7 + declaredOpts b ≤ b.length) (hl : b.length < 2 ^ 16) :
    SameOn dataRegs [.fopts, .frm] (s.putDataFrom b) (s'.putDataFrom b) :=
  putPayload (Memory.writeBytes_wf hwf ..) (Memory.writeBytes_wf hwf' ..) (putFhdr hwf hwf' (fhdrOf_wf hb)) (portOf b)
    (by rw [frmOf_length]; omega)

/-- All that PAR_PHY stores (R153). -/
theorem putFrame {b m : List Byte} (hb : 5 ≤ b.length) (hm : 7 + declaredOpts m ≤ m.length) (hl : m.length < 2 ^ 16) :
    SameOn (.mtype :: .major :: dataRegs) [.mic, .fopts, .frm] ((s.putHeaderAndMic b).putDataFrom m)
      ((s'.putHeaderAndMic b).putDataFrom m) := by
  have hdata := putDataFrom (s := s.putHeaderAndMic b) (s' := s'.putHeaderAndMic b)
    (Memory.writeBytes_wf hwf ..) (Memory.writeBytes_wf hwf' ..) hm hl
  have hmic {u : State} (hu : Memory.wf u.mem) : ((u.putHeaderAndMic b).putDataFrom m).valid .mic = micTrailer b := by
    rw [State.putDataFrom, State.valid_mic_putPayload, State.valid_mic_putFhdr (fhdrOf_wf hm)]
    exact State.valid_mic_memWrite (s := u) hu (micTrailer_length b hb)
  refine ⟨List.forall_mem_cons.2 ⟨?_, List.forall_mem_cons.2 ⟨?_, hdata.1⟩⟩, List.forall_mem_cons.2 ⟨?_, hdata.2⟩⟩
  · simp [State.putDataFrom, State.get]
  · simp [State.putDataFrom, State.get]
  · rw [hmic hwf, hmic hwf']

end

end SameOn

/-! ### A command's result in two states that agree on what it reads (R10, R71) -/

/-- Two ends of a command are alike: the same status, and after a success the same in all that the command writes. -/
def SameResult (i : Instr) (t t' : State) : Prop :=
  t.err = t'.err ∧ t.errinfo = t'.errinfo ∧ (t.err = 0 → SameOn (writtenRegs i) (writtenSpaces i) t t')

theorem Error.code_ne_zero (e : Error) : e.code ≠ 0 := by cases e <;> decide

theorem BothNext.raise {i : Instr} {s s' : State} (e : Error) (st : Struct) (f : Field) :
    BothNext (SameResult i) (raise e st f s) (raise e st f s') :=
  .next ⟨rfl, rfl, fun h => absurd h e.code_ne_zero⟩

theorem BothNext.succeed {i : Instr} {s s' : State} (h : SameOn (writtenRegs i) (writtenSpaces i) s s') :
    BothNext (SameResult i) (succeed s) (succeed s') :=
  .next ⟨rfl, rfl, fun _ => h.withStatus 0 0⟩

theorem computeMic_length {mtype : BitVec 3} {msg key m : List Byte} {addr : BitVec 32} {fcnt : BitVec 16}
    (h : computeMic mtype msg key addr fcnt = .ok m) : m.length = 4 := by
  simp only [computeMic] at h
  split at h
  · cases h
  · split at h
    · cases h
    · cases h
      exact micTag_length ..

section
variable {s s' : State} (hwf : Memory.wf s.mem) (hwf' : Memory.wf s'.mem)
include hwf hwf'

/-- The header's bytes are at most 7 + 15 (R53). -/
theorem execSerFhdr_sameResult (h : agreeOnReads .serFhdr s s') :
    BothNext (SameResult .serFhdr) (execSerFhdr s) (execSerFhdr s') := by
  refine .succeed (.putOutput hwf hwf' (by rw [h.viewFhdr]) ?_)
  have := s.foptslen.isLt
  rw [serializeFhdr_length, viewFhdr_opts_length]
  omega

theorem execParFhdr_sameResult (h : agreeOnReads .parFhdr s s') :
    BothNext (SameResult .parFhdr) (execParFhdr s) (execParFhdr s') := by
  refine .check (by rw [h.ilen, h.bufCap]) (.raise ..) fun _ => .check (by rw [h.ilen]) (.raise ..) fun h7 =>
    .check (by rw [h.ilen, h.input]) (.raise ..) fun hopts => .succeed ?_
  have hwhole : 7 + declaredOpts s.input ≤ s.input.length := by
    simp only [input_length, Config.fhdrMin] at *; omega
  rw [← h.input]
  exact .putFhdr hwf hwf' (fhdrOf_wf hwhole)

theorem execSerData_sameResult (h : agreeOnReads .serData s s') :
    BothNext (SameResult .serData) (execSerData s) (execSerData s') := by
  refine .check (by rw [h.frmlen, h.bufCap]) (.raise ..) fun _ =>
    .check (by rw [h.frmlen, h.fportv]) (.raise ..) fun _ =>
    .check (by rw [h.viewData, h.bufCap]) (.raise ..) fun hlen =>
    .succeed (.putOutput hwf hwf' (by rw [h.viewData]) ?_)
  have := s.bufCap_lt
  omega

theorem execParData_sameResult (h : agreeOnReads .parData s s') :
    BothNext (SameResult .parData) (execParData s) (execParData s') := by
  refine .check (by rw [h.ilen, h.bufCap]) (.raise ..) fun _ => .check (by rw [h.ilen]) (.raise ..) fun h7 =>
    .check (by rw [h.ilen, h.input]) (.raise ..) fun hopts => .succeed ?_
  have hwhole : 7 + declaredOpts s.input ≤ s.input.length := by
    simp only [input_length, Config.fhdrMin] at *; omega
  rw [← h.input]
  exact .putDataFrom hwf hwf' hwhole s.input_length_lt

theorem execCrypt_sameResult (h : agreeOnReads .crypt s s') :
    BothNext (SameResult .crypt) (execCrypt s) (execCrypt s') := by
  refine .check (by rw [h.ilen, h.bufCap]) (.raise ..) fun _ => .check (by rw [h.keylen]) (.raise ..) fun _ =>
    .check (by rw [h.ilen]) (.raise ..) fun _ => .succeed (.putOutput hwf hwf' ?_ ?_)
  · rw [h.keyBytes, h.input, h.dir, h.devaddr, h.fcnt]
  · rw [cryptBytes_length]
    exact s.input_length_lt

theorem execMic_sameResult (h : agreeOnReads .mic s s') :
    BothNext (SameResult .mic) (execMic s) (execMic s') := by
  rw [execMic, execMic, ← h.input]
  exact .check (by rw [h.ilen, h.bufCap]) (.raise ..) fun _ => .check (by rw [h.mtype]) (.raise ..) fun _ =>
    .check (by rw [h.ilen]) (.raise ..) fun _ => .check (by rw [h.keylen]) (.raise ..) fun _ =>
    .storeMic (by rw [h.mtype, h.keyBytes, h.devaddr, h.fcnt]) .raise fun m hm =>
      .succeed (.storeTag hwf hwf' (computeMic_length hm))

theorem execMicFrame_sameResult (h : agreeOnReads .micFrame s s') :
    BothNext (SameResult .micFrame) (execMicFrame s) (execMicFrame s') := by
  have himage : s.frameImage = s'.frameImage := by rw [State.frameImage, h.viewMhdr, h.viewData]; rfl
  rw [execMicFrame, execMicFrame, ← himage]
  exact .check (by rw [h.mtype]) (.raise ..) fun _ => .check (by rw [h.mtype]) (.raise ..) fun _ =>
    .check (by rw [h.frmlen, h.bufCap]) (.raise ..) fun _ => .check (by rw [h.frmlen, h.fportv]) (.raise ..) fun _ =>
    .check .rfl (.raise ..) fun _ => .check (by rw [h.keylen]) (.raise ..) fun _ =>
    .storeMic (by rw [h.mtype, h.keyBytes, h.devaddr, h.fcnt]) .raise fun m hm =>
      .succeed (.storeTag hwf hwf' (computeMic_length hm))

theorem execSerPhy_sameResult (h : agreeOnReads .serPhy s s') :
    BothNext (SameResult .serPhy) (execSerPhy s) (execSerPhy s') := by
  have himage : s.phyImage = s'.phyImage := by rw [State.phyImage, h.viewMhdr, h.viewData, h.micBytes]; rfl
  refine .check (by rw [h.mtype]) (.raise ..) fun _ => .check (by rw [h.mtype]) (.raise ..) fun _ =>
    .check (by rw [h.frmlen, h.bufCap]) (.raise ..) fun _ => .check (by rw [h.frmlen, h.fportv]) (.raise ..) fun _ =>
    .check (by rw [himage, h.bufCap]) (.raise ..) fun hlen => .succeed (.putOutput hwf hwf' himage ?_)
  have := s.bufCap_lt
  omega

theorem execParPhy_sameResult (h : agreeOnReads .parPhy s s') :
    BothNext (SameResult .parPhy) (execParPhy s) (execParPhy s') := by
  rw [execParPhy, execParPhy, ← h.input]
  refine .check (by rw [h.ilen, h.bufCap]) (.raise ..) fun _ => .check (by rw [h.ilen]) (.raise ..) fun h5 =>
    .check .rfl (.raise ..) fun _ => .check .rfl (.raise ..) fun _ => .check .rfl (.raise ..) fun _ =>
    .check .rfl (.raise ..) fun h7 => .check .rfl (.raise ..) fun hopts => .succeed ?_
  have hfive : 5 ≤ s.input.length := by rw [input_length]; exact Nat.not_lt.1 h5
  have hregion := macRegion_length s.input hfive
  have hlt := s.input_length_lt
  refine .putFrame hwf hwf' hfive ?_ (by omega)
  simp only [Config.fhdrMin] at *
  omega

theorem exec_sameResult {i : Instr} (h : agreeOnReads i s s') : BothNext (SameResult i) (exec i s) (exec i s') := by
  cases i with
  | encFctrl => exact .succeed ⟨by simp [writtenRegs, State.get, h.viewFctrl], by simp [writtenSpaces]⟩
  | decFctrl => exact .succeed ⟨by simp [writtenRegs, fctrlRegs, State.get, h.byte], by simp [writtenSpaces]⟩
  | encMhdr => exact .succeed ⟨by simp [writtenRegs, State.get, h.viewMhdr], by simp [writtenSpaces]⟩
  | decMhdr => exact .succeed ⟨by simp [writtenRegs, State.get, h.byte], by simp [writtenSpaces]⟩
  | serFhdr => exact execSerFhdr_sameResult hwf hwf' h
  | parFhdr => exact execParFhdr_sameResult hwf hwf' h
  | serData => exact execSerData_sameResult hwf hwf' h
  | parData => exact execParData_sameResult hwf hwf' h
  | crypt => exact execCrypt_sameResult hwf hwf' h
  | mic => exact execMic_sameResult hwf hwf' h
  | micFrame => exact execMicFrame_sameResult hwf hwf' h
  | serPhy => exact execSerPhy_sameResult hwf hwf' h
  | parPhy => exact execParPhy_sameResult hwf hwf' h

end

/-- Settles O22: both runs pass the same checks and store the same values, whatever the capacity. -/
theorem resultDependsOnlyOnWhatIsRead : Obligations.ResultDependsOnlyOnWhatIsRead := by
  intro i s s' t t' hwf hwf' _ hagree ht ht'
  obtain ⟨u, u', hu, hu', hsame⟩ := exec_sameResult hwf hwf' hagree
  obtain rfl := next_inj (ht.symm.trans hu)
  obtain rfl := next_inj (ht'.symm.trans hu')
  exact hsame

end Sys2Proof.Machine
end

section
/-! PROOFS. A command changes nothing outside R71's writes column but ERR and ERRINFO (O23), and no step changes CAP
(O12). Each update of the state has one rule that says what it leaves unchanged. -/

namespace Sys2Proof.Machine

/-! ### The registers an update leaves -/

section
variable (s : State) {r : Reg}

theorem State.get_withStatus (he : r ≠ .err) (hi : r ≠ .errinfo) (e : BitVec 4) (x : Byte) :
    (s.withStatus e x).get r = s.get r := by
  cases r with
  | err | errinfo => contradiction
  | _ => rfl

theorem State.get_setByte (hr : r ≠ .byte) (b : Byte) : ({ s with byte := b } : State).get r = s.get r := by
  cases r with
  | byte => contradiction
  | _ => rfl

theorem State.get_memWrite (sp : Space) (o : Nat) (v : List Byte) : (s.memWrite sp o v).get r = s.get r := by
  cases r <;> rfl

theorem State.get_putOutput (hr : r ≠ .olen) (v : List Byte) : (s.putOutput v).get r = s.get r := by
  cases r with
  | olen => contradiction
  | _ => rfl

theorem State.get_putFctrl (hr : r ∉ fctrlRegs) (c : Fctrl) : (s.putFctrl c).get r = s.get r := by
  cases r with
  | adr | adrackreq | ack | fpending | foptslen => exact absurd (by decide) hr
  | _ => rfl

theorem State.get_putMhdr (hr : r ∉ [.mtype, .major]) (h : Mhdr) : (s.putMhdr h).get r = s.get r := by
  cases r with
  | mtype | major => exact absurd (by decide) hr
  | _ => rfl

theorem State.get_putFhdr (hr : r ∉ fhdrRegs) (h : Fhdr) : (s.putFhdr h).get r = s.get r := by
  cases r with
  | devaddr | fcnt | adr | adrackreq | ack | fpending | foptslen => exact absurd (by decide) hr
  | _ => rfl

end

/-! ### A command's footprint -/

/-- `t` differs from `s` only in ERR, ERRINFO and what R71 says the command writes. That an output fits OBUF can rest
on a legal capacity (R5). -/
structure WithinFootprint (i : Instr) (s t : State) : Prop where
  regs : ∀ r, r ∉ writtenRegs i → r ≠ .err → r ≠ .errinfo → t.get r = s.get r
  bytes : s.capLegal → ∀ a, (∀ sp ∈ writtenSpaces i, sp.holds s.bufCap a = false) → t.mem.read a = s.mem.read a
  pending : t.pending = s.pending
  reply : t.reply = s.reply

namespace WithinFootprint

variable {i : Instr} {s u v : State}

theorem refl : WithinFootprint i s s := ⟨fun _ _ _ _ => rfl, fun _ _ _ => rfl, rfl, rfl⟩

/-- An update of registers that the command writes. -/
theorem setRegs (h : WithinFootprint i s u) (hr : ∀ r, r ∉ writtenRegs i → v.get r = u.get r) (hm : v.mem = u.mem)
    (hp : v.pending = u.pending) (hreply : v.reply = u.reply) : WithinFootprint i s v where
  regs r hw he hi := (hr r hw).trans (h.regs r hw he hi)
  bytes hc a ha := hm ▸ h.bytes hc a ha
  pending := hp.trans h.pending
  reply := hreply.trans h.reply

theorem withStatus (h : WithinFootprint i s u) (e : BitVec 4) (x : Byte) : WithinFootprint i s (u.withStatus e x) where
  regs r hw he hi := (u.get_withStatus he hi e x).trans (h.regs r hw he hi)
  bytes := h.bytes
  pending := h.pending
  reply := h.reply

/-- A byte string that fits an array the command writes, stored at its start. -/
theorem memWrite (h : WithinFootprint i s u) {sp : Space} {b : List Byte} (hsp : sp ∈ writtenSpaces i)
    (hb : s.capLegal → b.length ≤ sp.size s.bufCap) : WithinFootprint i s (u.memWrite sp 0 b) where
  regs r hw he hi := (u.get_memWrite ..).trans (h.regs r hw he hi)
  bytes hc a ha := by
    have hout : ¬ (sp.base ≤ a ∧ a < sp.base + sp.size s.bufCap) := by
      rw [← Space.holds_iff, ha sp hsp]; decide
    have hfit := hb hc
    rw [State.memWrite_mem, Memory.read_writeBytes_outside b (by omega)]
    exact h.bytes hc a ha
  pending := h.pending
  reply := h.reply

theorem putOutput (h : WithinFootprint i s u) {b : List Byte} (hr : .olen ∈ writtenRegs i)
    (hsp : .obuf ∈ writtenSpaces i) (hb : s.capLegal → b.length ≤ s.bufCap) : WithinFootprint i s (u.putOutput b) :=
  (h.memWrite hsp hb).setRegs
    (fun _ hw => (u.get_putOutput (ne_of_mem_of_not_mem hr hw).symm b).trans (u.get_memWrite ..).symm) rfl rfl rfl

/-- The options of a received header fit FOPTS: a length of four bits is at most 15 (R15, R61). -/
theorem putFhdr (h : WithinFootprint i s u) (hr : fhdrRegs ⊆ writtenRegs i) (hsp : .fopts ∈ writtenSpaces i)
    (b : List Byte) : WithinFootprint i s (u.putFhdr (fhdrOf b)) := by
  have hopts : (fhdrOf b).opts.length ≤ 15 := by
    have := declaredOpts_le b
    simp only [fhdrOf, slice_length]; omega
  exact (h.memWrite hsp fun _ => hopts).setRegs
    (fun _ hw => (u.get_putFhdr (fun hm => hw (hr hm)) _).trans (u.get_memWrite ..).symm) rfl rfl rfl

theorem putPayload (h : WithinFootprint i s u) (hr : payloadRegs ⊆ writtenRegs i) (hsp : .frm ∈ writtenSpaces i)
    (p : Option Byte) {b : List Byte} (hb : b.length ≤ s.bufCap) : WithinFootprint i s (u.putPayload p b) := by
  have hregs {r : Reg} (hw : r ∉ writtenRegs i) : (u.putPayload p b).get r = u.get r :=
    u.get_putPayload (fun hm => hw (hr hm)) p b
  cases p with
  | none => exact h.setRegs (fun _ hw => hregs hw) rfl rfl rfl
  | some x =>
    exact (h.memWrite hsp fun _ => hb).setRegs (fun _ hw => (hregs hw).trans (u.get_memWrite ..).symm) rfl rfl rfl

theorem putDataFrom (h : WithinFootprint i s u) (hr : dataRegs ⊆ writtenRegs i) (hopts : .fopts ∈ writtenSpaces i)
    (hfrm : .frm ∈ writtenSpaces i) {b : List Byte} (hb : b.length ≤ s.bufCap) :
    WithinFootprint i s (u.putDataFrom b) :=
  (h.putFhdr (fun _ hm => hr (List.mem_append_right payloadRegs hm)) hopts b).putPayload
    (fun _ hm => hr (List.mem_append_left fhdrRegs hm)) hfrm (portOf b) (by rw [frmOf_length]; omega)

theorem putMhdr (h : WithinFootprint i s u) (hr : [.mtype, .major] ⊆ writtenRegs i) (m : Mhdr) :
    WithinFootprint i s (u.putMhdr m) :=
  h.setRegs (fun _ hw => u.get_putMhdr (fun hm => hw (hr hm)) m) rfl rfl rfl

/-- The MIC trailer has at most four bytes (R55). -/
theorem putHeaderAndMic (h : WithinFootprint i s u) (hr : [.mtype, .major] ⊆ writtenRegs i)
    (hsp : .mic ∈ writtenSpaces i) (b : List Byte) : WithinFootprint i s (u.putHeaderAndMic b) := by
  have hmic : (micTrailer b).length ≤ 4 := by simp only [micTrailer, slice_length, Config.micBytes]; omega
  exact (h.putMhdr hr _).memWrite hsp fun _ => hmic

theorem setByte (h : WithinFootprint i s u) (hr : .byte ∈ writtenRegs i) (b : Byte) :
    WithinFootprint i s { u with byte := b } :=
  h.setRegs (fun _ hw => u.get_setByte (ne_of_mem_of_not_mem hr hw).symm b) rfl rfl rfl

theorem putFctrl (h : WithinFootprint i s u) (hr : fctrlRegs ⊆ writtenRegs i) (c : Fctrl) :
    WithinFootprint i s (u.putFctrl c) :=
  h.setRegs (fun _ hw => u.get_putFctrl (fun hm => hw (hr hm)) c) rfl rfl rfl

/-- An error without a result (R161). -/
theorem error (e : BitVec 4) (x : Byte) : WithinFootprint i s (s.withStatus e x) := refl.withStatus e x

end WithinFootprint

section
open WithinFootprint
variable {s t : State}

/-- At most 7 + 15 bytes fit every legal BUF_CAP (R5, R90). -/
theorem execSerFhdr_withinFootprint (h : execSerFhdr s = .next t) : WithinFootprint .serFhdr s t := by
  obtain rfl := next_inj h
  refine (refl.putOutput (by decide) (by decide) fun hc => ?_).withStatus 0 0
  have hopts : s.foptslen.toNat < 16 := s.foptslen.isLt
  have hcap : 259 ≤ s.bufCap := hc.1
  rw [serializeFhdr_length, viewFhdr_opts_length]
  omega

theorem execParFhdr_withinFootprint (h : execParFhdr s = .next t) : WithinFootprint .parFhdr s t := by
  obtain ⟨-, rfl⟩ | ⟨-, -, rfl⟩ | ⟨-, -, -, rfl⟩ | ⟨-, -, rfl⟩ := execParFhdr_cases h
  · exact error ..
  · exact error ..
  · exact error ..
  · exact (refl.putFhdr (by decide) (by decide) _).withStatus 0 0

theorem execSerData_withinFootprint (h : execSerData s = .next t) : WithinFootprint .serData s t := by
  obtain ⟨-, rfl⟩ | ⟨-, -, -, rfl⟩ | ⟨-, -, -, rfl⟩ | ⟨-, -, hlen, rfl⟩ := execSerData_cases h
  · exact error ..
  · exact error ..
  · exact error ..
  · exact (refl.putOutput (by decide) (by decide) fun _ => hlen).withStatus 0 0

theorem execParData_withinFootprint (h : execParData s = .next t) : WithinFootprint .parData s t := by
  obtain ⟨-, rfl⟩ | ⟨-, -, rfl⟩ | ⟨-, -, -, rfl⟩ | ⟨hlen, -, rfl⟩ := execParData_cases h
  · exact error ..
  · exact error ..
  · exact error ..
  · exact (refl.putDataFrom (by decide) (by decide) (by decide) (by rwa [input_length])).withStatus 0 0

theorem execCrypt_withinFootprint (h : execCrypt s = .next t) : WithinFootprint .crypt s t := by
  obtain ⟨-, rfl⟩ | ⟨-, -, rfl⟩ | ⟨-, -, -, rfl⟩ | ⟨hlen, -, -, rfl⟩ := execCrypt_cases h
  · exact error ..
  · exact error ..
  · exact error ..
  · exact (refl.putOutput (by decide) (by decide) fun _ => by rwa [cryptBytes_length, input_length]).withStatus 0 0

theorem execMic_withinFootprint (h : execMic s = .next t) : WithinFootprint .mic s t := by
  obtain ⟨-, rfl⟩ | ⟨-, -, rfl⟩ | ⟨-, -, -, rfl⟩ | ⟨-, -, -, -, rfl⟩ | ⟨-, -, -, -, rfl⟩ := execMic_cases h
  · exact error ..
  · exact error ..
  · exact error ..
  · exact error ..
  · exact (refl.memWrite (by decide) fun _ => (micTag_length ..).le).withStatus 0 0

theorem execMicFrame_withinFootprint (h : execMicFrame s = .next t) : WithinFootprint .micFrame s t := by
  obtain ⟨-, rfl⟩ | ⟨-, rfl⟩ | ⟨-, ⟨-, rfl⟩ | ⟨-, -, -, rfl⟩ | ⟨-, ⟨-, rfl⟩ | ⟨-, -, rfl⟩ | ⟨-, -, rfl⟩⟩⟩ :=
    execMicFrame_cases h
  · exact error ..
  · exact error ..
  · exact error ..
  · exact error ..
  · exact error ..
  · exact error ..
  · exact (refl.memWrite (by decide) fun _ => (micTag_length ..).le).withStatus 0 0

theorem execSerPhy_withinFootprint (h : execSerPhy s = .next t) : WithinFootprint .serPhy s t := by
  obtain ⟨-, rfl⟩ | ⟨-, rfl⟩ | ⟨-, ⟨-, rfl⟩ | ⟨-, -, -, rfl⟩ | ⟨-, ⟨-, rfl⟩ | ⟨hlen, rfl⟩⟩⟩ := execSerPhy_cases h
  · exact error ..
  · exact error ..
  · exact error ..
  · exact error ..
  · exact error ..
  · exact (refl.putOutput (by decide) (by decide) fun _ => hlen).withStatus 0 0

/-- UnsupportedVersion's partial result is within the footprint too (R153). -/
theorem execParPhy_withinFootprint (h : execParPhy s = .next t) : WithinFootprint .parPhy s t := by
  have hheader : WithinFootprint .parPhy s (s.putHeaderAndMic s.input) :=
    refl.putHeaderAndMic (by decide) (by decide) s.input
  obtain ⟨-, rfl⟩ | ⟨-, -, rfl⟩ | ⟨⟨hcap, hmin⟩, ⟨-, rfl⟩ | ⟨-, ⟨-, rfl⟩ | ⟨-, rfl⟩ |
    ⟨-, ⟨-, rfl⟩ | ⟨-, -, rfl⟩ | ⟨-, rfl⟩⟩⟩⟩ := execParPhy_cases h
  · exact error ..
  · exact error ..
  · exact hheader.withStatus ..
  · exact error ..
  · exact error ..
  · exact error ..
  · exact error ..
  · have hlen : (macRegion s.input).length ≤ s.bufCap := by
      rw [macRegion_length _ (by rwa [input_length]), input_length]; omega
    exact (hheader.putDataFrom (by decide) (by decide) (by decide) hlen).withStatus 0 0

theorem exec_withinFootprint {i : Instr} (h : exec i s = .next t) : WithinFootprint i s t := by
  cases i with
  | encFctrl => exact next_inj h ▸ (refl.setByte (by decide) _).withStatus 0 0
  | decFctrl => exact next_inj h ▸ (refl.putFctrl (by decide) _).withStatus 0 0
  | encMhdr => exact next_inj h ▸ (refl.setByte (by decide) _).withStatus 0 0
  | decMhdr => exact next_inj h ▸ (refl.putMhdr (by decide) _).withStatus 0 0
  | serFhdr => exact execSerFhdr_withinFootprint h
  | parFhdr => exact execParFhdr_withinFootprint h
  | serData => exact execSerData_withinFootprint h
  | parData => exact execParData_withinFootprint h
  | crypt => exact execCrypt_withinFootprint h
  | mic => exact execMic_withinFootprint h
  | micFrame => exact execMicFrame_withinFootprint h
  | serPhy => exact execSerPhy_withinFootprint h
  | parPhy => exact execParPhy_withinFootprint h

end

/-- Settles O23: the legal capacity is needed for SER_FHDR only, whose output has no check. -/
theorem commandWritesOnlyItsFootprint : Obligations.CommandWritesOnlyItsFootprint := by
  intro i s t hc h
  obtain ⟨hregs, hbytes, hpending, hreply⟩ := exec_withinFootprint h
  exact ⟨hregs, hbytes hc, hpending, hreply⟩

/-! ### CAP along a step (R14) -/

section
variable {s t : State}

/-- CAP is in no command's writes column. -/
theorem exec_cap {i : Instr} (h : exec i s = .next t) : t.cap = s.cap := by
  have hcap : .cap ∉ writtenRegs i := by cases i <;> decide
  exact setWidth_injective (by decide) ((exec_withinFootprint h).regs .cap hcap (by decide) (by decide))

theorem writeCommand_cap {w : Word} (h : writeCommand w s = .next t) : t.cap = s.cap := by
  obtain ⟨i, -, hx⟩ | ⟨e, -, rfl⟩ := writeCommand_cases h
  · exact (exec_cap hx).trans rfl
  · rfl

@[simp] theorem State.setField_cap (s : State) (v : Nat) (r : Reg) : (s.setField v r).cap = s.cap := by
  cases r <;> rfl

theorem hostWrite_cap {bits o v : Nat} (h : hostWrite bits o v s = .next t) : t.cap = s.cap := by
  obtain ⟨-, -, -, hc⟩ | ⟨r, -, -, -, -, -, rfl⟩ | ⟨sp, -, -, -, -, rfl⟩ := hostWrite_cases h
  · exact (writeCommand_cap hc).trans rfl
  · exact State.setField_cap ..
  · rfl

theorem access_cap {a : Access} (h : access a s = .next t) : t.cap = s.cap := by
  cases a with
  | read bits o =>
    obtain ⟨w, rfl⟩ := hostRead_cases h
    rfl
  | write bits o v => exact hostWrite_cap h
  | reset =>
    rw [next_inj h]
    rfl

end

/-- Settles O12, by what each kind of access can do. -/
theorem capNeverChanges : Obligations.CapNeverChanges := by
  intro s t h
  obtain ⟨-, rfl⟩ | ⟨a, rest, -, ha⟩ := step_cases h
  · rfl
  · exact (access_cap ha).trans rfl

end Sys2Proof.Machine
end

section
/-! PROOFS. What the host port admits and returns (O7, O9), and the reset state (O13, O14, O15). -/

namespace Sys2Proof.Machine

/-! ### Which host writes are admitted (R43) -/

/-- A result that is no next state is a refusal: the machine has no fault (R160). -/
theorem refused_of_not_next {x : Result} (h : ¬ ∃ t, x = .next t) : ∃ r, x = .refused r := by
  cases x with
  | next t => exact absurd ⟨t, rfl⟩ h
  | fault f => cases f
  | refused r => exact ⟨r, rfl⟩

theorem writeCommand_completes (w : Word) (s : State) : ∃ t, writeCommand w s = .next t := by
  unfold writeCommand
  split
  · exact exec_completes ..
  · exact ⟨_, rfl⟩

section
variable (s : State) {v : Nat}

/-- A write to CMD or a field register of a value of its width is admitted (R21, R35). -/
theorem hostWrite_reg_admitted {r : Reg} (hw : r.hostWritable = true) (hv : v < 2 ^ r.width) :
    ∃ t, hostWrite 32 r.offset v s = .next t := by
  simp only [hostWrite, targetOf_reg, writeReg, hw, if_neg (Nat.not_le.2 hv)]
  by_cases hc : r = .cmd
  · simpa [hc] using writeCommand_completes ..
  · simp [hc]

/-- A write of a byte to a writable array is admitted while BUF_CAP keeps the arrays apart (R21, R40). -/
theorem hostWrite_byte_admitted (hc : s.bufCap ≤ 4096) {sp : Space} {o : Nat} (hw : sp.hostWritable = true)
    (ho : sp.holds s.bufCap o = true) (hv : v < 2 ^ 8) : ∃ t, hostWrite 8 o v s = .next t := by
  simp only [hostWrite, targetOf_byte hc ho, writeArrayByte, hw, if_neg (Nat.not_le.2 hv)]
  exact ⟨_, rfl⟩

theorem hostWrite_admitted_iff (hc : s.bufCap ≤ 4096) {bits o : Nat} : (∃ t, hostWrite bits o v s = .next t) ↔
    (bits = 32 ∧ ∃ r : Reg, r.hostWritable = true ∧ o = r.offset ∧ v < 2 ^ r.width) ∨
    (bits = 8 ∧ v < 2 ^ 8 ∧ ∃ sp : Space, sp.hostWritable = true ∧ sp.holds s.bufCap o = true) := by
  constructor
  · rintro ⟨t, h⟩
    obtain ⟨hb, ho, hv, -⟩ | ⟨r, hb, ho, hw, -, hv, -⟩ | ⟨sp, hb, ho, hw, hv, -⟩ := hostWrite_cases h
    · exact .inl ⟨hb, .cmd, rfl, ho, hv⟩
    · exact .inl ⟨hb, r, hw, ho, hv⟩
    · exact .inr ⟨hb, hv, sp, hw, ho⟩
  · rintro (⟨rfl, r, hw, rfl, hv⟩ | ⟨rfl, hv, sp, hw, ho⟩)
    · exact hostWrite_reg_admitted s hw hv
    · exact hostWrite_byte_admitted s hc hw ho hv

end

/-- The writable registers as the register map lists them: offset and width (R40). -/
def writableRegs : List (Nat × Nat) := (Reg.all.filter Reg.hostWritable).map fun r => (r.offset, r.width)

theorem mem_writableRegs {p : Nat × Nat} :
    p ∈ writableRegs ↔ ∃ r : Reg, r.hostWritable = true ∧ p = (r.offset, r.width) := by
  have hall (r : Reg) : r ∈ Reg.all := by cases r <;> decide
  simp only [writableRegs, List.mem_map, List.mem_filter, hall, true_and, eq_comm (a := p)]

/-- The bytes of the writable arrays: KEY and FOPTS side by side, MIC, FRM and IBUF (R21, R40). -/
theorem exists_writable_holds_iff {cap o : Nat} : (∃ sp : Space, sp.hostWritable = true ∧ sp.holds cap o = true) ↔
    0x100 ≤ o ∧ o ≤ 0x11E ∨ 0x120 ≤ o ∧ o ≤ 0x123 ∨ 0x1000 ≤ o ∧ o < 0x1000 + cap ∨ 0x2000 ≤ o ∧ o < 0x2000 + cap := by
  simp only [Space.holds_iff]
  constructor
  · rintro ⟨sp, hw, ho⟩
    cases sp with
    | obuf => cases hw
    | _ => simp [Space.base, Space.size, Config.keyBytes, Config.foptsMax, Config.micBytes] at ho; omega
  · have hkey : (0x100 ≤ o ∧ o ≤ 0x11E) ↔ (0x100 ≤ o ∧ o < 0x100 + 16) ∨ (0x110 ≤ o ∧ o < 0x110 + 15) := by omega
    rintro (h | h | h | h)
    · obtain h | h := hkey.1 h
      · exact ⟨.key, rfl, h⟩
      · exact ⟨.fopts, rfl, h⟩
    · exact ⟨.mic, rfl, by simp [Space.base, Space.size, Config.micBytes]; omega⟩
    · exact ⟨.frm, rfl, h⟩
    · exact ⟨.ibuf, rfl, h⟩

/-- Settles O7. That an 8-bit write of a number above 255 is refused is the model's choice (log entry 4). -/
theorem hostWriteAdmittedExactlyWhereWritable : Obligations.HostWriteAdmittedExactlyWhereWritable := by
  intro s bits o v hc admitted
  have hiff : (∃ t, access (.write bits o v) s = .next t) ↔ admitted := by
    refine (hostWrite_admitted_iff s hc).trans (or_congr (and_congr_right fun _ => ?_) ?_)
    · show _ ↔ ∃ p ∈ writableRegs, o = p.1 ∧ v < 2 ^ p.2
      simp only [mem_writableRegs]
      constructor
      · rintro ⟨r, hw, ho, hv⟩
        exact ⟨_, ⟨r, hw, rfl⟩, ho, hv⟩
      · rintro ⟨_, ⟨r, hw, rfl⟩, ho, hv⟩
        exact ⟨r, hw, ho, hv⟩
    · rw [exists_writable_holds_iff]; rfl
  exact ⟨hiff.2, fun h => refused_of_not_next fun ht => h (hiff.1 ht)⟩

/-! ### What a host read returns (R33, R35) -/

theorem hostRead_reg (s : State) (r : Reg) : hostRead 32 r.offset s = .next { s with reply := some (s.get r) } := by
  simp [hostRead, answer]

theorem hostRead_byte {s : State} {sp : Space} {o : Nat} (hc : s.bufCap ≤ 4096) (ho : sp.holds s.bufCap o = true) :
    hostRead 8 o s = .next { s with reply := some ((s.mem.read o).setWidth 32) } := by
  simp [hostRead, answer, targetOf_byte hc ho]

/-- Settles O9: an offset within an array's size is one the array holds. -/
theorem hostReadReturnsTheValue : Obligations.HostReadReturnsTheValue := by
  refine ⟨hostRead_reg, fun _ => rfl, fun s sp k hc hk => hostRead_byte (sp := sp) hc ?_⟩
  exact Space.holds_iff.2 ⟨Nat.le_add_right .., Nat.add_lt_add_left hk _⟩

/-! ### Reset (R20, R190) -/

theorem State.get_resetWith (c : BitVec 16) {r : Reg} (hr : r ≠ .cap) : (State.resetWith c).get r = 0 := by
  cases r with
  | cap => contradiction
  | _ => rfl

/-- Settles O13, register by register. -/
theorem resetStateIsAllZeroButCap : Obligations.ResetStateIsAllZeroButCap :=
  ⟨fun c _ hr => State.get_resetWith c hr, fun _ => rfl, fun _ _ => rfl, rfl⟩

/-- A reset is taken whatever the state, and only the accesses still to come stay. -/
theorem step_reset {s : State} {rest : List Access} (h : s.pending = .reset :: rest) :
    step s = .next { State.resetWith s.cap with pending := rest } := by
  simp [step, h, access, resetCore]

/-- No register reads the accesses still to come. -/
theorem State.get_withPending (s : State) (p : List Access) (r : Reg) :
    ({ s with pending := p } : State).get r = s.get r := by
  cases r <;> rfl

/-- Settles O14, by O13's facts about the reset state. -/
theorem resetAccessTakesTheResetState : Obligations.ResetAccessTakesTheResetState := by
  intro s rest h
  refine ⟨_, step_reset h, rfl, fun r hr => ?_, fun _ => rfl, rfl⟩
  rw [State.get_withPending, State.get_resetWith _ hr]

/-- Settles O15: each command's checks evaluated at the reset state. -/
theorem commandsFromReset : Obligations.CommandsFromReset := by
  intro p hp
  fin_cases hp <;> exact ⟨_, rfl, rfl, rfl⟩

end Sys2Proof.Machine
end

section
/-! PROOFS. What a host access does: which reads are admitted and that they only answer (O6, O8), what a write to a
field register or to an array byte stores (O10, O11), and the command that a write to CMD starts (O3, O4). -/

namespace Sys2Proof.Machine

/-! ### Which host reads are admitted (R40, R43) -/

theorem offset_of_targetOf {cap o : Nat} {r : Reg} (h : targetOf cap o = some (.reg r)) : o = r.offset := by
  by_cases hr : o < 0x58 ∧ o % 4 = 0
  · obtain ⟨r', rfl⟩ := exists_reg_offset hr
    rw [targetOf_reg] at h
    cases h
    rfl
  · rw [targetOf_of_not_reg cap hr] at h
    obtain ⟨sp, -, hsp⟩ := Option.map_eq_some_iff.1 h
    cases hsp

/-- The arrays may overlap on a core of an illegal capacity; an offset that one of them holds names one all the same. -/
theorem exists_targetOf_byte {sp : Space} {cap o : Nat} (h : sp.holds cap o = true) :
    ∃ sp' : Space, targetOf cap o = some (.byte sp') := by
  have hfind : (Space.all.find? fun sp => sp.holds cap o).isSome = true :=
    List.find?_isSome.2 ⟨sp, by cases sp <;> decide, h⟩
  obtain ⟨sp', hsp'⟩ := Option.isSome_iff_exists.1 hfind
  exact ⟨sp', by rw [targetOf_of_not_reg cap (Space.not_reg_of_holds h), hsp', Option.map_some]⟩

theorem hostRead_admitted_iff {s : State} {bits o : Nat} : (∃ t, hostRead bits o s = .next t) ↔
    (bits = 32 ∧ o < 0x58 ∧ o % 4 = 0) ∨ (bits = 8 ∧ ∃ sp : Space, sp.holds s.bufCap o = true) := by
  constructor
  · rintro ⟨t, h⟩
    unfold hostRead at h
    split at h
    next => cases h
    next r hr =>
      split at h
      next => cases h
      next hb => exact .inl ⟨not_not.1 hb, offset_of_targetOf hr ▸ r.offset_lt⟩
    next sp hsp =>
      split at h
      next => cases h
      next hb => exact .inr ⟨not_not.1 hb, sp, holds_of_targetOf hsp⟩
  · rintro (⟨rfl, hr⟩ | ⟨rfl, sp, ho⟩)
    · obtain ⟨r, rfl⟩ := exists_reg_offset hr
      exact ⟨_, hostRead_reg s r⟩
    · obtain ⟨sp', hsp'⟩ := exists_targetOf_byte ho
      exact ⟨_, by rw [hostRead, hsp']; rfl⟩

/-- The bytes of all arrays: those of the writable ones and OBUF's (R40). -/
theorem exists_holds_iff {cap o : Nat} : (∃ sp : Space, sp.holds cap o = true) ↔
    0x100 ≤ o ∧ o ≤ 0x11E ∨ 0x120 ≤ o ∧ o ≤ 0x123 ∨ 0x1000 ≤ o ∧ o < 0x1000 + cap ∨
      0x2000 ≤ o ∧ o < 0x2000 + cap ∨ 0x3000 ≤ o ∧ o < 0x3000 + cap := by
  have hsplit : (∃ sp : Space, sp.holds cap o = true) ↔
      (∃ sp : Space, sp.hostWritable = true ∧ sp.holds cap o = true) ∨ Space.obuf.holds cap o = true := by
    constructor
    · rintro ⟨sp, h⟩
      cases sp with
      | obuf => exact .inr h
      | _ => exact .inl ⟨_, rfl, h⟩
    · rintro (⟨sp, -, h⟩ | h)
      · exact ⟨sp, h⟩
      · exact ⟨.obuf, h⟩
  have hobuf : Space.obuf.holds cap o = true ↔ 0x3000 ≤ o ∧ o < 0x3000 + cap := Space.holds_iff
  rw [hsplit, exists_writable_holds_iff, hobuf]
  simp only [or_assoc]

/-- Settles O6, by what an offset names. -/
theorem hostReadAdmittedExactlyWhereMapped : Obligations.HostReadAdmittedExactlyWhereMapped := by
  intro s bits o admitted
  have hiff : (∃ t, access (.read bits o) s = .next t) ↔ admitted :=
    hostRead_admitted_iff.trans (or_congr_right (and_congr_right fun _ => exists_holds_iff))
  exact ⟨hiff.2, fun h => refused_of_not_next fun ht => h (hiff.1 ht)⟩

/-- Settles O8: an admitted read only answers. -/
theorem hostReadHasNoSideEffect : Obligations.HostReadHasNoSideEffect := by
  intro s t bits o h
  obtain ⟨w, rfl⟩ := hostRead_cases h
  rfl

/-! ### What a write to a field register stores (R35) -/

section
variable (s : State) {v : Nat} {r : Reg}

theorem hostWrite_field (hw : r.hostWritable = true) (hc : r ≠ .cmd) (hv : v < 2 ^ r.width) :
    hostWrite 32 r.offset v s = .next (({ s with reply := none } : State).setField v r) := by
  simp [hostWrite, writeReg, hw, hc, Nat.not_le.2 hv]

/-- A value of `n` bits, stored and read back zero-extended (R33). -/
theorem toNat_setWidth_ofNat {n : Nat} (hn : n ≤ 32) (hv : v < 2 ^ n) : ((BitVec.ofNat n v).setWidth 32).toNat = v := by
  rw [BitVec.toNat_setWidth_of_le hn, BitVec.toNat_ofNat, Nat.mod_eq_of_lt hv]

theorem State.get_setField_same (hw : r.hostWritable = true) (hc : r ≠ .cmd) (hv : v < 2 ^ r.width) :
    ((s.setField v r).get r).toNat = v := by
  cases r with
  | cmd => exact absurd rfl hc
  | err | errinfo | lastop | olen | cap => cases hw
  | devaddr => exact (BitVec.toNat_ofNat ..).trans (Nat.mod_eq_of_lt hv)
  | _ => exact toNat_setWidth_ofNat (by decide) hv

/-- Each register reads a field of its own. -/
theorem State.get_setField_of_ne (v : Nat) {r' : Reg} (h : r' ≠ r) : (s.setField v r).get r' = s.get r' := by
  cases r <;> cases r' <;> first | rfl | exact absurd rfl h

@[simp] theorem State.setField_mem (v : Nat) (r : Reg) : (s.setField v r).mem = s.mem := by cases r <;> rfl

@[simp] theorem State.setField_pending (v : Nat) (r : Reg) : (s.setField v r).pending = s.pending := by cases r <;> rfl

@[simp] theorem State.setField_reply (v : Nat) (r : Reg) : (s.setField v r).reply = s.reply := by cases r <;> rfl

/-- No register reads the data returned to the host. -/
theorem State.get_withReply (d : Option Word) (r : Reg) : ({ s with reply := d } : State).get r = s.get r := by
  cases r <;> rfl

end

/-- Settles O10, by the rules of `State.setField`. -/
theorem fieldWriteStoresItsValueOnly : Obligations.FieldWriteStoresItsValueOnly := by
  intro s r v hw hc hv
  refine ⟨_, hostWrite_field s hw hc hv, State.get_setField_same _ hw hc hv, fun r' hr' => ?_, ?_, ?_, ?_⟩
  · rw [State.get_setField_of_ne _ v hr', State.get_withReply]
  · exact State.setField_mem ..
  · exact State.setField_pending ..
  · exact State.setField_reply ..

/-! ### What a write to an array byte stores (R35) -/

theorem hostWrite_byte {s : State} {sp : Space} {o v : Nat} (hc : s.bufCap ≤ 4096) (hw : sp.hostWritable = true)
    (ho : sp.holds s.bufCap o = true) (hv : v < 2 ^ 8) :
    hostWrite 8 o v s = .next { s with mem := s.mem.write o (BitVec.ofNat 8 v), reply := none } := by
  simp only [hostWrite, targetOf_byte hc ho, writeArrayByte, hw, if_neg (Nat.not_le.2 hv)]
  rfl

/-- Writing a byte changes no byte outside the one offset. -/
theorem sameOutside_write (m : Memory) (a : Nat) (b : Byte) : sameOutside a 1 m (m.write a b) :=
  fun _ hx => Memory.read_write_other (by omega) m b

/-- OBUF is the one array the host may not write (R21). -/
theorem Space.hostWritable_of_ne_obuf {sp : Space} (h : sp ≠ .obuf) : sp.hostWritable = true := by
  cases sp with
  | obuf => exact absurd rfl h
  | _ => rfl

/-- Settles O11, by the memory's laws of a read after a write. -/
theorem arrayWriteStoresItsByteOnly : Obligations.ArrayWriteStoresItsByteOnly := by
  intro s sp k v hwf hc hsp hk hv
  have hholds : sp.holds s.bufCap (sp.base + k) = true :=
    Space.holds_iff.2 ⟨Nat.le_add_right .., Nat.add_lt_add_left hk _⟩
  refine ⟨_, hostWrite_byte hc (Space.hostWritable_of_ne_obuf hsp) hholds hv, ?_, sameOutside_write _ _ _, rfl⟩
  calc ((s.mem.write (sp.base + k) (BitVec.ofNat 8 v)).read (sp.base + k)).toNat
    _ = (BitVec.ofNat 8 v).toNat := by rw [Memory.read_write_same hwf]
    _ = v := by rw [BitVec.toNat_ofNat, Nat.mod_eq_of_lt hv]

/-! ### The command that a write to CMD starts (R36, R70) -/

section
variable {s : State} {w : Word}

theorem step_command {rest : List Access} (h : s.pending = .write 32 0 w.toNat :: rest) :
    step s = writeCommand w { s with pending := rest, reply := none } := by
  simp only [step, h, access]
  exact hostWrite_command ..

theorem writeCommand_of_ok {i : Instr} (h : decode w = .ok i) :
    writeCommand w s = exec i { s with lastop := opcodeField w } := by
  simp only [writeCommand, h]

theorem writeCommand_of_error {e : DecodeError} (h : decode w = .error e) :
    writeCommand w s = .next (({ s with lastop := opcodeField w } : State).withStatus 11 0x19) := by
  simp only [writeCommand, h]
  rfl

theorem commandWordWellFormed_iff : commandWordWellFormed w = true ↔ w.extractLsb' 8 24 = 0 := beq_iff_eq

/-- A word with no bit above bit 7 and an opcode of R71 names that row's command. -/
theorem decode_of_mem_opcodeMap {p : Byte × Instr} (hp : p ∈ opcodeMap) (hu : w.extractLsb' 8 24 = 0)
    (ho : opcodeField w = p.1) : decode w = .ok p.2 := by
  have hrow : ∀ q ∈ opcodeMap, opcodeMap.lookup q.1 = some q.2 := by decide
  simp only [decode, if_pos (commandWordWellFormed_iff.2 hu), ho, hrow p hp]

theorem decode_error_of_bad (h : w.extractLsb' 8 24 ≠ 0 ∨ opcodeField w ∉ opcodeMap.map Prod.fst) :
    ∃ e, decode w = .error e := by
  by_cases hu : w.extractLsb' 8 24 = 0
  · have hop : opcodeField w ∉ opcodeMap.map Prod.fst := h.resolve_left (not_not.2 hu)
    have hnone : opcodeMap.lookup (opcodeField w) = none :=
      List.lookup_eq_none_iff.2 fun p hp => bne_iff_ne.2 fun he => hop (he ▸ List.mem_map_of_mem hp)
    exact ⟨.unknownOpcode, by simp only [decode, if_pos (commandWordWellFormed_iff.2 hu), hnone]⟩
  · exact ⟨.upperBitsSet, if_neg (mt commandWordWellFormed_iff.1 hu)⟩

end

/-- Settles O3. The accesses issued and the reply are the model's own fields (log entry 3). -/
theorem stepRunsDecodedCommand : Obligations.StepRunsDecodedCommand := by
  intro s w i rest hp hd
  exact (step_command hp).trans (writeCommand_of_ok hd)

/-- Settles O4: the rows of the statement are those of the opcode map (log entry 3 as in O3). -/
theorem commandWordStartsCommand : Obligations.CommandWordStartsCommand := by
  intro s w rest hp
  refine ⟨fun hbad => ?_, fun p hrow hu ho => ?_⟩
  · obtain ⟨e, he⟩ := decode_error_of_bad hbad
    exact (step_command hp).trans (writeCommand_of_error he)
  · exact (step_command hp).trans (writeCommand_of_ok (decode_of_mem_opcodeMap hrow hu ho))

end Sys2Proof.Machine
end

section
/-! PROOFS. The command word: its decoder and its encoder agree (O1, O2). -/

namespace Sys2Proof.Machine

/-- Every command's word decodes back to it (R71). -/
theorem decode_encode (i : Instr) : decode (encode i) = .ok i := by
  cases i <;> rfl

/-- A row of the opcode map holds its command's opcode (R71). -/
theorem opcode_of_commandOf {op : Byte} {i : Instr} (h : commandOf op = some i) : op = opcode i := by
  have hrow : ∀ p ∈ opcodeMap, p.1 = opcode p.2 := by decide
  obtain ⟨l₁, l₂, hmap, -⟩ := List.lookup_eq_some_iff.1 h
  exact hrow (op, i) (hmap ▸ List.mem_append_right l₁ (List.mem_cons_self ..))

/-- Only a word with no bit above bit 7 decodes (R70). -/
theorem wellFormed_of_decode {w : Word} {i : Instr} (h : decode w = .ok i) : w.extractLsb' 8 24 = 0 := by
  by_contra hu
  obtain ⟨e, he⟩ := decode_error_of_bad (.inl hu)
  rw [he] at h
  cases h

/-- A word with no bit above bit 7 is its OPCODE field, widened (R70). -/
theorem eq_setWidth_opcodeField {w : Word} (h : w.extractLsb' 8 24 = 0) : w = (opcodeField w).setWidth 32 := by
  have hu : w.toNat / 2 ^ 8 % 2 ^ 24 = 0 := by
    simpa [Nat.shiftRight_eq_div_pow] using congrArg BitVec.toNat h
  have hlt := w.isLt
  apply BitVec.eq_of_toNat_eq
  simp only [opcodeField, BitVec.toNat_setWidth, BitVec.extractLsb'_toNat, Nat.shiftRight_zero]
  omega

/-- Settles O2: a word that decodes has no bit above bit 7, and its OPCODE field names one command only. -/
theorem decodeAndEncodeAgree : Obligations.DecodeAndEncodeAgree := by
  intro w i
  constructor
  · intro h
    calc w = (opcodeField w).setWidth 32 := eq_setWidth_opcodeField (wellFormed_of_decode h)
      _ = encode i := by rw [opcode_of_commandOf (commandOf_opcodeField h), encode]
  · rintro rfl
    exact decode_encode i

/-- Settles O1: R71's words are the commands' words, so O2 decodes them; each bad word fails its check. -/
theorem opcodeTableWordsDecode : Obligations.OpcodeTableWordsDecode := by
  have hrow {w : Word} {i : Instr} (h : w = encode i) : decode w = .ok i := (decodeAndEncodeAgree w i).2 h
  exact ⟨hrow rfl, hrow rfl, hrow rfl, hrow rfl, hrow rfl, hrow rfl, hrow rfl, hrow rfl, hrow rfl, hrow rfl, hrow rfl,
    hrow rfl, hrow rfl, rfl, rfl, rfl⟩

end Sys2Proof.Machine
end

section
/-! PROOFS. What the commands that store a byte string store when they succeed: the payload cipher (O37), the tags of
the integrity engine (O46, O48) and the physical frame (O52). The codecs are first held to the layout tables R51 to R57
that the statements are written from. -/

namespace Sys2Proof.Machine

/-! ### The codecs spell the layout tables (R51 to R57) -/

/-- The FCtrl byte is the five registers side by side (R51). -/
theorem encodeFctrl_viewFctrl (s : State) : encodeFctrl s.viewFctrl = s.fctrlByte := by
  have h : ∀ (a b c d : BitVec 1) (n : BitVec 4), encodeFctrl ⟨a, b, c, d, n⟩ = a ++ b ++ c ++ d ++ n := by decide
  exact h ..

/-- The MHDR byte is MTYPE, three zeros and MAJOR side by side (R52). -/
theorem encodeMhdr_viewMhdr (s : State) : encodeMhdr s.viewMhdr = s.mhdrByte := by
  have h : ∀ (m : BitVec 3) (v : BitVec 2), encodeMhdr ⟨m, v⟩ = m ++ (0 : BitVec 3) ++ v := by decide
  exact h ..

theorem serializeFhdr_viewFhdr (s : State) : serializeFhdr s.viewFhdr = s.fhdrWire := by
  have hctrl : encodeFctrl s.viewFhdr.ctrl = s.fctrlByte := encodeFctrl_viewFctrl s
  rw [serializeFhdr, hctrl]
  rfl

theorem serializeData_viewData (s : State) : serializeData s.viewData = s.dataWire := by
  have hhdr : serializeFhdr s.viewData.hdr = s.fhdrWire := serializeFhdr_viewFhdr s
  rw [serializeData, hhdr, State.dataWire]
  by_cases hp : s.fportv = 1
  · simp only [State.viewData, if_pos hp]
    rfl
  · simp only [State.viewData, if_neg hp]

theorem dataWire_length (s : State) : s.dataWire.length = s.dataWireLength := by
  rw [← serializeData_viewData]
  exact serializeData_view_length s

/-- The counter on the wire, widened with zeros (R31). -/
theorem le_four_setWidth (v : BitVec 16) :
    le 4 (v.setWidth 32) = [v.extractLsb' 0 8, v.extractLsb' 8 8, 0x00, 0x00] := by
  have hlt := v.isLt
  simp only [le_four, List.cons.injEq, and_true]
  refine ⟨?_, ?_, ?_, ?_⟩ <;> apply BitVec.eq_of_toNat_eq <;> simp [Nat.shiftRight_eq_div_pow] <;> omega

/-- A_i and B0 are the blocks of R56 and R57. -/
theorem cryptoBlock_eq_blockWire (first dir : Byte) (addr : BitVec 32) (fcnt : BitVec 16) (n : Byte) :
    cryptoBlock first dir addr fcnt n = blockWire first dir addr fcnt n := by
  rw [cryptoBlock, le_four_setWidth]
  rfl

/-! ### Stores -/

section
variable {m : Memory} {v : List Byte} {n : Nat}

/-- Storing a byte string changes no byte outside its range. -/
theorem sameOutside_writeBytes (m : Memory) (a : Nat) (hv : v.length = n) : sameOutside a n m (m.writeBytes a v) := by
  subst hv
  exact fun _ hx => Memory.read_writeBytes_outside v hx m

theorem readBytes_writeBytes (hwf : Memory.wf m) (a : Nat) (hv : v.length = n) :
    (m.writeBytes a v).readBytes a n = v := by
  subst hv
  exact Memory.readBytes_writeBytes_same hwf a v

/-- Byte k of a byte string just stored. -/
theorem read_writeBytes_byteAt (hwf : Memory.wf m) (a : Nat) {k : Nat} (hk : k < v.length) :
    (m.writeBytes a v).read (a + k) = byteAt v k := by
  rw [Memory.read_writeBytes_inside hwf hk, byteAt_eq_getElem v k hk]

end

/-- OLEN counts every output that fits its 16 bits (R14). -/
theorem putOutput_olen_toNat (s : State) {v : List Byte} (hv : v.length < 2 ^ 16) :
    (s.putOutput v).olen.toNat = v.length := by
  rw [State.putOutput_olen, BitVec.toNat_ofNat, Nat.mod_eq_of_lt hv]

/-- A command that stores an output and succeeds changes the memory, OLEN, ERR and ERRINFO only (R160). -/
theorem putOutput_withStatus_eq (s : State) (v : List Byte) {t : State} (ht : (s.putOutput v).withStatus 0 0 = t) :
    t = { s with mem := t.mem, olen := t.olen, err := 0, errinfo := 0 } := by
  subst ht
  rfl

/-! ### The payload cipher (R126, R127) -/

/-- Byte j of a concatenation of 16-byte strings is byte j mod 16 of string j div 16. -/
theorem byteAt_flatMap_range {f : Nat → List Byte} (hf : ∀ k, (f k).length = 16) {n j : Nat} (hj : j < 16 * n) :
    byteAt ((List.range n).flatMap f) j = byteAt (f (j / 16)) (j % 16) := by
  induction n with
  | zero => omega
  | succ n ih =>
    have hlen : ((List.range n).flatMap f).length = 16 * n := by simp [List.length_flatMap, hf, Nat.mul_comm]
    rw [List.range_succ, List.flatMap_append, List.flatMap_singleton]
    by_cases hlt : j < 16 * n
    · rw [byteAt, List.getD_append _ _ _ _ (hlen ▸ hlt)]
      exact ih hlt
    · have hdiv : j / 16 = n := by omega
      have hmod : j - 16 * n = j % 16 := by omega
      rw [byteAt, List.getD_append_right _ _ _ _ (by omega), hlen, hmod, hdiv, byteAt]

/-- Byte j of the data is xored with byte j mod 16 of E(K, A_(j div 16 + 1)) (R125, R126). -/
theorem byteAt_cryptBytes (key data : List Byte) (down : BitVec 1) (addr : BitVec 32) (fcnt : BitVec 16) {j : Nat}
    (hj : j < data.length) :
    byteAt (cryptBytes key data down addr fcnt) j = byteAt data j ^^^
      byteAt (cipherE (Block.ofBytes key) (Block.ofBytes (blockA (j / 16 + 1) down addr fcnt))).toBytes (j % 16) := by
  have hceil : data.length ≤ ceilDiv data.length Config.blockBytes * 16 := le_ceilDiv_mul _
  have hks : j < (keystream key (ceilDiv data.length Config.blockBytes) down addr fcnt).length := by
    rw [keystream_length]; omega
  rw [cryptBytes, byteAt_xorBytes _ _ _ hj hks, keystream,
    byteAt_flatMap_range (fun _ => Block.toBytes_length _) (keystream_length .. ▸ hks)]

/-- CRYPT's success (R127). -/
theorem execCrypt_success {s : State} {v : List Byte} (hcap : s.ilen.toNat ≤ s.bufCap) (hkey : s.keylen = 16)
    (hmax : s.ilen.toNat ≤ 4080) (hv : cryptBytes s.keyBytes s.input s.dir s.devaddr s.fcnt = v) :
    execCrypt s = .next ((s.putOutput v).withStatus 0 0) := by
  rw [execCrypt, if_neg (Nat.not_lt.2 hcap), if_neg (by simp [hkey]), if_neg (Nat.not_lt.2 hmax), succeed_eq, hv]

/-- Settles O37, byte by byte; an input of at most 4080 bytes fits OLEN. -/
theorem cryptXorsTheKeystream : Obligations.CryptXorsTheKeystream := by
  intro s hwf hcap hkey hmax
  obtain ⟨v, hv⟩ : ∃ v, cryptBytes s.keyBytes s.input s.dir s.devaddr s.fcnt = v := ⟨_, rfl⟩
  have hlen : v.length = s.ilen.toNat := by rw [← hv, cryptBytes_length, input_length]
  refine ⟨_, execCrypt_success hcap hkey hmax hv, ?_, fun j hj => ?_, putOutput_withStatus_eq s v rfl,
    sameOutside_writeBytes s.mem 0x3000 hlen⟩
  · apply BitVec.eq_of_toNat_eq
    exact (putOutput_olen_toNat s (hlen ▸ s.ilen.isLt)).trans hlen
  · calc (s.mem.writeBytes 0x3000 v).read (0x3000 + j)
      _ = byteAt v j := read_writeBytes_byteAt hwf 0x3000 (hlen ▸ hj)
      _ = byteAt s.input j ^^^ byteAt (cipherE (Block.ofBytes s.keyBytes)
            (Block.ofBytes (blockA (j / 16 + 1) s.dir s.devaddr s.fcnt))).toBytes (j % 16) :=
        hv ▸ byteAt_cryptBytes _ _ _ _ _ (by rwa [input_length])
      _ = _ := by rw [byteAt_input s hj, blockA, cryptoBlock_eq_blockWire]; rfl

/-! ### The frame in the registers (R142, R151) -/

section
variable {s : State}

/-- There is no payload without a port (R8). -/
theorem not_portless_payload (hport : s.fportv = 0 → s.frmlen = 0) : ¬ (s.fportv = 0 ∧ s.frmlen.toNat > 0) := by
  rintro ⟨hp, hpos⟩
  rw [hport hp] at hpos
  exact absurd hpos (by decide)

theorem frameImage_eq (s : State) : s.frameImage = s.mhdrByte :: s.dataWire := by
  rw [State.frameImage, encodeMhdr_viewMhdr, serializeData_viewData]

theorem frameImage_length (s : State) : s.frameImage.length = 1 + s.dataWireLength := by
  rw [frameImage_eq, List.length_cons, dataWire_length, Nat.add_comm]

/-- The image SER_PHY stores is MIC_FRAME's with the MIC behind it (R151). -/
theorem phyImage_eq (s : State) : s.phyImage = s.mhdrByte :: (s.dataWire ++ s.micBytes) := by
  rw [State.phyImage, encodeMhdr_viewMhdr, serializeData_viewData, List.append_assoc, List.singleton_append]

theorem phyImage_length (s : State) : s.phyImage.length = 5 + s.dataWireLength := by
  rw [phyImage_eq, List.length_cons, List.length_append, dataWire_length, micBytes_length]
  omega

/-! ### The integrity engine (R140 to R142) -/

/-- The tag is the start of the CMAC of B0, its last byte the message's length, and the message (R139, R140). -/
theorem micTag_eq (d : Byte) (msg key : List Byte) (addr : BitVec 32) (fcnt : BitVec 16) :
    micTag d msg key addr fcnt = (cmac (Block.ofBytes key)
      (blockWire 0x49 d addr fcnt (BitVec.ofNat 8 msg.length) ++ msg)).toBytes.take 4 := by
  rw [micTag, blockB0, cryptoBlock_eq_blockWire]

/-- MIC's success (R141). -/
theorem execMic_success (hcap : s.ilen.toNat ≤ s.bufCap) (h2 : 2 ≤ s.mtype.toNat) (h5 : s.mtype.toNat ≤ 5)
    (hmax : s.ilen.toNat ≤ 255) (hkey : s.keylen = 16) :
    execMic s = .next ((s.memWrite .mic 0 (micTag (if s.mtype = 3 ∨ s.mtype = 5 then 0x01 else 0x00) s.input s.keyBytes
      s.devaddr s.fcnt)).withStatus 0 0) := by
  rw [execMic, if_neg (Nat.not_lt.2 hcap), if_neg (not_not.2 ((variantOf_data_iff _).2 ⟨h2, h5⟩)),
    if_neg (Nat.not_lt.2 hmax), if_neg (by simp [hkey]), storeMic_data s _ h2 h5 (by rwa [input_length])]

/-- MIC_FRAME's success (R142). -/
theorem execMicFrame_success (h2 : 2 ≤ s.mtype.toNat) (h5 : s.mtype.toNat ≤ 5) (hcap : s.frmlen.toNat ≤ s.bufCap)
    (hport : s.fportv = 0 → s.frmlen = 0) (hmax : s.frameImage.length ≤ 255) (hkey : s.keylen = 16) :
    execMicFrame s = .next ((s.memWrite .mic 0 (micTag (if s.mtype = 3 ∨ s.mtype = 5 then 0x01 else 0x00) s.frameImage
      s.keyBytes s.devaddr s.fcnt)).withStatus 0 0) := by
  rw [execMicFrame, if_neg (Nat.not_le.2 h2), if_neg (by omega), if_neg (Nat.not_lt.2 hcap),
    if_neg (not_portless_payload hport), if_neg (Nat.not_lt.2 hmax), if_neg (by simp [hkey]),
    storeMic_data s _ h2 h5 hmax]

/-- SER_PHY's success, whatever MAJOR holds (R151). -/
theorem execSerPhy_success (h2 : 2 ≤ s.mtype.toNat) (h5 : s.mtype.toNat ≤ 5) (hcap : s.frmlen.toNat ≤ s.bufCap)
    (hport : s.fportv = 0 → s.frmlen = 0) (hfits : s.phyImage.length ≤ s.bufCap) :
    execSerPhy s = .next ((s.putOutput s.phyImage).withStatus 0 0) := by
  rw [execSerPhy, if_neg (Nat.not_le.2 h2), if_neg (by omega), if_neg (Nat.not_lt.2 hcap),
    if_neg (not_portless_payload hport), if_neg (Nat.not_lt.2 hfits), succeed_eq]

end

/-- Settles O46: the tag has the four bytes of MIC. -/
theorem micTagsTheInput : Obligations.MicTagsTheInput := by
  intro s hwf hcap h2 h5 hmax hkey
  refine ⟨_, execMic_success hcap h2 h5 hmax hkey, ?_, rfl, sameOutside_writeBytes s.mem 0x120 (micTag_length ..)⟩
  refine (readBytes_writeBytes hwf 0x120 (micTag_length ..)).trans ?_
  rw [micTag_eq, input_length]
  rfl

/-- Settles O48: as O46, over the frame's image. -/
theorem micFrameTagsTheFrame : Obligations.MicFrameTagsTheFrame := by
  intro s hwf h2 h5 hcap hport hmax hkey
  refine ⟨_, execMicFrame_success h2 h5 hcap hport (by rwa [frameImage_length]) hkey, ?_, rfl,
    sameOutside_writeBytes s.mem 0x120 (micTag_length ..)⟩
  refine (readBytes_writeBytes hwf 0x120 (micTag_length ..)).trans ?_
  rw [micTag_eq, frameImage_length, frameImage_eq]
  rfl

/-- Settles O52: an output that fits BUF_CAP fits OLEN. -/
theorem serPhyStoresTheFrame : Obligations.SerPhyStoresTheFrame := by
  intro s hwf h2 h5 hcap hport hfits
  have hlen := phyImage_length s
  have hlt : s.phyImage.length < 2 ^ 16 := (hlen.trans_le hfits).trans_lt s.bufCap_lt
  exact ⟨_, execSerPhy_success h2 h5 hcap hport (hlen.trans_le hfits),
    (readBytes_writeBytes hwf 0x3000 hlen).trans (phyImage_eq s), (putOutput_olen_toNat s hlt).trans hlen,
    putOutput_withStatus_eq s _ rfl, sameOutside_writeBytes s.mem 0x3000 hlen⟩

end Sys2Proof.Machine
end

section
/-! PROOFS. Host scripts of two commands with a `mov IBUF, OBUF` between them: CRYPT twice (O40), SER_DATA and PAR_DATA
(O60). What such a script does is said once; each obligation then runs its two commands. -/

namespace Sys2Proof.Machine

/-! ### Transactions -/

/-- The state between two transactions of a script: no access issued, `r` returned by the last one. -/
def State.between (s : State) (r : Option Word) : State := { s with pending := [], reply := r }

section
variable {s : State} {sp : Space} {o v : Nat} {r : Reg}

theorem issue_read_reg (s : State) (r : Reg) : issue (.read 32 r.offset) s = .next (s.between (some (s.get r))) := by
  rw [← s.get_withPending [] r]
  exact hostRead_reg { s with pending := [] } r

theorem issue_read_byte (hc : s.bufCap ≤ 4096) (ho : sp.holds s.bufCap o = true) :
    issue (.read 8 o) s = .next (s.between (some ((s.mem.read o).setWidth 32))) :=
  hostRead_byte (s := { s with pending := [] }) hc ho

theorem issue_write_byte (hc : s.bufCap ≤ 4096) (hw : sp.hostWritable = true) (ho : sp.holds s.bufCap o = true)
    (hv : v < 2 ^ 8) :
    issue (.write 8 o v) s = .next (({ s with mem := s.mem.write o (BitVec.ofNat 8 v) } : State).between none) :=
  hostWrite_byte (s := { s with pending := [] }) hc hw ho hv

theorem issue_write_field (s : State) (hw : r.hostWritable = true) (hc : r ≠ .cmd) (hv : v < 2 ^ r.width) :
    issue (.write 32 r.offset v) s = .next ((s.between none).setField v r) :=
  hostWrite_field { s with pending := [] } hw hc hv

end

theorem State.Inv.issue {s t : State} (h : s.Inv) {a : Access} (ht : issue a s = .next t) : t.Inv :=
  (h.withPort [a] s.reply).step ht

/-- An admitted access that nothing is asserted of. -/
theorem runTransactions_cons {a : Access} {s t : State} (h : issue a s = .next t) (ts : List Transaction) :
    runTransactions ((a, none) :: ts) s = runTransactions ts t := by
  simp [runTransactions, h]

theorem runScript_cons {st : Stmt} {s t : State} (hwf : st.wellFormed s.bufCap = true)
    (h : runTransactions (st.transactions s) s = .done t) (sts : List Stmt) :
    runScript (st :: sts) s = runScript sts t := by
  simp only [runScript, if_pos hwf, h]

/-! ### `cmd MNEMONIC` -/

/-- The state a command starts in when the host issues it from `s`: LASTOP is written first (R70). -/
def State.starting (s : State) (i : Instr) : State := { s.between none with lastop := opcodeField (encode i) }

theorem issue_command (i : Instr) (s : State) :
    issue (.write 32 Reg.cmd.offset (encode i).toNat) s = exec i (s.starting i) :=
  (step_command rfl).trans (writeCommand_of_ok (decode_encode i))

theorem runTransactions_cmd {i : Instr} {s t : State} (h : exec i (s.starting i) = .next t) :
    runTransactions (Stmt.transactions s (.cmd i)) s = .done t :=
  runTransactions_cons ((issue_command i s).trans h) []

/-! ### `mov IBUF, OBUF` -/

theorem Space.holds_base_add {sp : Space} {cap i : Nat} (h : i < sp.size cap) : sp.holds cap (sp.base + i) = true :=
  Space.holds_iff.2 ⟨Nat.le_add_right .., Nat.add_lt_add_left h _⟩

/-- The read-then-write pairs of a `mov` store the string they carry. -/
theorem runTransactions_copyFrom {dst src : Space} (hw : dst.hostWritable = true) (bs : List Byte) {i : Nat} {s : State}
    (hc : s.bufCap ≤ 4096) (hd : i + bs.length ≤ dst.size s.bufCap) (hs : i + bs.length ≤ src.size s.bufCap)
    (r : Option Word) (ts : List Transaction) :
    ∃ r', runTransactions (copyFrom dst src i bs ++ ts) (s.between r) =
      runTransactions ts ((s.memWrite dst i bs).between r') := by
  induction bs generalizing i s r with
  | nil => exact ⟨r, rfl⟩
  | cons b bs ih =>
    rw [List.length_cons] at hd hs
    have hsrc : src.holds s.bufCap (src.base + i) = true := Space.holds_base_add (by omega)
    have hdst : dst.holds s.bufCap (dst.base + i) = true := Space.holds_base_add (by omega)
    have hd' : i + 1 + bs.length ≤ dst.size s.bufCap := by omega
    have hs' : i + 1 + bs.length ≤ src.size s.bufCap := by omega
    have hread := issue_read_byte (s := s.between r) hc hsrc
    have hwrite := issue_write_byte (s := s.between (some ((s.mem.read (src.base + i)).setWidth 32))) hc hw hdst b.isLt
    obtain ⟨r', hrest⟩ := ih (s := { s with mem := s.mem.write (dst.base + i) b }) hc hd' hs' none
    refine ⟨r', (runTransactions_cons hread _).trans ((runTransactions_cons hwrite _).trans ?_)⟩
    rw [BitVec.ofNat_toNat, BitVec.setWidth_eq]
    exact hrest

/-- The state after `mov IBUF, OBUF`: IBUF and ILEN hold what OBUF and OLEN hold (R72). -/
def State.afterMov (s : State) : State := { (s.memWrite .ibuf 0 (s.valid .obuf)).between none with ilen := s.olen }

theorem valid_length (s : State) (sp : Space) : (s.valid sp).length = s.validLength sp := Memory.readBytes_length ..

theorem runTransactions_mov {s : State} (h : s.Inv) :
    runTransactions (Stmt.movIbufObuf.transactions s) s = .done s.afterMov := by
  have hlen : (s.get .olen).toNat = s.olen.toNat := BitVec.toNat_setWidth_of_le (by decide)
  obtain ⟨-, hcap⟩ := h.cap
  have hfits : 0 + (s.valid .obuf).length ≤ s.bufCap := by
    rw [valid_length, Nat.zero_add]
    exact h.olen
  obtain ⟨r, hcopy⟩ := runTransactions_copyFrom (dst := .ibuf) (src := .obuf) rfl (s.valid .obuf) (i := 0) (s := s)
    hcap hfits hfits (some (s.get .olen)) [w32 .ilen s.olen.toNat]
  have hwrite : issue (.write 32 Reg.ilen.offset s.olen.toNat) ((s.memWrite .ibuf 0 (s.valid .obuf)).between r) =
      .next s.afterMov := by
    rw [issue_write_field _ rfl (by decide) s.olen.isLt, State.setField, BitVec.ofNat_toNat, BitVec.setWidth_eq]
    rfl
  calc runTransactions (Stmt.movIbufObuf.transactions s) s
    _ = runTransactions (copyFrom .ibuf .obuf 0 (s.valid .obuf) ++ [w32 .ilen s.olen.toNat])
          (s.between (some (s.get .olen))) := by
      rw [Stmt.transactions, moveBytes, hlen]
      exact runTransactions_cons (issue_read_reg s .olen) _
    _ = .done s.afterMov := hcopy.trans (runTransactions_cons hwrite [])

/-! ### A command that stores an output, a `mov`, and a second command -/

/-- The state in which the command `j` starts after one that stored `v` in OBUF and ended in success, and a
`mov IBUF, OBUF`. -/
def State.handedOver (s : State) (v : List Byte) (j : Instr) : State :=
  { s with
    mem := (s.mem.writeBytes Space.obuf.base v).writeBytes Space.ibuf.base v
    olen := BitVec.ofNat 16 v.length, ilen := BitVec.ofNat 16 v.length, err := 0, errinfo := 0
    lastop := opcodeField (encode j), pending := [], reply := none }

section
variable {s : State} {v : List Byte}

theorem afterMov_of_output (hwf : Memory.wf s.mem) (hv : v.length < 2 ^ 16) (i j : Instr) :
    (((s.starting i).putOutput v).withStatus 0 0).afterMov.starting j = s.handedOver v j := by
  have hout : (((s.starting i).putOutput v).withStatus 0 0).valid .obuf = v :=
    (State.valid_withStatus ..).trans (State.valid_obuf_putOutput (s := s.starting i) hwf hv)
  rw [State.afterMov, hout]
  simp only [State.starting, State.between, State.handedOver, State.memWrite, State.putOutput, State.withStatus,
    Nat.add_zero]

theorem runScript_handedOver {u : State} {i j : Instr} (h : s.Inv) (hv : v.length < 2 ^ 16)
    (hi : exec i (s.starting i) = .next (((s.starting i).putOutput v).withStatus 0 0))
    (hj : exec j (s.handedOver v j) = .next u) : runScript [.cmd i, .movIbufObuf, .cmd j] s = .done u := by
  have hmid := h.issue ((issue_command i s).trans hi)
  rw [← afterMov_of_output h.memWf hv i j] at hj
  rw [runScript_cons rfl (runTransactions_cmd hi), runScript_cons rfl (runTransactions_mov hmid),
    runScript_cons rfl (runTransactions_cmd hj), runScript]

variable (j : Instr)

theorem handedOver_memWf (hwf : Memory.wf s.mem) : Memory.wf (s.handedOver v j).mem :=
  Memory.writeBytes_wf (Memory.writeBytes_wf hwf _ _) _ _

theorem handedOver_ilen (hv : v.length < 2 ^ 16) : (s.handedOver v j).ilen.toNat = v.length :=
  (BitVec.toNat_ofNat ..).trans (Nat.mod_eq_of_lt hv)

theorem handedOver_input (hwf : Memory.wf s.mem) (hv : v.length < 2 ^ 16) : (s.handedOver v j).input = v :=
  State.valid_of_writeBytes (sp := .ibuf) (Memory.writeBytes_wf hwf _ _) rfl (handedOver_ilen j hv)

/-- KEY lies below IBUF and OBUF (R40). -/
theorem handedOver_keyBytes : (s.handedOver v j).keyBytes = s.keyBytes :=
  (Memory.readBytes_writeBytes_disjoint v (.inl (by decide)) _).trans
    (Memory.readBytes_writeBytes_disjoint v (.inl (by decide)) _)

end

/-! ### CRYPT twice (R128) -/

/-- The keystream depends on the length of the data only, and exclusive or with it twice is the identity. -/
theorem cryptBytes_cryptBytes (key data : List Byte) (down : BitVec 1) (addr : BitVec 32) (fcnt : BitVec 16) :
    cryptBytes key (cryptBytes key data down addr fcnt) down addr fcnt = data := by
  have hceil : data.length ≤ ceilDiv data.length Config.blockBytes * 16 := le_ceilDiv_mul _
  rw [cryptBytes, cryptBytes_length]
  exact xorBytes_involutive _ _ (by rw [keystream_length]; omega)

/-- Settles O40: no step of the script changes the key, the direction, the address or the counter. -/
theorem cryptTwiceRestoresTheInput : Obligations.CryptTwiceRestoresTheInput := by
  intro s hinv hcap hkey hmax
  obtain ⟨v, hv⟩ : ∃ v, cryptBytes s.keyBytes s.input s.dir s.devaddr s.fcnt = v := ⟨_, rfl⟩
  have hlen : v.length = s.ilen.toNat := by rw [← hv, cryptBytes_length, input_length]
  have hlt : v.length < 2 ^ 16 := hlen ▸ s.ilen.isLt
  have hilen : (s.handedOver v .crypt).ilen.toNat = s.ilen.toNat := (handedOver_ilen _ hlt).trans hlen
  have hplain : cryptBytes (s.handedOver v .crypt).keyBytes (s.handedOver v .crypt).input s.dir s.devaddr s.fcnt =
      s.input := by
    rw [handedOver_keyBytes, handedOver_input _ hinv.memWf hlt, ← hv, cryptBytes_cryptBytes]
  have hfirst : exec .crypt (s.starting .crypt) = .next (((s.starting .crypt).putOutput v).withStatus 0 0) :=
    execCrypt_success (s := s.starting .crypt) hcap hkey hmax hv
  have hsecond : exec .crypt (s.handedOver v .crypt) =
      .next (((s.handedOver v .crypt).putOutput s.input).withStatus 0 0) :=
    execCrypt_success (s := s.handedOver v .crypt) (hilen.trans_le hcap) hkey (hilen.trans_le hmax) hplain
  exact ⟨_, runScript_handedOver hinv hlt hfirst hsecond,
    (State.valid_withStatus ..).trans (State.valid_obuf_putOutput (handedOver_memWf _ hinv.memWf) s.input_length_lt)⟩

/-! ### SER_DATA, then PAR_DATA (R104) -/

theorem decodeFctrl_encodeFctrl (f : Fctrl) : decodeFctrl (encodeFctrl f) = f := by
  have h : ∀ (a b c d : BitVec 1) (n : BitVec 4), decodeFctrl (encodeFctrl ⟨a, b, c, d, n⟩) = ⟨a, b, c, d, n⟩ := by
    decide
  exact h ..

/-- The slice of a concatenation that starts behind the first byte of its second part. -/
theorem slice_after_cons (x : List Byte) (p : Byte) (y : List Byte) :
    slice (x ++ p :: y) (x.length + 1) (x ++ p :: y).length = y := by
  have hdrop : (x ++ p :: y).drop (x.length + 1) = y := by simp
  have hcount : y.length ≤ (x ++ p :: y).length - (x.length + 1) := by
    rw [List.length_append, List.length_cons]; omega
  rw [slice, hdrop, List.take_of_length_le hcount]

section
variable {h : Fhdr} (hh : h.wf) (rest : List Byte)

/-- FOptsLen is in the byte behind the address (R53). -/
theorem declaredOpts_serializeFhdr_append (h : Fhdr) (rest : List Byte) :
    declaredOpts (serializeFhdr h ++ rest) = h.ctrl.optsLen.toNat :=
  congrArg (fun f : Fctrl => f.optsLen.toNat) (decodeFctrl_encodeFctrl h.ctrl)

include hh

/-- The header at the front of a byte string is read back, whatever follows it (R94). -/
theorem fhdrOf_serializeFhdr_append : fhdrOf (serializeFhdr h ++ rest) = h := by
  have haddr : slice (serializeFhdr h ++ rest) 0 4 = le 4 h.devAddr := rfl
  have hctrl : byteAt (serializeFhdr h ++ rest) 4 = encodeFctrl h.ctrl := rfl
  have hfcnt : slice (serializeFhdr h ++ rest) 5 7 = le 2 h.fcnt := rfl
  have hopts : slice (serializeFhdr h ++ rest) 7 (7 + h.ctrl.optsLen.toNat) = h.opts := by
    rw [← hh, slice, Nat.add_sub_cancel_left]
    exact List.take_left
  rw [fhdrOf, declaredOpts_serializeFhdr_append, haddr, hctrl, hfcnt, hopts, fromLe_le_four, fromLe_le_two,
    decodeFctrl_encodeFctrl]

theorem fhdrBytes_serializeFhdr_append : fhdrBytes (serializeFhdr h ++ rest) = (serializeFhdr h).length := by
  rw [fhdrBytes, declaredOpts_serializeFhdr_append, serializeFhdr_length, hh]

theorem portOf_serializeFhdr_append : portOf (serializeFhdr h ++ rest) = rest.head? := by
  rw [portOf, fhdrBytes_serializeFhdr_append hh]
  cases rest with
  | nil => simp
  | cons p frm => simp [-serializeFhdr_length, byteAt]

theorem frmOf_serializeFhdr_append : frmOf (serializeFhdr h ++ rest) = rest.tail := by
  rw [frmOf, fhdrBytes_serializeFhdr_append hh]
  cases rest with
  | nil => simp
  | cons p frm =>
    rw [if_pos (by simp [-serializeFhdr_length]), slice_after_cons]
    rfl

end

theorem fhdr_fits_serializeData {d : DataPayload} (hh : d.hdr.wf) :
    7 + declaredOpts (serializeData d) ≤ (serializeData d).length := by
  rw [serializeData, declaredOpts_serializeFhdr_append, List.length_append, serializeFhdr_length, hh]
  exact Nat.le_add_right ..

/-- A serialized DataPayload is read back (R104). -/
theorem parsed_serializeData {d : DataPayload} (hd : d.wf) :
    (⟨fhdrOf (serializeData d), portOf (serializeData d), frmOf (serializeData d)⟩ : DataPayload) = d := by
  obtain ⟨hdr, port, frm⟩ := d
  obtain ⟨hhdr, hfrm⟩ := hd
  rw [serializeData, fhdrOf_serializeFhdr_append hhdr, portOf_serializeFhdr_append hhdr,
    frmOf_serializeFhdr_append hhdr]
  cases port with
  | none => rw [show frm = [] from hfrm rfl]; rfl
  | some p => rfl

/-! The registers after a store of the header and the payload (R18, R101). -/

/-- Without a port there is no payload (R54). -/
theorem frmOf_eq_nil {b : List Byte} (h : portOf b = none) : frmOf b = [] := by
  have hle : ¬ b.length > fhdrBytes b := fun hgt => by
    rw [portOf, if_pos hgt] at h
    cases h
  rw [frmOf, if_neg hle]

section
variable {s : State} (hwf : Memory.wf s.mem)
include hwf

theorem viewFhdr_putFhdr {h : Fhdr} (hh : h.wf) : (s.putFhdr h).viewFhdr = h := by
  have hopts : (s.putFhdr h).memRead .fopts 0 (s.putFhdr h).foptslen.toNat = h.opts :=
    State.valid_fopts_putFhdr hwf hh
  rw [State.viewFhdr, hopts]
  rfl

theorem viewData_putPayload {p : Option Byte} {v : List Byte} (hp : p = none → v = []) (hv : v.length < 2 ^ 16) :
    (s.putPayload p v).viewData = ⟨s.viewFhdr, p, v⟩ := by
  have hopts : (s.putPayload p v).memRead .fopts 0 (s.putPayload p v).foptslen.toNat = s.viewFhdr.opts :=
    State.valid_fopts_putPayload p v
  have hfrm : (s.putPayload p v).memRead .frm 0 (s.putPayload p v).frmlen.toNat = p.elim [] fun _ => v :=
    State.valid_frm_putPayload hwf p hv
  rw [State.viewData, State.viewFhdr, hopts, hfrm]
  cases p with
  | none => rw [hp rfl]; rfl
  | some x => rfl

theorem viewData_putDataFrom {b : List Byte} (hb : 7 + declaredOpts b ≤ b.length) (hlt : b.length < 2 ^ 16) :
    (s.putDataFrom b).viewData = ⟨fhdrOf b, portOf b, frmOf b⟩ := by
  have hfrm : (frmOf b).length < 2 ^ 16 := by rw [frmOf_length]; omega
  rw [State.putDataFrom, viewData_putPayload (Memory.writeBytes_wf hwf _ _) frmOf_eq_nil hfrm,
    viewFhdr_putFhdr hwf (fhdrOf_wf hb)]

end

/-- With no payload without a port, the registers hold a well-formed DataPayload (R18). -/
theorem viewData_wf {s : State} (hport : s.fportv = 0 → s.frmlen = 0) : s.viewData.wf := by
  refine ⟨viewFhdr_opts_length s, fun hnone => ?_⟩
  have hne : s.fportv ≠ 1 := fun h1 => by simp [State.viewData, h1] at hnone
  have hlen : s.frmlen = 0 := hport ((BitVec.eq_zero_or_eq_one s.fportv).resolve_right hne)
  rw [State.viewData, hlen]
  rfl

/-- SER_DATA's success (R100). -/
theorem execSerData_success {s : State} {v : List Byte} (hcap : s.frmlen.toNat ≤ s.bufCap)
    (hport : s.fportv = 0 → s.frmlen = 0) (hfits : v.length ≤ s.bufCap) (hv : serializeData s.viewData = v) :
    execSerData s = .next ((s.putOutput v).withStatus 0 0) := by
  rw [execSerData, if_neg (Nat.not_lt.2 hcap), if_neg (not_portless_payload hport), hv, if_neg (Nat.not_lt.2 hfits),
    succeed_eq]

/-- PAR_DATA's success (R101). -/
theorem execParData_success {s : State} {v : List Byte} (hcap : s.ilen.toNat ≤ s.bufCap) (hv : s.input = v)
    (hopts : 7 + declaredOpts v ≤ v.length) : execParData s = .next ((s.putDataFrom v).withStatus 0 0) := by
  subst hv
  rw [input_length] at hopts
  rw [execParData, if_neg (Nat.not_lt.2 hcap), if_neg (Nat.not_lt.2 (show 7 ≤ s.ilen.toNat by omega)),
    if_neg (Nat.not_lt.2 (show declaredOpts s.input ≤ s.ilen.toNat - 7 by omega)), succeed_eq]

/-- Settles O60: PAR_DATA's input is the serialized DataPayload, which it reads back. -/
theorem serDataThenParDataKeepsThePayload : Obligations.SerDataThenParDataKeepsThePayload := by
  intro s hinv hcap hport hfits
  have hdata : s.viewData.wf := viewData_wf hport
  obtain ⟨v, hv⟩ : ∃ v, serializeData s.viewData = v := ⟨_, rfl⟩
  have hlen : v.length ≤ s.bufCap := by
    rw [← hv, serializeData_view_length]
    exact hfits
  have hlt : v.length < 2 ^ 16 := hlen.trans_lt s.bufCap_lt
  have hopts : 7 + declaredOpts v ≤ v.length := hv ▸ fhdr_fits_serializeData (viewFhdr_opts_length s)
  have hser : exec .serData (s.starting .serData) = .next (((s.starting .serData).putOutput v).withStatus 0 0) :=
    execSerData_success (s := s.starting .serData) hcap hport hlen hv
  have hpar : exec .parData (s.handedOver v .parData) =
      .next (((s.handedOver v .parData).putDataFrom v).withStatus 0 0) :=
    execParData_success (s := s.handedOver v .parData) ((handedOver_ilen _ hlt).trans_le hlen)
      (handedOver_input _ hinv.memWf hlt) hopts
  refine ⟨_, runScript_handedOver hinv hlt hser hpar, rfl, ?_⟩
  calc ((s.handedOver v .parData).putDataFrom v).viewData
    _ = ⟨fhdrOf v, portOf v, frmOf v⟩ := viewData_putDataFrom (handedOver_memWf _ hinv.memWf) hopts hlt
    _ = s.viewData := hv ▸ parsed_serializeData hdata

end Sys2Proof.Machine
end

section
/-! PROOFS. The bit-field codec: what ENC_FCTRL, DEC_FCTRL, ENC_MHDR and DEC_MHDR do (O24 to O27), and that the two
commands of each pair are inverse, but for the RFU bits of the MHDR byte (O28, O29). -/

namespace Sys2Proof.Machine

/-! ### A byte and its fields (R51, R52) -/

/-- The fields DEC_FCTRL stores spell the byte they were cut from (R51, R84). -/
theorem fctrlByte_putFctrl_decodeFctrl (s : State) (b : Byte) : (s.putFctrl (decodeFctrl b)).fctrlByte = b := by
  change b.extractLsb' 7 1 ++ b.extractLsb' 6 1 ++ b.extractLsb' 5 1 ++ b.extractLsb' 4 1 ++ b.extractLsb' 0 4 = b
  rw [BitVec.extractLsb'_append_extractLsb'_eq_extractLsb' (show 7 = 6 + 1 from rfl),
    BitVec.extractLsb'_append_extractLsb'_eq_extractLsb' (show 6 = 5 + 1 from rfl),
    BitVec.extractLsb'_append_extractLsb'_eq_extractLsb' (show 5 = 4 + 1 from rfl),
    BitVec.extractLsb'_append_extractLsb'_eq_extractLsb' (show 4 = 0 + 4 from rfl)]
  exact BitVec.extractLsb'_eq_self

/-- A byte is the two MHDR fields with its RFU bits 4:2 between them (R52). -/
theorem mtype_append_rfu_append_major (b : Byte) :
    (decodeMhdr b).mtype ++ b.extractLsb' 2 3 ++ (decodeMhdr b).major = b := by
  change b.extractLsb' 5 3 ++ b.extractLsb' 2 3 ++ b.extractLsb' 0 2 = b
  rw [BitVec.extractLsb'_append_extractLsb'_eq_extractLsb' (show 5 = 2 + 3 from rfl),
    BitVec.extractLsb'_append_extractLsb'_eq_extractLsb' (show 2 = 0 + 2 from rfl)]
  exact BitVec.extractLsb'_eq_self

/-- The mask 0xE3 clears the RFU bits and keeps the fields around them (R85). -/
theorem append_and_rfuMask (m rfu : BitVec 3) (v : BitVec 2) :
    (m ++ rfu ++ v) &&& 0xE3 = m ++ (0 : BitVec 3) ++ v :=
  calc (m ++ rfu ++ v) &&& (BitVec.allOnes 3 ++ (0 : BitVec 3) ++ BitVec.allOnes 2)
    _ = (m &&& BitVec.allOnes 3) ++ (rfu &&& 0) ++ (v &&& BitVec.allOnes 2) := by
      rw [BitVec.and_append, BitVec.and_append]
    _ = m ++ (0 : BitVec 3) ++ v := by
      simp only [BitVec.and_allOnes, BitVec.and_zero, BitVec.ofNat_eq_ofNat]

/-- The fields DEC_MHDR stores spell the byte they were cut from, its RFU bits cleared (R85). -/
theorem mhdrByte_putMhdr_decodeMhdr (s : State) (b : Byte) : (s.putMhdr (decodeMhdr b)).mhdrByte = b &&& 0xE3 :=
  calc (decodeMhdr b).mtype ++ (0 : BitVec 3) ++ (decodeMhdr b).major
    _ = ((decodeMhdr b).mtype ++ b.extractLsb' 2 3 ++ (decodeMhdr b).major) &&& 0xE3 := (append_and_rfuMask ..).symm
    _ = b &&& 0xE3 := by rw [mtype_append_rfu_append_major]

theorem decodeFctrl_fctrlByte (s : State) : decodeFctrl s.fctrlByte = s.viewFctrl := by
  rw [← encodeFctrl_viewFctrl, decodeFctrl_encodeFctrl]

theorem decodeMhdr_encodeMhdr (h : Mhdr) : decodeMhdr (encodeMhdr h) = h := by
  have hall : ∀ (m : BitVec 3) (v : BitVec 2), decodeMhdr (encodeMhdr ⟨m, v⟩) = ⟨m, v⟩ := by decide
  exact hall ..

theorem decodeMhdr_mhdrByte (s : State) : decodeMhdr s.mhdrByte = s.viewMhdr := by
  rw [← encodeMhdr_viewMhdr, decodeMhdr_encodeMhdr]

/-! ### What the four commands do -/

theorem exec_encFctrl (s : State) :
    exec .encFctrl s = .next { s with byte := s.fctrlByte, err := 0, errinfo := 0 } := by
  rw [← encodeFctrl_viewFctrl]
  rfl

theorem exec_decFctrl (s : State) : exec .decFctrl s = .next ((s.putFctrl (decodeFctrl s.byte)).withStatus 0 0) := rfl

theorem exec_encMhdr (s : State) : exec .encMhdr s = .next { s with byte := s.mhdrByte, err := 0, errinfo := 0 } := by
  rw [← encodeMhdr_viewMhdr]
  rfl

theorem exec_decMhdr (s : State) : exec .decMhdr s = .next ((s.putMhdr (decodeMhdr s.byte)).withStatus 0 0) := rfl

/-- Settles O24: the codec spells the byte of R51. -/
theorem encFctrlPacksTheRegisters : Obligations.EncFctrlPacksTheRegisters :=
  ⟨decode_encode .encFctrl, exec_encFctrl⟩

/-- Settles O25: the five slices of BYTE are adjacent and cover it. -/
theorem decFctrlUnpacksTheByte : Obligations.DecFctrlUnpacksTheByte :=
  ⟨decode_encode .decFctrl, fun s => ⟨_, exec_decFctrl s, fctrlByte_putFctrl_decodeFctrl s s.byte, rfl⟩⟩

/-- Settles O26: the codec spells the byte of R52. -/
theorem encMhdrPacksTheRegisters : Obligations.EncMhdrPacksTheRegisters :=
  ⟨decode_encode .encMhdr, exec_encMhdr⟩

/-- Settles O27: the RFU bits are BYTE's own bits 4:2. -/
theorem decMhdrUnpacksTheByte : Obligations.DecMhdrUnpacksTheByte :=
  ⟨decode_encode .decMhdr, fun s =>
    ⟨_, exec_decMhdr s, ⟨s.byte.extractLsb' 2 3, (mtype_append_rfu_append_major s.byte).symm⟩, rfl⟩⟩

/-! ### Round trips (R84, R85) -/

/-- Settles O28: the second command unpacks the byte that the first spells, or spells the fields it unpacked. -/
theorem fctrlRoundTripsBitForBit : Obligations.FctrlRoundTripsBitForBit := by
  constructor
  · intro s t u hdec henc
    obtain rfl := next_inj ((exec_decFctrl s).symm.trans hdec)
    obtain rfl := next_inj ((exec_encFctrl _).symm.trans henc)
    exact fctrlByte_putFctrl_decodeFctrl s s.byte
  · intro s t u henc hdec
    obtain rfl := next_inj ((exec_encFctrl s).symm.trans henc)
    obtain rfl := next_inj ((exec_decFctrl _).symm.trans hdec)
    exact decodeFctrl_fctrlByte s

/-- Settles O29, as O28; packing the fields again puts zeros where the RFU bits stood. -/
theorem mhdrRoundTripsButForRfuBits : Obligations.MhdrRoundTripsButForRfuBits := by
  constructor
  · intro s t u henc hdec
    obtain rfl := next_inj ((exec_encMhdr s).symm.trans henc)
    obtain rfl := next_inj ((exec_decMhdr _).symm.trans hdec)
    exact decodeMhdr_mhdrByte s
  · intro s t u hdec henc
    obtain rfl := next_inj ((exec_decMhdr s).symm.trans hdec)
    obtain rfl := next_inj ((exec_encMhdr _).symm.trans henc)
    exact mhdrByte_putMhdr_decodeMhdr s s.byte

end Sys2Proof.Machine
end

section
/-! PROOFS. The frame header codec: what SER_FHDR stores (O30), what PAR_FHDR reads and how it fails (O31, O32), and
that parse_fhdr and serialize_fhdr are inverse (O56). -/

namespace Sys2Proof.Machine

/-! ### SER_FHDR (R90) -/

theorem exec_serFhdr (s : State) : exec .serFhdr s = .next ((s.putOutput s.fhdrWire).withStatus 0 0) := by
  rw [← serializeFhdr_viewFhdr]
  rfl

theorem fhdrWire_length (s : State) : s.fhdrWire.length = 7 + s.foptslen.toNat := by
  rw [← serializeFhdr_viewFhdr, serializeFhdr_length, viewFhdr_opts_length]

/-- Settles O30: an FHDR has at most 22 bytes, which OLEN can count. -/
theorem serFhdrStoresTheHeader : Obligations.SerFhdrStoresTheHeader := by
  refine ⟨decode_encode .serFhdr, fun s hwf => ?_⟩
  have hlen := fhdrWire_length s
  have hlt : s.fhdrWire.length < 2 ^ 16 := by
    have hopts := s.foptslen.isLt
    omega
  exact ⟨_, exec_serFhdr s, readBytes_writeBytes hwf 0x3000 hlen, (putOutput_olen_toNat s hlt).trans hlen,
    putOutput_withStatus_eq s _ rfl, sameOutside_writeBytes s.mem 0x3000 hlen⟩

/-! ### Slices of the wire bytes (R7, R53) -/

section
variable {b : List Byte} {a n : Nat}

theorem slice_append_slice {m : Nat} (ham : a ≤ m) (hmn : m ≤ n) : slice b a m ++ slice b m n = slice b a n := by
  have hdrop : b.drop m = (b.drop a).drop (m - a) := by rw [List.drop_drop, Nat.add_sub_cancel' ham]
  have hcount : n - a = (m - a) + (n - m) := by omega
  rw [slice, slice, slice, hdrop, hcount, List.take_add]

theorem byteAt_slice {k : Nat} (hk : k < n - a) : byteAt (slice b a n) k = byteAt b (a + k) := by
  simp [byteAt, slice, List.getD_eq_getElem?_getD, hk]

theorem slice_eq_map_byteAt (h : a + n ≤ b.length) :
    slice b a (a + n) = (List.range n).map fun k => byteAt b (a + k) := by
  apply List.ext_getElem
  · simp; omega
  · intro k hk hk'
    rw [← byteAt_eq_getElem, byteAt_slice (by simpa using hk'), List.getElem_map, List.getElem_range]

end

/-! The wire integers are their bytes side by side, the last byte uppermost (R7, R30). -/

theorem toNat_append_byte {w : Nat} (v : BitVec w) (b : Byte) : (v ++ b).toNat = b.toNat + 256 * v.toNat := by
  rw [BitVec.toNat_append, ← Nat.shiftLeft_add_eq_or_of_lt b.isLt, Nat.shiftLeft_eq]
  omega

theorem ofNat_fromLe_two (b0 b1 : Byte) : BitVec.ofNat 16 (fromLe [b0, b1]) = b1 ++ b0 := by
  have hsum : fromLe [b0, b1] = (b1 ++ b0).toNat := by simp [fromLe, toNat_append_byte]
  rw [hsum, BitVec.ofNat_toNat, BitVec.setWidth_eq]

theorem ofNat_fromLe_four (b0 b1 b2 b3 : Byte) :
    BitVec.ofNat 32 (fromLe [b0, b1, b2, b3]) = b3 ++ b2 ++ b1 ++ b0 := by
  have hsum : fromLe [b0, b1, b2, b3] = (b3 ++ b2 ++ b1 ++ b0).toNat := by simp [fromLe, toNat_append_byte]
  rw [hsum, BitVec.ofNat_toNat, BitVec.setWidth_eq]

theorem encodeFctrl_decodeFctrl (b : Byte) : encodeFctrl (decodeFctrl b) = b :=
  (encodeFctrl_viewFctrl (State.reset.putFctrl (decodeFctrl b))).trans (fctrlByte_putFctrl_decodeFctrl _ b)

/-! ### The header at the front of a byte string (R53, R91, R93) -/

section
variable {b : List Byte}

theorem slice_addr (hb : 7 ≤ b.length) : slice b 0 4 = [byteAt b 0, byteAt b 1, byteAt b 2, byteAt b 3] :=
  slice_eq_map_byteAt (a := 0) (n := 4) (by omega)

theorem slice_fcnt (hb : 7 ≤ b.length) : slice b 5 7 = [byteAt b 5, byteAt b 6] :=
  slice_eq_map_byteAt (a := 5) (n := 2) hb

/-- Serializing the header that was read gives back the bytes it was read from (R94). -/
theorem serializeFhdr_fhdrOf (hb : 7 ≤ b.length) : serializeFhdr (fhdrOf b) = slice b 0 (7 + declaredOpts b) := by
  have haddr : le 4 (fhdrOf b).devAddr = slice b 0 4 := by
    rw [slice_addr hb, ← le_fromLe_four, ← slice_addr hb]; rfl
  have hfcnt : le 2 (fhdrOf b).fcnt = slice b 5 7 := by
    rw [slice_fcnt hb, ← le_fromLe_two, ← slice_fcnt hb]; rfl
  have hctrl : [encodeFctrl (fhdrOf b).ctrl] = slice b 4 5 := by
    rw [slice_eq_map_byteAt (a := 4) (n := 1) (by omega)]
    exact congrArg ([·]) (encodeFctrl_decodeFctrl _)
  calc serializeFhdr (fhdrOf b)
    _ = slice b 0 4 ++ slice b 4 5 ++ slice b 5 7 ++ slice b 7 (7 + declaredOpts b) := by
      rw [serializeFhdr, haddr, hctrl, hfcnt]; rfl
    _ = slice b 0 (7 + declaredOpts b) := by
      rw [slice_append_slice (by decide) (by decide), slice_append_slice (by decide) (by decide),
        slice_append_slice (by decide) (by omega)]

theorem parseFhdr_tooShort (hb : b.length < 7) : parseFhdr b = .error .tooShort := if_pos hb

theorem parseFhdr_truncatedOptions (hb : 7 ≤ b.length) (hopts : b.length - 7 < declaredOpts b) :
    parseFhdr b = .error .truncatedOptions := by
  rw [parseFhdr, if_neg (Nat.not_lt.2 hb), if_pos hopts]

theorem parseFhdr_ok (hb : 7 + declaredOpts b ≤ b.length) : parseFhdr b = .ok (fhdrOf b, 7 + declaredOpts b) := by
  rw [parseFhdr, if_neg (by simp only [Config.fhdrMin]; omega), if_neg (by simp only [Config.fhdrMin]; omega)]

/-- When parse_fhdr succeeds, and with what (R93). -/
theorem parseFhdr_ok_iff {h : Fhdr} {k : Nat} :
    parseFhdr b = .ok (h, k) ↔ 7 + declaredOpts b ≤ b.length ∧ h = fhdrOf b ∧ k = 7 + declaredOpts b := by
  constructor
  · intro hp
    by_cases hb : b.length < 7
    · rw [parseFhdr_tooShort hb] at hp
      cases hp
    · by_cases hopts : b.length - 7 < declaredOpts b
      · rw [parseFhdr_truncatedOptions (by omega) hopts] at hp
        cases hp
      · have hfits : 7 + declaredOpts b ≤ b.length := by omega
        rw [parseFhdr_ok hfits] at hp
        cases hp
        exact ⟨hfits, rfl, rfl⟩
  · rintro ⟨hfits, rfl, rfl⟩
    exact parseFhdr_ok hfits

end

/-- Settles O56: the header of a serialized FHDR is read back whole, and the slices a header is read from are adjacent. -/
theorem fhdrRoundTrips : Obligations.FhdrRoundTrips := by
  refine ⟨fun h hh => ?_, fun b h k hp => ?_⟩
  · have hread : fhdrOf (serializeFhdr h) = h := by simpa using fhdrOf_serializeFhdr_append hh []
    have hopts : declaredOpts (serializeFhdr h) = h.ctrl.optsLen.toNat := by
      simpa using declaredOpts_serializeFhdr_append h []
    rw [parseFhdr_ok (by rw [hopts, serializeFhdr_length, hh]), hread, hopts]
  · obtain ⟨hfits, rfl, rfl⟩ := parseFhdr_ok_iff.1 hp
    exact ⟨fhdrOf_wf hfits, serializeFhdr_fhdrOf (by omega)⟩

/-! ### PAR_FHDR (R91) -/

section
variable {s : State}

/-- The FHDR registers after a store of the header at the front of `b`, `f` being its bytes (R53). -/
theorem holdsFhdr_putFhdr (hwf : Memory.wf s.mem) {b : List Byte} {f : Nat → Byte} (hb : 7 + declaredOpts b ≤ b.length)
    (hf : ∀ k < 7 + declaredOpts b, byteAt b k = f k) : (s.putFhdr (fhdrOf b)).holdsFhdr f := by
  have haddr : (fhdrOf b).devAddr = byteAt b 3 ++ byteAt b 2 ++ byteAt b 1 ++ byteAt b 0 := by
    rw [← ofNat_fromLe_four, ← slice_addr (by omega)]; rfl
  have hfcnt : (fhdrOf b).fcnt = byteAt b 6 ++ byteAt b 5 := by
    rw [← ofNat_fromLe_two, ← slice_fcnt (by omega)]; rfl
  have hctrl : (s.putFhdr (fhdrOf b)).fctrlByte = byteAt b 4 := fctrlByte_putFctrl_decodeFctrl s _
  refine ⟨?_, ?_, ?_, fun k hk => ?_⟩
  · rw [State.putFhdr_devaddr, haddr, hf 0 (by omega), hf 1 (by omega), hf 2 (by omega), hf 3 (by omega)]
  · rw [hctrl, hf 4 (by omega)]
  · rw [State.putFhdr_fcnt, hfcnt, hf 5 (by omega), hf 6 (by omega)]
  · have hk : k < declaredOpts b := hk
    calc (s.mem.writeBytes 0x110 (fhdrOf b).opts).read (0x110 + k)
      _ = byteAt (slice b 7 (7 + declaredOpts b)) k :=
        read_writeBytes_byteAt hwf 0x110 (by rwa [fhdrOf_opts_length b hb])
      _ = byteAt b (7 + k) := byteAt_slice (by omega)
      _ = f (7 + k) := hf _ (by omega)

/-- No FHDR register is a status register (R11, R14). -/
theorem holdsFhdr_withStatus {f : Nat → Byte} (e : BitVec 4) (x : Byte) (h : s.holdsFhdr f) :
    (s.withStatus e x).holdsFhdr f := by
  obtain ⟨haddr, hctrl, hfcnt, hopts⟩ := h
  exact ⟨haddr, hctrl, hfcnt, hopts⟩

/-- The option bytes IBUF declares are counted by bits 3:0 of its byte 4 (R59). -/
theorem declaredOpts_input (h7 : 7 ≤ s.ilen.toNat) : declaredOpts s.input = (s.mem.read 0x2004).toNat % 16 := by
  rw [declaredOpts_eq, byteAt_input s (by omega)]

/-- A command that stores an FHDR and succeeds changes the FHDR registers, the memory, ERR and ERRINFO only (R160). -/
theorem putFhdr_withStatus_eq (s : State) (h : Fhdr) {t : State} (ht : (s.putFhdr h).withStatus 0 0 = t) :
    t = { s with devaddr := t.devaddr, adr := t.adr, adrackreq := t.adrackreq, ack := t.ack, fpending := t.fpending,
                 foptslen := t.foptslen, fcnt := t.fcnt, mem := t.mem, err := 0, errinfo := 0 } := by
  subst ht
  rfl

/-- PAR_FHDR's success (R91). -/
theorem exec_parFhdr_success (hcap : s.ilen.toNat ≤ s.bufCap) (hfits : 7 + declaredOpts s.input ≤ s.ilen.toNat) :
    exec .parFhdr s = .next ((s.putFhdr (fhdrOf s.input)).withStatus 0 0) := by
  have h7 : 7 ≤ s.ilen.toNat := by omega
  have hopts : declaredOpts s.input ≤ s.ilen.toNat - 7 := by omega
  exact (if_neg (Nat.not_lt.2 hcap)).trans ((if_neg (Nat.not_lt.2 h7)).trans (if_neg (Nat.not_lt.2 hopts)))

end

/-- Settles O31: the header's bytes and its option bytes lie inside the input. -/
theorem parFhdrReadsTheHeader : Obligations.ParFhdrReadsTheHeader := by
  intro s hwf hcap h7 hopts
  rw [← declaredOpts_input h7] at hopts ⊢
  have hfits : 7 + declaredOpts s.input ≤ s.ilen.toNat := by omega
  have hlen : 7 + declaredOpts s.input ≤ s.input.length := by rwa [input_length]
  have hheld := holdsFhdr_putFhdr hwf hlen fun k hk => byteAt_input s (hk.trans_le hfits)
  exact ⟨_, exec_parFhdr_success hcap hfits, holdsFhdr_withStatus 0 0 hheld, rfl, putFhdr_withStatus_eq s _ rfl,
    sameOutside_writeBytes s.mem 0x110 (fhdrOf_opts_length _ hlen)⟩

/-- Settles O32: the order of the checks is the order of the clauses. -/
theorem parFhdrErrorsInOrder : Obligations.ParFhdrErrorsInOrder := by
  intro s
  refine ⟨fun hlong => ?_, fun hcap hshort => ?_, fun hcap h7 htrunc => ?_⟩
  · exact if_pos hlong
  · exact (if_neg (Nat.not_lt.2 hcap)).trans (if_pos hshort)
  · rw [← declaredOpts_input h7] at htrunc
    exact (if_neg (Nat.not_lt.2 hcap)).trans ((if_neg (Nat.not_lt.2 h7)).trans (if_pos htrunc))

end Sys2Proof.Machine
end

section
/-! PROOFS. The parse commands do what the pure parsers say (O59): the answers of parse_data and parse_phy, and each
outcome of PAR_FHDR, PAR_DATA and PAR_PHY held against its parser's answer. -/

namespace Sys2Proof.Machine

/-! ### What parse_data answers (R103) -/

section
variable {b : List Byte}

/-- parse_data fails where parse_fhdr does, with the same error. -/
theorem parseData_of_parseFhdr_error {e : Error} (h : parseFhdr b = .error e) : parseData b = .error e := by
  by_cases hb : b.length < 7
  · rw [parseFhdr_tooShort hb] at h
    cases h
    exact if_pos hb
  · rw [parseData, if_neg hb, h]

theorem parseData_ok (hb : 7 + declaredOpts b ≤ b.length) :
    parseData b = .ok ⟨fhdrOf b, portOf b, frmOf b⟩ := by
  rw [parseData, if_neg (by simp only [Config.fhdrMin]; omega), parseFhdr_ok hb, portOf, frmOf]
  by_cases hport : b.length > fhdrBytes b
  · rw [if_pos hport, if_pos hport]
    exact if_pos hport
  · rw [if_neg hport, if_neg hport]
    exact if_neg hport

/-! ### What parse_phy answers (R155) -/

theorem variantOf_join {m : BitVec 3} (h : m.toNat < 2) :
    variantOf m = some .joinRequest ∨ variantOf m = some .joinAccept := by
  revert m; decide

theorem variantOf_other {m : BitVec 3} (h : 5 < m.toNat) : variantOf m = none := by
  revert m; decide

theorem parsePhy_tooShort (hb : b.length < 5) : parsePhy b = .error .tooShort := if_pos hb

section
variable (hb : 5 ≤ b.length)
include hb

theorem parsePhy_unsupportedVersion (hmajor : (decodeMhdr (byteAt b 0)).major ≠ 0) :
    parsePhy b = .unsupportedVersion (decodeMhdr (byteAt b 0)) (micTrailer b) :=
  (if_neg (Nat.not_lt.2 hb)).trans (if_pos hmajor)

variable (hmajor : (decodeMhdr (byteAt b 0)).major = 0)
include hmajor

theorem parsePhy_notImplemented (hjoin : (decodeMhdr (byteAt b 0)).mtype.toNat < 2) :
    parsePhy b = .error .notImplemented := by
  rcases variantOf_join hjoin with hvariant | hvariant <;>
    simp only [parsePhy, if_neg (Nat.not_lt.2 hb), hmajor, hvariant, ne_eq, not_true_eq_false, if_false]

theorem parsePhy_unsupportedMessageType (hother : 5 < (decodeMhdr (byteAt b 0)).mtype.toNat) :
    parsePhy b = .error .unsupportedMessageType := by
  simp only [parsePhy, if_neg (Nat.not_lt.2 hb), hmajor, variantOf_other hother, ne_eq, not_true_eq_false, if_false]

variable (hdata : variantOf (decodeMhdr (byteAt b 0)).mtype = some .data)
include hdata

theorem parsePhy_data_error {e : Error} (he : parseFhdr (macRegion b) = .error e) : parsePhy b = .error e := by
  simp only [parsePhy, if_neg (Nat.not_lt.2 hb), hmajor, hdata, ne_eq, not_true_eq_false, if_false,
    parseData_of_parseFhdr_error he]

theorem parsePhy_ok (hfits : 7 + declaredOpts (macRegion b) ≤ (macRegion b).length) :
    parsePhy b = .ok ⟨decodeMhdr (byteAt b 0),
      .data ⟨fhdrOf (macRegion b), portOf (macRegion b), frmOf (macRegion b)⟩, micTrailer b⟩ := by
  simp only [parsePhy, if_neg (Nat.not_lt.2 hb), hmajor, hdata, ne_eq, not_true_eq_false, if_false,
    parseData_ok hfits]

end
end

/-! ### A command held against its parser's answer -/

/-- A command that ends in `x` follows the answer of parse_fhdr or parse_data: the error's code, or the value stored. -/
def FollowsParse {α : Type} (store : α → State) (x : Result) : Except Error α → Prop
  | .error e => ∃ t, x = .next t ∧ t.err = e.code
  | .ok v => x = .next ((store v).withStatus 0 0)

/-- PAR_PHY, run in `s` and ending in `x`, follows the answer of parse_phy, the partial result included. -/
def FollowsParsePhy (s : State) (x : Result) : PhyParse → Prop
  | .error e => ∃ t, x = .next t ∧ t.err = e.code
  | .unsupportedVersion h m => x = .next (((s.putMhdr h).memWrite .mic 0 m).withStatus 3 0x43)
  | .ok p => ∀ d, p.payload = .data d → x =
      .next (((((s.putMhdr p.mhdr).memWrite .mic 0 p.mic).putFhdr d.hdr).putPayload d.port d.frm).withStatus 0 0)

section
variable {s : State} (hcap : s.ilen.toNat ≤ s.bufCap)
include hcap

theorem parFhdr_followsParse :
    FollowsParse (fun p : Fhdr × Nat => s.putFhdr p.1) (exec .parFhdr s) (parseFhdr s.input) := by
  have hlen := input_length s
  obtain ⟨t, ht⟩ := exec_completes .parFhdr s
  rcases execParFhdr_cases ht with ⟨hlong, _⟩ | ⟨_, hshort, rfl⟩ | ⟨_, h7, htrunc, rfl⟩ | ⟨_, hfits, rfl⟩
  · omega
  · rw [parseFhdr_tooShort (hlen.trans_lt hshort)]
    exact ⟨_, ht, rfl⟩
  · rw [parseFhdr_truncatedOptions (hlen ▸ h7) (hlen ▸ htrunc)]
    exact ⟨_, ht, rfl⟩
  · rw [parseFhdr_ok (hlen ▸ hfits)]
    exact ht

theorem parData_followsParse :
    FollowsParse (fun d : DataPayload => (s.putFhdr d.hdr).putPayload d.port d.frm) (exec .parData s)
      (parseData s.input) := by
  have hlen := input_length s
  obtain ⟨t, ht⟩ := exec_completes .parData s
  rcases execParData_cases ht with ⟨hlong, _⟩ | ⟨_, hshort, rfl⟩ | ⟨_, h7, htrunc, rfl⟩ | ⟨_, hfits, rfl⟩
  · omega
  · rw [parseData_of_parseFhdr_error (parseFhdr_tooShort (hlen.trans_lt hshort))]
    exact ⟨_, ht, rfl⟩
  · rw [parseData_of_parseFhdr_error (parseFhdr_truncatedOptions (hlen ▸ h7) (hlen ▸ htrunc))]
    exact ⟨_, ht, rfl⟩
  · rw [parseData_ok (hlen ▸ hfits)]
    exact ht

theorem parPhy_followsParse : FollowsParsePhy s (exec .parPhy s) (parsePhy s.input) := by
  have hlen := input_length s
  obtain ⟨t, ht⟩ := exec_completes .parPhy s
  rcases execParPhy_cases ht with ⟨hlong, _⟩ | ⟨_, hshort, rfl⟩ | ⟨⟨_, h5⟩, hrest⟩
  · omega
  · rw [parsePhy_tooShort (hlen.trans_lt hshort)]
    exact ⟨_, ht, rfl⟩
  have hb : 5 ≤ s.input.length := hlen ▸ h5
  rcases hrest with ⟨hmajor, rfl⟩ | ⟨hmajor, ⟨hjoin, rfl⟩ | ⟨hother, rfl⟩ | ⟨htype, hrest⟩⟩
  · rw [parsePhy_unsupportedVersion hb hmajor]
    exact ht
  · rw [parsePhy_notImplemented hb hmajor hjoin]
    exact ⟨_, ht, rfl⟩
  · rw [parsePhy_unsupportedMessageType hb hmajor hother]
    exact ⟨_, ht, rfl⟩
  have hdata := (variantOf_data_iff _).2 htype
  have hregion : (macRegion s.input).length = s.ilen.toNat - 5 := by rw [macRegion_length _ hb, hlen]
  rcases hrest with ⟨hshort, rfl⟩ | ⟨h12, htrunc, rfl⟩ | ⟨hfits, rfl⟩
  · rw [parsePhy_data_error hb hmajor hdata (parseFhdr_tooShort (by omega))]
    exact ⟨_, ht, rfl⟩
  · rw [parsePhy_data_error hb hmajor hdata (parseFhdr_truncatedOptions (by omega) (by omega))]
    exact ⟨_, ht, rfl⟩
  · rw [parsePhy_ok hb hmajor hdata (by omega)]
    rintro d ⟨⟩
    exact ht

end

/-- Settles O59: each clause is a command's agreement with its parser at one form of answer. -/
theorem parseCommandsFollowTheParsers : Obligations.ParseCommandsFollowTheParsers := by
  intro s hcap
  have hfhdr := parFhdr_followsParse hcap
  have hdata := parData_followsParse hcap
  have hphy := parPhy_followsParse hcap
  refine ⟨fun e he => ?_, fun h k hp => ?_, fun e he => ?_, fun d hp => ?_, fun e he => ?_, fun h m hp => ?_,
    fun p d hp => ?_⟩
  · rwa [he] at hfhdr
  · rwa [hp] at hfhdr
  · rwa [he] at hdata
  · rwa [hp] at hdata
  · rwa [he] at hphy
  · rwa [hp] at hphy
  · rw [hp] at hphy
    exact hphy d

end Sys2Proof.Machine
end

section
/-! PROOFS. The MAC payload codec: that parse_data and serialize_data are inverse (O57), what SER_DATA stores and how it
fails (O33, O34), and what PAR_DATA reads and how it fails (O35, O36). -/

namespace Sys2Proof.Machine

/-! ### The port and the payload of a byte string (R54, R101) -/

section
variable {b : List Byte}

theorem portOf_of_lt (h : 7 + declaredOpts b < b.length) : portOf b = some (byteAt b (7 + declaredOpts b)) := if_pos h

theorem portOf_of_le (h : b.length ≤ 7 + declaredOpts b) : portOf b = none := if_neg (Nat.not_lt.2 h)

theorem frmOf_of_lt (h : 7 + declaredOpts b < b.length) : frmOf b = slice b (7 + declaredOpts b + 1) b.length :=
  if_pos h

/-- The payload is what follows the header and the port. -/
theorem frmOf_length_eq : (frmOf b).length = b.length - (8 + declaredOpts b) := by
  rw [frmOf_length, fhdrBytes, Config.fhdrMin, Nat.add_right_comm]

/-! ### parse_data and serialize_data (R104) -/

/-- When parse_data succeeds, and with what (R103). -/
theorem parseData_ok_iff {d : DataPayload} :
    parseData b = .ok d ↔ 7 + declaredOpts b ≤ b.length ∧ d = ⟨fhdrOf b, portOf b, frmOf b⟩ := by
  constructor
  · intro hp
    cases hh : parseFhdr b with
    | error e =>
      rw [parseData_of_parseFhdr_error hh] at hp
      cases hp
    | ok r =>
      obtain ⟨hfits, -, -⟩ := parseFhdr_ok_iff.1 hh
      rw [parseData_ok hfits] at hp
      cases hp
      exact ⟨hfits, rfl⟩
  · rintro ⟨hfits, rfl⟩
    exact parseData_ok hfits

/-- Header, port and payload are adjacent slices that end with the byte string. -/
theorem serializeData_parsed (hb : 7 + declaredOpts b ≤ b.length) :
    serializeData ⟨fhdrOf b, portOf b, frmOf b⟩ = b := by
  have hhdr : serializeFhdr (fhdrOf b) = slice b 0 (7 + declaredOpts b) := serializeFhdr_fhdrOf (by omega)
  by_cases hport : 7 + declaredOpts b < b.length
  · have hbyte : slice b (7 + declaredOpts b) (7 + declaredOpts b + 1) = [byteAt b (7 + declaredOpts b)] :=
      slice_eq_map_byteAt (n := 1) hport
    calc serializeData ⟨fhdrOf b, portOf b, frmOf b⟩
      _ = slice b 0 (7 + declaredOpts b) ++ (slice b (7 + declaredOpts b) (7 + declaredOpts b + 1) ++
            slice b (7 + declaredOpts b + 1) b.length) := by
        rw [serializeData, hhdr, portOf_of_lt hport, frmOf_of_lt hport, hbyte]; rfl
      _ = slice b 0 b.length := by
        rw [slice_append_slice (Nat.le_succ _) hport, slice_append_slice (Nat.zero_le _) hb]
      _ = b := slice_self b
  · have hlen : 7 + declaredOpts b = b.length := by omega
    calc serializeData ⟨fhdrOf b, portOf b, frmOf b⟩
      _ = slice b 0 (7 + declaredOpts b) ++ [] := by
        rw [serializeData, hhdr, portOf_of_le hlen.ge]
      _ = b := by rw [List.append_nil, hlen, slice_self]

end

/-- Settles O57: a serialized payload has room for its options, and the slices a payload is read from are adjacent. -/
theorem dataPayloadRoundTrips : Obligations.DataPayloadRoundTrips := by
  refine ⟨fun d hd => ?_, fun b d hp => ?_⟩
  · exact parseData_ok_iff.2 ⟨fhdr_fits_serializeData hd.left, (parsed_serializeData hd).symm⟩
  · obtain ⟨hfits, rfl⟩ := parseData_ok_iff.1 hp
    exact ⟨⟨fhdrOf_wf hfits, frmOf_eq_nil⟩, serializeData_parsed hfits⟩

/-! ### SER_DATA (R100) -/

/-- Settles O33: an output that fits BUF_CAP fits OLEN. -/
theorem serDataStoresThePayload : Obligations.SerDataStoresThePayload := by
  intro s hwf hcap hport hfits
  have hlen := dataWire_length s
  have hlt : s.dataWire.length < 2 ^ 16 := (hlen.trans_le hfits).trans_lt s.bufCap_lt
  exact ⟨_, execSerData_success hcap hport (hlen.trans_le hfits) (serializeData_viewData s),
    readBytes_writeBytes hwf 0x3000 hlen, (putOutput_olen_toNat s hlt).trans hlen,
    putOutput_withStatus_eq s _ rfl, sameOutside_writeBytes s.mem 0x3000 hlen⟩

/-- Settles O34: the order of the checks is the order of the clauses. -/
theorem serDataErrorsInOrder : Obligations.SerDataErrorsInOrder := by
  intro s
  refine ⟨fun hlong => ?_, fun hcap hnone hpos => ?_, fun hcap hport hlong => ?_⟩
  · exact if_pos hlong
  · exact (if_neg (Nat.not_lt.2 hcap)).trans (if_pos ⟨hnone, hpos⟩)
  · rw [← dataWire_length, ← serializeData_viewData] at hlong
    exact (if_neg (Nat.not_lt.2 hcap)).trans ((if_neg (not_portless_payload hport)).trans (if_pos hlong))

/-! ### PAR_DATA (R101) -/

section
variable {s : State} {f : Nat → Byte}

/-- Storing a port and a payload changes no byte outside the payload's place in FRM. -/
theorem read_putPayload_outside (s : State) (p : Option Byte) {v : List Byte} {a : Nat}
    (ha : a < 0x1000 ∨ 0x1000 + v.length ≤ a) : (s.putPayload p v).mem.read a = s.mem.read a := by
  cases p with
  | none => rfl
  | some x => exact Memory.read_writeBytes_outside v ha s.mem

/-- The FHDR registers survive a store of the port and the payload: FOPTS lies below FRM (R40). -/
theorem holdsFhdr_putPayload (h : s.holdsFhdr f) (p : Option Byte) (v : List Byte) :
    (s.putPayload p v).holdsFhdr f := by
  obtain ⟨haddr, hctrl, hfcnt, hopts⟩ := h
  refine ⟨by rwa [State.putPayload_devaddr], ?_, by rwa [State.putPayload_fcnt], fun k hk => ?_⟩
  · rw [← hctrl]
    cases p <;> rfl
  · rw [State.putPayload_foptslen] at hk
    have hlow : 0x110 + k < 0x1000 := by
      have hmax := s.foptslen.isLt
      omega
    rw [read_putPayload_outside s p (.inl hlow), hopts k hk]

/-- The Data registers after a store of the DataPayload `b`, `f` being its bytes (R54). -/
theorem holdsData_putDataFrom (hwf : Memory.wf s.mem) {b : List Byte} (hb : 7 + declaredOpts b ≤ b.length)
    (hlt : b.length < 2 ^ 16) (hf : ∀ k < b.length, byteAt b k = f k) :
    (s.putDataFrom b).holdsData f b.length (declaredOpts b) := by
  have hhdr := holdsFhdr_putFhdr hwf hb fun k hk => hf k (hk.trans_le hb)
  refine ⟨holdsFhdr_putPayload hhdr _ _, congrArg BitVec.toNat (State.putPayload_foptslen ..), ?_⟩
  by_cases hport : 7 + declaredOpts b < b.length
  · rw [if_pos hport, State.putDataFrom, portOf_of_lt hport]
    refine ⟨rfl, hf _ hport, ?_, fun k hk => ?_⟩
    · rw [State.putPayload_some_frmlen, BitVec.toNat_ofNat, frmOf_length_eq, Nat.mod_eq_of_lt (by omega)]
    · calc ((s.putFhdr (fhdrOf b)).mem.writeBytes 0x1000 (frmOf b)).read (0x1000 + k)
        _ = byteAt (slice b (7 + declaredOpts b + 1) b.length) k := by
          rw [← frmOf_of_lt hport]
          exact read_writeBytes_byteAt (Memory.writeBytes_wf hwf _ _) 0x1000 (hk.trans_eq frmOf_length_eq.symm)
        _ = byteAt b (8 + declaredOpts b + k) := by
          rw [byteAt_slice (by omega), Nat.add_right_comm 7]
        _ = f (8 + declaredOpts b + k) := hf _ (by omega)
  · rw [if_neg hport, State.putDataFrom, portOf_of_le (Nat.not_lt.1 hport)]
    exact ⟨rfl, rfl, rfl⟩

/-- No Data register is a status register (R11, R14). -/
theorem holdsData_withStatus {len n : Nat} (e : BitVec 4) (x : Byte) (h : s.holdsData f len n) :
    (s.withStatus e x).holdsData f len n := by
  obtain ⟨hhdr, hopts, hpayload⟩ := h
  exact ⟨holdsFhdr_withStatus e x hhdr, hopts, hpayload⟩

/-- A store of the DataPayload `b` writes the option bytes' place in FOPTS and the payload's in FRM only (R71). -/
theorem read_putDataFrom_outside (s : State) {b : List Byte} (hb : 7 + declaredOpts b ≤ b.length) {a : Nat}
    (hopts : a < 0x110 ∨ 0x110 + declaredOpts b ≤ a)
    (hfrm : a < 0x1000 ∨ 0x1000 + (b.length - (8 + declaredOpts b)) ≤ a) :
    (s.putDataFrom b).mem.read a = s.mem.read a := by
  calc (s.putDataFrom b).mem.read a
    _ = (s.putFhdr (fhdrOf b)).mem.read a := read_putPayload_outside _ _ (by rwa [frmOf_length_eq])
    _ = s.mem.read a := sameOutside_writeBytes s.mem 0x110 (fhdrOf_opts_length b hb) a hopts

/-- A command that stores a DataPayload and succeeds changes the Data registers, the memory, ERR and ERRINFO only
(R160). -/
theorem putDataFrom_withStatus_eq (s : State) (b : List Byte) {t : State} (ht : (s.putDataFrom b).withStatus 0 0 = t) :
    t = { s with devaddr := t.devaddr, adr := t.adr, adrackreq := t.adrackreq, ack := t.ack, fpending := t.fpending,
                 foptslen := t.foptslen, fcnt := t.fcnt, fportv := t.fportv, fport := t.fport, frmlen := t.frmlen,
                 mem := t.mem, err := 0, errinfo := 0 } := by
  subst ht
  unfold State.putDataFrom
  cases portOf b <;> rfl

end

/-- Settles O35: every byte of the DataPayload lies inside the input. -/
theorem parDataReadsThePayload : Obligations.ParDataReadsThePayload := by
  intro s hwf hcap h7 hopts
  rw [← declaredOpts_input h7] at hopts ⊢
  rw [← input_length] at h7 hopts ⊢
  have hfits : 7 + declaredOpts s.input ≤ s.input.length := by omega
  have hheld := holdsData_putDataFrom hwf hfits s.input_length_lt fun k hk => byteAt_input s (by rwa [← input_length])
  exact ⟨_, execParData_success hcap rfl hfits, holdsData_withStatus 0 0 hheld, putDataFrom_withStatus_eq s _ rfl,
    fun a => read_putDataFrom_outside s hfits⟩

/-- Settles O36: the order of the checks is the order of the clauses. -/
theorem parDataErrorsInOrder : Obligations.ParDataErrorsInOrder := by
  intro s
  refine ⟨fun hlong => ?_, fun hcap hshort => ?_, fun hcap h7 htrunc => ?_⟩
  · exact if_pos hlong
  · exact (if_neg (Nat.not_lt.2 hcap)).trans (if_pos hshort)
  · rw [← declaredOpts_input h7] at htrunc
    exact (if_neg (Nat.not_lt.2 hcap)).trans ((if_neg (Nat.not_lt.2 h7)).trans (if_pos htrunc))

end Sys2Proof.Machine
end

section
/-! PROOFS. The block cipher: the S-box is the affine map of the field inverse (O43), every step of the cipher is a
bijection on blocks (O44), and the known answers (O42). -/

namespace Sys2Proof.Machine

open Function

/-! ### The S-box (R112, R114) -/

/-- The inverse of the affine map of R114. -/
def unaffine (b : Byte) : Byte := b.rotateLeft 1 ^^^ b.rotateLeft 3 ^^^ b.rotateLeft 6 ^^^ 0x05

theorem unaffine_affine (y : Byte) : unaffine (affine y) = y := by
  revert y; decide

theorem affine_unaffine (b : Byte) : affine (unaffine b) = b := by
  revert b; decide

/-- The `y` that R114's formula needs for `v`. By `gfMul_gfInv` and `gfInv_zero` it is the field inverse of `v`, with 0
mapped to 0. -/
def gfInv (v : Byte) : Byte := unaffine (sbox v)

theorem sbox_eq_affine_gfInv (v : Byte) : sbox v = affine (gfInv v) := (affine_unaffine _).symm

theorem gfInv_zero : gfInv 0 = 0 := by decide

theorem gfMul_gfInv {v : Byte} (hv : v ≠ 0) : gfMul v (gfInv v) = 1 := by
  revert v; decide

/-- Settles O43: the `y` of the formula is `gfInv v`. -/
theorem sboxIsTheAffineInverse : Obligations.SboxIsTheAffineInverse := by
  intro v
  refine ⟨gfInv v, ?_, sbox_eq_affine_gfInv v⟩
  by_cases hv : v = 0
  · subst hv
    exact .inr ⟨rfl, gfInv_zero⟩
  · exact .inl (gfMul_gfInv hv)

/-! ### SubBytes (R115) -/

/-- The inverse of the inverse, 0 included. -/
theorem gfInv_involutive : Involutive gfInv := by
  unfold Involutive
  decide

theorem affine_bijective : Bijective affine :=
  bijective_iff_has_inverse.2 ⟨unaffine, unaffine_affine, affine_unaffine⟩

theorem sbox_bijective : Bijective sbox := by
  have hsbox : sbox = affine ∘ gfInv := funext sbox_eq_affine_gfInv
  rw [hsbox]
  exact affine_bijective.comp gfInv_involutive.bijective

/-- A function on each byte of a column. -/
def Column.map (f : Byte → Byte) (c : Column) : Column := ⟨f c.b0, f c.b1, f c.b2, f c.b3⟩

/-- A function on each column of a block. -/
def Block.map (f : Column → Column) (t : Block) : Block := ⟨f t.c0, f t.c1, f t.c2, f t.c3⟩

theorem Column.map_bijective {f : Byte → Byte} (hf : Bijective f) : Bijective (Column.map f) := by
  obtain ⟨g, hgf, hfg⟩ := bijective_iff_has_inverse.1 hf
  refine bijective_iff_has_inverse.2 ⟨Column.map g, fun c => ?_, fun c => ?_⟩
  · simp only [Column.map, hgf _]
  · simp only [Column.map, hfg _]

theorem Block.map_bijective {f : Column → Column} (hf : Bijective f) : Bijective (Block.map f) := by
  obtain ⟨g, hgf, hfg⟩ := bijective_iff_has_inverse.1 hf
  refine bijective_iff_has_inverse.2 ⟨Block.map g, fun t => ?_, fun t => ?_⟩
  · simp only [Block.map, hgf _]
  · simp only [Block.map, hfg _]

/-- SubBytes applies the S-box to each byte. -/
theorem subBytes_bijective : Bijective subBytes :=
  Block.map_bijective (Column.map_bijective sbox_bijective)

/-! ### ShiftRows and MixColumns (R116, R117): four applications are the identity -/

theorem bijective_of_involutive_twice {α : Type} {f : α → α} (h : Involutive (f ∘ f)) : Bijective f :=
  ⟨h.injective.of_comp, h.surjective.of_comp⟩

theorem shiftRows_bijective : Bijective shiftRows := bijective_of_involutive_twice fun _ => rfl

/-- Multiplication by x is a shift and a reduction, both of them additive (R112). -/
theorem xtime_eq (a : Byte) : xtime a = a <<< 1 ^^^ bif a.msb then 0x1B else 0 := by
  unfold xtime
  cases a.msb with
  | false => exact BitVec.xor_zero.symm
  | true => rfl

theorem xtime_xor (a b : Byte) : xtime (a ^^^ b) = xtime a ^^^ xtime b := by
  have hreduce (p q : Bool) : (bif p ^^ q then 0x1B else 0 : Byte) =
      (bif p then 0x1B else 0) ^^^ bif q then 0x1B else 0 := by
    revert p q; decide
  rw [xtime_eq, xtime_eq a, xtime_eq b, BitVec.shiftLeft_xor_distrib, BitVec.msb_xor, hreduce]
  ac_rfl

/-- One byte of a mixed column, from the column's bytes in order, its own row's first. -/
def mixRow (p q r s : Byte) : Byte := mul2 p ^^^ mul3 q ^^^ r ^^^ s

/-- The rows of R117 are one row, rotated. -/
theorem Column.mix_eq (a : Column) :
    a.mix = ⟨mixRow a.b0 a.b1 a.b2 a.b3, mixRow a.b1 a.b2 a.b3 a.b0,
      mixRow a.b2 a.b3 a.b0 a.b1, mixRow a.b3 a.b0 a.b1 a.b2⟩ := by
  simp only [Column.mix, mixRow, Column.mk.injEq, true_and]
  refine ⟨?_, ?_, ?_⟩ <;> ac_rfl

/-- The square of R117's matrix has 5 on the diagonal, 4 two places from it, and 0 elsewhere. -/
theorem mixRow_mixRow (p q r s : Byte) :
    mixRow (mixRow p q r s) (mixRow q r s p) (mixRow r s p q) (mixRow s p q r) =
      p ^^^ xtime (xtime (p ^^^ r)) := by
  have hleft (x y z : Byte) : x ^^^ (y ^^^ z) = y ^^^ (x ^^^ z) := by ac_rfl
  have hself (x y : Byte) : x ^^^ (x ^^^ y) = y := by rw [← BitVec.xor_assoc, BitVec.xor_self, BitVec.zero_xor]
  simp only [mixRow, mul2, mul3, xtime_xor]
  generalize xtime (xtime p) = p2, xtime (xtime q) = q2, xtime (xtime r) = r2, xtime (xtime s) = s2,
    xtime p = p1, xtime q = q1, xtime r = r1, xtime s = s1
  simp only [BitVec.xor_assoc, BitVec.xor_comm, hleft, hself]

theorem Column.mix_mix (a : Column) :
    a.mix.mix = ⟨a.b0 ^^^ xtime (xtime (a.b0 ^^^ a.b2)), a.b1 ^^^ xtime (xtime (a.b1 ^^^ a.b3)),
      a.b2 ^^^ xtime (xtime (a.b2 ^^^ a.b0)), a.b3 ^^^ xtime (xtime (a.b3 ^^^ a.b1))⟩ := by
  simp only [Column.mix_eq, mixRow_mixRow]

/-- The square of the matrix is an involution: it adds one multiple of `p ^^^ r` to `p` and to `r`, which keeps
`p ^^^ r`, so a second application adds the same multiple again. -/
theorem Column.mix_mix_involutive : Involutive (Column.mix ∘ Column.mix) := by
  have hrow (p r : Byte) : p ^^^ xtime (xtime (p ^^^ r)) ^^^
      xtime (xtime (p ^^^ xtime (xtime (p ^^^ r)) ^^^ (r ^^^ xtime (xtime (r ^^^ p))))) = p := by
    have hsum (d : Byte) : p ^^^ d ^^^ (r ^^^ d) = p ^^^ r := by
      rw [BitVec.xor_comm r, BitVec.xor_assoc, ← BitVec.xor_assoc d, BitVec.xor_self, BitVec.zero_xor]
    rw [BitVec.xor_comm r p, hsum, BitVec.xor_assoc, BitVec.xor_self, BitVec.xor_zero]
  intro a
  simp only [comp_apply, Column.mix_mix, hrow]

theorem Column.mix_bijective : Bijective Column.mix := bijective_of_involutive_twice Column.mix_mix_involutive

theorem mixColumns_bijective : Bijective mixColumns := Block.map_bijective Column.mix_bijective

/-! ### The rounds (R118) -/

theorem Column.xor_xor_self (c k : Column) : (c.xor k).xor k = c := by
  simp only [Column.xor, BitVec.xor_assoc, BitVec.xor_self, BitVec.xor_zero]

theorem Block.xor_bijective (k : Block) : Bijective (Block.xor · k) := by
  have hinv : Involutive (Block.xor · k) := fun t => by simp only [Block.xor, Column.xor_xor_self]
  exact hinv.bijective

theorem rounds_bijective : ∀ rks : List Block, Bijective (rounds · rks)
  | [] => bijective_id
  | [rk] => (Block.xor_bijective rk).comp (shiftRows_bijective.comp subBytes_bijective)
  | rk :: rk' :: rks =>
    (rounds_bijective (rk' :: rks)).comp <|
      (Block.xor_bijective rk).comp (mixColumns_bijective.comp (shiftRows_bijective.comp subBytes_bijective))

/-- Settles O44: the cipher adds the key and runs the rounds, and both are bijections. -/
theorem blockCipherIsABijection : Obligations.BlockCipherIsABijection := fun k =>
  (rounds_bijective (roundKeys k)).comp (Block.xor_bijective k)

/-! ### The known answers (R119) -/

/-- Settles O42, by evaluating the cipher and the key expansion on R119's inputs. -/
theorem blockCipherKnownAnswers : Obligations.BlockCipherKnownAnswers := by
  refine ⟨?_, ?_, ?_⟩ <;> decide +kernel

end Sys2Proof.Machine
end

section
/-! PROOFS. The payload cipher as a stream cipher: its errors (O38), the involution (O39), and a keystream that does not
depend on the data (O41). -/

namespace Sys2Proof.Machine

/-! ### The order of CRYPT's checks (R127) -/

/-- KEYLEN is compared as a number with the 16 bytes of a key (R127). -/
theorem keylen_toNat_ne {s : State} (h : s.keylen ≠ 16) : s.keylen.toNat ≠ Config.keyBytes :=
  fun he => h (BitVec.eq_of_toNat_eq he)

/-- Settles O38: the order of the checks is the order of the clauses. -/
theorem cryptErrorsInOrder : Obligations.CryptErrorsInOrder := by
  intro s
  refine ⟨fun hlong => ?_, fun hcap hkey => ?_, fun hcap hkey hmax => ?_⟩
  · exact if_pos hlong
  · exact (if_neg (Nat.not_lt.2 hcap)).trans (if_pos (keylen_toNat_ne hkey))
  · exact (if_neg (Nat.not_lt.2 hcap)).trans ((if_neg (by simp [hkey])).trans (if_pos hmax))

/-! ### The involution (R128) -/

/-- Settles O39, for data of every length. -/
theorem cryptIsAnInvolution : Obligations.CryptIsAnInvolution := cryptBytes_cryptBytes

/-! ### The keystream and the data (R126, R129) -/

/-- One mask on two strings leaves their exclusive or, where the mask covers the first. -/
theorem xorBytes_same_mask (a b : List Byte) {k : List Byte} (h : a.length ≤ k.length) :
    xorBytes (xorBytes a k) (xorBytes b k) = xorBytes a b := by
  have hbyte (x y z : Byte) : x ^^^ z ^^^ (y ^^^ z) = x ^^^ y := by
    rw [BitVec.xor_comm y, BitVec.xor_assoc, ← BitVec.xor_assoc z, BitVec.xor_self, BitVec.zero_xor]
  refine List.ext_getElem ?_ fun j _ _ => ?_
  · simp only [xorBytes_length]; omega
  · simp only [xorBytes, List.getElem_zipWith, hbyte]

/-- Bytes of the mask past the end of the data have no effect. -/
theorem xorBytes_of_prefix {a k k' : List Byte} (hk : k <+: k') (h : a.length ≤ k.length) :
    xorBytes a k' = xorBytes a k := by
  have hle := hk.length_le
  refine List.ext_getElem ?_ fun j _ _ => ?_
  · simp only [xorBytes_length]; omega
  · simp only [xorBytes, List.getElem_zipWith, hk.getElem]

section
variable (key : List Byte) (down : BitVec 1) (addr : BitVec 32) (fcnt : BitVec 16)

/-- A keystream of fewer blocks is the start of a longer one (R126). -/
theorem keystream_prefix {m n : Nat} (h : m ≤ n) :
    keystream key m down addr fcnt <+: keystream key n down addr fcnt := by
  obtain ⟨k, rfl⟩ := Nat.exists_eq_add_of_le h
  have hrange : List.range m <+: List.range (m + k) := List.range_add ▸ List.prefix_append ..
  exact hrange.flatMap _

variable {data : List Byte}

/-- Data of at most n blocks is xored with the keystream of n blocks, whatever its own length (R129). -/
theorem cryptBytes_eq_xorBytes_keystream {n : Nat} (h : data.length ≤ 16 * n) :
    cryptBytes key data down addr fcnt = xorBytes data (keystream key n down addr fcnt) := by
  have hceil : data.length ≤ ceilDiv data.length 16 * 16 := le_ceilDiv_mul _
  have hblocks : ceilDiv data.length 16 ≤ n := by unfold ceilDiv; omega
  exact (xorBytes_of_prefix (keystream_prefix key down addr fcnt hblocks) (by rw [keystream_length]; omega)).symm

/-- The first n bytes of the output come from the first n bytes of the data (R129). -/
theorem take_cryptBytes (n : Nat) :
    (cryptBytes key data down addr fcnt).take n = cryptBytes key (data.take n) down addr fcnt := by
  obtain ⟨ks, hks⟩ : ∃ ks, keystream key data.length down addr fcnt = ks := ⟨_, rfl⟩
  have hlen : ks.length = 16 * data.length := hks ▸ keystream_length ..
  have hxor {d : List Byte} (h : d.length ≤ data.length) : cryptBytes key d down addr fcnt = xorBytes d ks :=
    hks ▸ cryptBytes_eq_xorBytes_keystream key down addr fcnt (by omega)
  calc (cryptBytes key data down addr fcnt).take n
    _ = (xorBytes data ks).take n := by rw [hxor le_rfl]
    _ = xorBytes (data.take n) (ks.take n) := List.take_zipWith
    _ = xorBytes (data.take n) ks :=
      (xorBytes_of_prefix (List.take_prefix n ks) (by simp only [List.length_take]; omega)).symm
    _ = cryptBytes key (data.take n) down addr fcnt := (hxor (List.length_take_le' ..)).symm

end

/-- Settles O41: strings of one length meet one keystream, which cancels. -/
theorem keystreamDependsOnNoData : Obligations.KeystreamDependsOnNoData := by
  intro key d d' down addr fcnt
  refine ⟨fun hlen => ?_, take_cryptBytes key down addr fcnt⟩
  rw [cryptBytes, cryptBytes, ← hlen]
  have hceil : d.length ≤ ceilDiv d.length Config.blockBytes * 16 := le_ceilDiv_mul _
  exact xorBytes_same_mask d d' (by rw [keystream_length]; omega)

end Sys2Proof.Machine
end

section
/-! PROOFS. The integrity engine: the known answers of AES-CMAC (O45), how MIC and MIC_FRAME fail (O47, O49), that the
message type enters MIC only through its direction (O51), and that MIC_FRAME is MIC of the frame's image (O50). -/

namespace Sys2Proof.Machine

/-! ### The known answers (R136, R138) -/

/-- Settles O45, by evaluating the subkeys and the tags on R136's key. -/
theorem cmacKnownAnswers : Obligations.CmacKnownAnswers := by
  refine ⟨?_, ?_, ?_⟩ <;> decide +kernel

/-! ### The order of the checks (R141, R142, R164) -/

/-- Settles O47: the order of the checks is the order of the clauses. -/
theorem micErrorsInOrder : Obligations.MicErrorsInOrder := by
  intro s
  have hdata (h2 : 2 ≤ s.mtype.toNat) (h5 : s.mtype.toNat ≤ 5) : ¬ variantOf s.mtype ≠ some .data :=
    not_not.2 ((variantOf_data_iff _).2 ⟨h2, h5⟩)
  refine ⟨fun hlong => ?_, fun hcap hother => ?_, fun hcap h2 h5 hmax => ?_, fun hcap h2 h5 hmax hkey => ?_⟩
  · exact if_pos hlong
  · have hno : variantOf s.mtype ≠ some .data := by rw [ne_eq, variantOf_data_iff]; omega
    exact (if_neg (Nat.not_lt.2 hcap)).trans (if_pos hno)
  · exact (if_neg (Nat.not_lt.2 hcap)).trans ((if_neg (hdata h2 h5)).trans (if_pos hmax))
  · exact (if_neg (Nat.not_lt.2 hcap)).trans <| (if_neg (hdata h2 h5)).trans <|
      (if_neg (Nat.not_lt.2 hmax)).trans (if_pos (keylen_toNat_ne hkey))

/-- Settles O49: the order of the checks is the order of the clauses. -/
theorem micFrameErrorsInOrder : Obligations.MicFrameErrorsInOrder := by
  intro s
  refine ⟨fun hjoin => ?_, fun hother => ?_, fun h2 h5 => ?_⟩
  · exact if_pos (Nat.le_of_lt_succ hjoin)
  · exact (if_neg (by omega)).trans (if_pos hother)
  have hjoin := Nat.not_le.2 h2
  have hother : ¬ 6 ≤ s.mtype.toNat := Nat.not_lt.2 h5
  refine ⟨fun hlong => ?_, fun hcap => ⟨fun hnone hpos => ?_, fun hport => ?_⟩⟩
  · exact (if_neg hjoin).trans ((if_neg hother).trans (if_pos hlong))
  · exact (if_neg hjoin).trans <| (if_neg hother).trans <| (if_neg (Nat.not_lt.2 hcap)).trans (if_pos ⟨hnone, hpos⟩)
  rw [← frameImage_length]
  refine ⟨fun hmax => ?_, fun hmax hkey => ?_⟩
  · exact (if_neg hjoin).trans <| (if_neg hother).trans <| (if_neg (Nat.not_lt.2 hcap)).trans <|
      (if_neg (not_portless_payload hport)).trans (if_pos hmax)
  · exact (if_neg hjoin).trans <| (if_neg hother).trans <| (if_neg (Nat.not_lt.2 hcap)).trans <|
      (if_neg (not_portless_payload hport)).trans <| (if_neg (Nat.not_lt.2 hmax)).trans (if_pos (keylen_toNat_ne hkey))

/-! ### The message type and its direction (R139, R143) -/

/-- compute_mic reads the message type only through its direction (R140). -/
theorem computeMic_of_dirOf {m m' : BitVec 3} (h : dirOf m = dirOf m') (msg key : List Byte) (addr : BitVec 32)
    (fcnt : BitVec 16) : computeMic m msg key addr fcnt = computeMic m' msg key addr fcnt := by
  rw [computeMic, computeMic, h]

/-- Types with one direction get one tag, and MIC leaves MTYPE as it is. -/
theorem execMic_withMtype {s t : State} {m : BitVec 3} (hvariant : variantOf s.mtype = variantOf m)
    (hdir : dirOf s.mtype = dirOf m) (h : execMic s = .next t) :
    execMic { s with mtype := m } = .next { t with mtype := m } := by
  have hboth : BothNext (fun u u' => u' = { u with mtype := m }) (execMic s) (execMic { s with mtype := m }) :=
    .check .rfl (.next rfl) fun _ => .check (by rw [hvariant]) (.next rfl) fun _ => .check .rfl (.next rfl) fun _ =>
      .check .rfl (.next rfl) fun _ =>
      .storeMic (computeMic_of_dirOf hdir ..) (fun _ _ _ => .next rfl) fun _ _ => .next rfl
  obtain ⟨u, _, hu, hu', rfl⟩ := hboth
  obtain rfl := next_inj (h.symm.trans hu)
  exact hu'

/-- Settles O51: the two types of a pair are both data types and have one direction. -/
theorem micDependsOnTypeOnlyByDirection : Obligations.MicDependsOnTypeOnlyByDirection := by
  intro s t h
  refine ⟨fun hm => ?_, fun hm => ?_⟩
  · exact execMic_withMtype (hm ▸ rfl) (hm ▸ rfl) h
  · exact execMic_withMtype (hm ▸ rfl) (hm ▸ rfl) h

/-! ### MIC_FRAME and MIC (R142, R157) -/

/-- A MIC_FRAME that ended without an error passed its checks and stored the tag of the frame's image. -/
theorem execMicFrame_of_success {s t : State} (h : execMicFrame s = .next t) (herr : t.err = 0) :
    (2 ≤ s.mtype.toNat ∧ s.mtype.toNat ≤ 5) ∧ s.frameImage.length ≤ 255 ∧ s.keylen = 16 ∧
      t = (s.memWrite .mic 0 (micTag (if s.mtype = 3 ∨ s.mtype = 5 then 0x01 else 0x00) s.frameImage s.keyBytes
        s.devaddr s.fcnt)).withStatus 0 0 := by
  have hraised {e : BitVec 4} {x : Byte} (he : e ≠ 0) : t ≠ s.withStatus e x := by
    rintro rfl
    exact he herr
  obtain ⟨-, ht⟩ | ⟨-, ht⟩ | ⟨hdata, ⟨-, ht⟩ | ⟨-, -, -, ht⟩ | ⟨-, ⟨-, ht⟩ | ⟨-, -, ht⟩ | ⟨hmax, hkey, ht⟩⟩⟩ :=
    execMicFrame_cases h
  · exact absurd ht (hraised (by decide))
  · exact absurd ht (hraised (by decide))
  · exact absurd ht (hraised (by decide))
  · exact absurd ht (hraised (by decide))
  · exact absurd ht (hraised (by decide))
  · exact absurd ht (hraised (by decide))
  · exact ⟨hdata, hmax, BitVec.eq_of_toNat_eq hkey, ht⟩

/-- Settles O50: the image of a frame that MIC_FRAME accepted passes MIC's checks, and both store the tag of one
message under one direction, key, address and counter. -/
theorem micFrameIsMicOfTheImage : Obligations.MicFrameIsMicOfTheImage := by
  intro s s' t t' hwf hwf' h herr hmtype haddr hfcnt hkeylen hkey hcap himage h'
  obtain ⟨⟨h2, h5⟩, hmax, hkey16, rfl⟩ := execMicFrame_of_success h herr
  have hinput : s'.input = s.frameImage := himage.trans (frameImage_eq s).symm
  have hkeyBytes : s'.keyBytes = s.keyBytes := hkey
  have hilen : s'.ilen.toNat ≤ 255 := by rwa [← input_length, hinput]
  have hmic := execMic_success (s := s') hcap (hmtype ▸ h2) (hmtype ▸ h5) hilen (hkeylen.trans hkey16)
  rw [hmtype, hinput, hkeyBytes, haddr, hfcnt] at hmic
  obtain rfl := next_inj (hmic.symm.trans h')
  exact ⟨rfl, (readBytes_writeBytes hwf' 0x120 (micTag_length ..)).trans
    (readBytes_writeBytes hwf 0x120 (micTag_length ..)).symm⟩

end Sys2Proof.Machine
end

section
/-! PROOFS. The physical frame codec: how SER_PHY fails (O53), what PAR_PHY reads and how it fails (O54, O55), and that
parse_phy and serialize_phy are inverse but for the RFU bits and the other majors (O58). -/

namespace Sys2Proof.Machine

/-! ### SER_PHY (R151, R164) -/

/-- Settles O53: the order of the checks is the order of the clauses. -/
theorem serPhyErrorsInOrder : Obligations.SerPhyErrorsInOrder := by
  intro s
  refine ⟨fun hjoin => ?_, fun hother => ?_, fun h2 h5 => ?_⟩
  · exact if_pos (Nat.le_of_lt_succ hjoin)
  · exact (if_neg (by omega)).trans (if_pos hother)
  have hjoin := Nat.not_le.2 h2
  have hother : ¬ 6 ≤ s.mtype.toNat := Nat.not_lt.2 h5
  refine ⟨fun hlong => ?_, fun hcap => ⟨fun hnone hpos => ?_, fun hport hlong => ?_⟩⟩
  · exact (if_neg hjoin).trans ((if_neg hother).trans (if_pos hlong))
  · exact (if_neg hjoin).trans <| (if_neg hother).trans <| (if_neg (Nat.not_lt.2 hcap)).trans (if_pos ⟨hnone, hpos⟩)
  · rw [← phyImage_length] at hlong
    exact (if_neg hjoin).trans <| (if_neg hother).trans <| (if_neg (Nat.not_lt.2 hcap)).trans <|
      (if_neg (not_portless_payload hport)).trans (if_pos hlong)

/-! ### The parts of the received frame (R55) -/

/-- A slice of a string read from memory is the string read from the slice's place. -/
theorem slice_readBytes (m : Memory) (a : Nat) {n i j : Nat} (hj : j ≤ n) :
    slice (m.readBytes a n) i j = m.readBytes (a + i) (j - i) := by
  apply List.ext_getElem
  · rw [slice_length, Memory.readBytes_length, Memory.readBytes_length]
    omega
  · intro k _ _
    simp only [slice, List.getElem_take, List.getElem_drop, Memory.readBytes_getElem, Nat.add_assoc]

section
variable {s : State} (h5 : 5 ≤ s.ilen.toNat)
include h5

/-- The MHDR byte is IBUF's first. -/
theorem byteAt_input_zero : byteAt s.input 0 = s.mem.read 0x2000 := byteAt_input s (by omega)

theorem micTrailer_input : micTrailer s.input = s.mem.readBytes (0x2000 + (s.ilen.toNat - 4)) 4 := by
  have hcount : s.ilen.toNat - (s.ilen.toNat - 4) = 4 := by omega
  rw [micTrailer, input_length]
  exact (slice_readBytes s.mem 0x2000 le_rfl).trans (by rw [hcount])

theorem macRegion_input_length : (macRegion s.input).length = s.ilen.toNat - 5 := by
  rw [macRegion_length _ (by rwa [input_length]), input_length]

end

/-- Byte k of the MAC payload is byte k + 1 of the frame. -/
theorem byteAt_macRegion_input {s : State} {k : Nat} (hk : k < s.ilen.toNat - 5) :
    byteAt (macRegion s.input) k = s.mem.read (0x2001 + k) := by
  calc byteAt (macRegion s.input) k
    _ = byteAt s.input (1 + k) := byteAt_slice (by rw [input_length, Config.micBytes]; omega)
    _ = s.mem.read (0x2001 + k) := by rw [byteAt_input s (by omega), ← Nat.add_assoc]

/-- The option bytes the frame declares are counted by bits 3:0 of its byte 5 (R53, R55). -/
theorem declaredOpts_macRegion_input {s : State} (h12 : 12 ≤ s.ilen.toNat) :
    declaredOpts (macRegion s.input) = (s.mem.read 0x2005).toNat % 16 := by
  rw [declaredOpts_eq, byteAt_macRegion_input (by omega)]

/-! ### The outcomes of PAR_PHY (R153, R164) -/

section
variable {s : State} (hcap : s.ilen.toNat ≤ s.bufCap) (h5 : 5 ≤ s.ilen.toNat)
include hcap h5

theorem exec_parPhy_unsupportedVersion (hmajor : (decodeMhdr (s.mem.read 0x2000)).major ≠ 0) :
    exec .parPhy s = .next ((s.putHeaderAndMic s.input).withStatus 3 0x43) := by
  rw [← byteAt_input_zero h5] at hmajor
  exact (if_neg (Nat.not_lt.2 hcap)).trans ((if_neg (Nat.not_lt.2 h5)).trans (if_pos hmajor))

variable (hmajor : (decodeMhdr (s.mem.read 0x2000)).major = 0)
include hmajor

theorem exec_parPhy_notImplemented (hjoin : (decodeMhdr (s.mem.read 0x2000)).mtype.toNat < 2) :
    exec .parPhy s = .next (s.withStatus 5 0x4B) := by
  rw [← byteAt_input_zero h5] at hmajor hjoin
  exact (if_neg (Nat.not_lt.2 hcap)).trans <| (if_neg (Nat.not_lt.2 h5)).trans <| (if_neg (not_not.2 hmajor)).trans
    (if_pos (Nat.le_of_lt_succ hjoin))

theorem exec_parPhy_unsupportedMessageType (hother : 5 < (decodeMhdr (s.mem.read 0x2000)).mtype.toNat) :
    exec .parPhy s = .next (s.withStatus 4 0x44) := by
  rw [← byteAt_input_zero h5] at hmajor hother
  exact (if_neg (Nat.not_lt.2 hcap)).trans <| (if_neg (Nat.not_lt.2 h5)).trans <| (if_neg (not_not.2 hmajor)).trans <|
    (if_neg (by omega)).trans (if_pos hother)

variable (h2 : 2 ≤ (decodeMhdr (s.mem.read 0x2000)).mtype.toNat)
  (htype : (decodeMhdr (s.mem.read 0x2000)).mtype.toNat ≤ 5)
include h2 htype

/-- For a data type PAR_PHY goes on as PAR_DATA does, over the MAC payload. -/
theorem exec_parPhy_data :
    exec .parPhy s =
      if s.ilen.toNat - 5 < 7 then .next (s.withStatus 1 0x31)
      else if s.ilen.toNat - 5 - 7 < declaredOpts (macRegion s.input) then .next (s.withStatus 2 0x22)
      else .next (((s.putHeaderAndMic s.input).putDataFrom (macRegion s.input)).withStatus 0 0) := by
  rw [← byteAt_input_zero h5] at hmajor h2 htype
  rw [← macRegion_input_length h5]
  exact (if_neg (Nat.not_lt.2 hcap)).trans <| (if_neg (Nat.not_lt.2 h5)).trans <| (if_neg (not_not.2 hmajor)).trans <|
    (if_neg (Nat.not_le.2 h2)).trans (if_neg (Nat.not_lt.2 htype))

end

/-- Settles O55: one lemma per outcome; UnsupportedVersion stores four bytes at MIC. -/
theorem parPhyErrorsInOrder : Obligations.ParPhyErrorsInOrder := by
  intro s
  refine ⟨fun hlong => if_pos hlong, fun hcap hshort => (if_neg (Nat.not_lt.2 hcap)).trans (if_pos hshort),
    fun hcap h5 hmajor hwf => ?_, fun hcap h5 hmajor => ⟨fun hjoin => ?_, fun hother => ?_, fun h2 htype => ?_⟩⟩
  · have hmic : (micTrailer s.input).length = 4 := micTrailer_length _ (by rwa [input_length])
    refine ⟨_, exec_parPhy_unsupportedVersion hcap h5 hmajor,
      (readBytes_writeBytes hwf 0x120 hmic).trans (micTrailer_input h5), ?_, sameOutside_writeBytes s.mem 0x120 hmic⟩
    rw [← byteAt_input_zero h5]
    rfl
  · exact exec_parPhy_notImplemented hcap h5 hmajor hjoin
  · exact exec_parPhy_unsupportedMessageType hcap h5 hmajor hother
  · refine ⟨fun hshort => ?_, fun h12 htrunc => ?_⟩
    · exact (exec_parPhy_data hcap h5 hmajor h2 htype).trans (if_pos (by omega))
    · rw [← declaredOpts_macRegion_input h12] at htrunc
      exact (exec_parPhy_data hcap h5 hmajor h2 htype).trans ((if_neg (by omega)).trans (if_pos (by omega)))

/-! ### The frame PAR_PHY accepts (R153) -/

section
variable (s : State) (b m : List Byte)

/-! A store of the DataPayload leaves MTYPE, MAJOR and MIC alone. -/

@[simp] theorem State.putDataFrom_mtype : (s.putDataFrom m).mtype = s.mtype := by
  rw [State.putDataFrom, State.putPayload_mtype, State.putFhdr_mtype]

@[simp] theorem State.putDataFrom_major : (s.putDataFrom m).major = s.major := by
  rw [State.putDataFrom, State.putPayload_major, State.putFhdr_major]

/-- MIC lies between FOPTS and FRM (R40). -/
theorem putDataFrom_micBytes {m : List Byte} (hm : 7 + declaredOpts m ≤ m.length) :
    (s.putDataFrom m).micBytes = s.micBytes := by
  have hmax := declaredOpts_le m
  refine Memory.readBytes_congr fun k hk => read_putDataFrom_outside s hm (.inr ?_) (.inl ?_) <;>
    simp only [Space.base, Config.micBytes] at hk ⊢ <;> omega

/-- A PAR_PHY that succeeds changes MTYPE, MAJOR, the Data registers, the memory, ERR and ERRINFO only (R160). -/
theorem putHeaderAndMic_putDataFrom_withStatus_eq {t : State}
    (ht : ((s.putHeaderAndMic b).putDataFrom m).withStatus 0 0 = t) :
    t = { s with mtype := t.mtype, major := t.major, devaddr := t.devaddr, adr := t.adr, adrackreq := t.adrackreq,
                 ack := t.ack, fpending := t.fpending, foptslen := t.foptslen, fcnt := t.fcnt, fportv := t.fportv,
                 fport := t.fport, frmlen := t.frmlen, mem := t.mem, err := 0, errinfo := 0 } := by
  have hmtype : t.mtype = (s.putHeaderAndMic b).mtype := ht ▸ State.putDataFrom_mtype ..
  have hmajor : t.major = (s.putHeaderAndMic b).major := ht ▸ State.putDataFrom_major ..
  rw [hmtype, hmajor]
  exact putDataFrom_withStatus_eq _ m ht

end

/-- Settles O54: the header and the MIC are stored first, and the store of the DataPayload keeps them. -/
theorem parPhyReadsTheFrame : Obligations.ParPhyReadsTheFrame := by
  intro s hwf hcap h12 hmajor h2 htype hopts
  rw [← declaredOpts_macRegion_input h12] at hopts ⊢
  have h5 : 5 ≤ s.ilen.toNat := by omega
  have hmic : (micTrailer s.input).length = 4 := micTrailer_length _ (by rwa [input_length])
  have hlen := macRegion_input_length h5
  have hfits : 7 + declaredOpts (macRegion s.input) ≤ (macRegion s.input).length := by omega
  have hlt : (macRegion s.input).length < 2 ^ 16 := by
    have hilen := s.ilen.isLt
    omega
  have hexec : exec .parPhy s =
      .next (((s.putHeaderAndMic s.input).putDataFrom (macRegion s.input)).withStatus 0 0) :=
    (exec_parPhy_data hcap h5 hmajor h2 htype).trans ((if_neg (by omega)).trans (if_neg (by omega)))
  have hheld := holdsData_putDataFrom (s := s.putHeaderAndMic s.input) (Memory.writeBytes_wf hwf ..) hfits hlt
    fun k hk => byteAt_macRegion_input (hlen ▸ hk)
  refine ⟨_, hexec, ?_, ?_, ?_, hlen ▸ holdsData_withStatus 0 0 hheld,
    putHeaderAndMic_putDataFrom_withStatus_eq s _ _ rfl, fun a hfopts hout hfrm => ?_⟩
  · rw [← byteAt_input_zero h5]
    exact State.putDataFrom_mtype ..
  · rw [← hmajor, ← byteAt_input_zero h5]
    exact State.putDataFrom_major ..
  · calc ((s.putHeaderAndMic s.input).putDataFrom (macRegion s.input)).micBytes
      _ = (s.putHeaderAndMic s.input).micBytes := putDataFrom_micBytes _ hfits
      _ = micTrailer s.input := readBytes_writeBytes hwf 0x120 hmic
      _ = s.mem.readBytes (0x2000 + (s.ilen.toNat - 4)) 4 := micTrailer_input h5
  · exact (read_putDataFrom_outside _ hfits hfopts (by omega)).trans (sameOutside_writeBytes s.mem 0x120 hmic a hout)

/-! ### What parse_phy reads (R155) -/

/-- The frames parse_phy accepts: long enough, of major 0 and a data type, with room for the declared options. -/
structure PhyReadable (b : List Byte) : Prop where
  size : 5 ≤ b.length
  major : (decodeMhdr (byteAt b 0)).major = 0
  data : variantOf (decodeMhdr (byteAt b 0)).mtype = some .data
  opts : 7 + declaredOpts (macRegion b) ≤ (macRegion b).length

/-- The PHYPayload of such a frame. -/
def phyOf (b : List Byte) : PhyPayload :=
  ⟨decodeMhdr (byteAt b 0), .data ⟨fhdrOf (macRegion b), portOf (macRegion b), frmOf (macRegion b)⟩, micTrailer b⟩

/-- When parse_phy succeeds, and with what (R155). -/
theorem parsePhy_ok_iff {b : List Byte} {p : PhyPayload} : parsePhy b = .ok p ↔ PhyReadable b ∧ p = phyOf b := by
  constructor
  · intro hp
    by_cases hsize : b.length < 5
    · rw [parsePhy_tooShort hsize] at hp
      cases hp
    have hb : 5 ≤ b.length := Nat.not_lt.1 hsize
    by_cases hmajor : (decodeMhdr (byteAt b 0)).major = 0
    case neg =>
      rw [parsePhy_unsupportedVersion hb hmajor] at hp
      cases hp
    by_cases hdata : variantOf (decodeMhdr (byteAt b 0)).mtype = some .data
    case neg =>
      rw [variantOf_data_iff, not_and_or, Nat.not_le, Nat.not_le] at hdata
      rcases hdata with hjoin | hother
      · rw [parsePhy_notImplemented hb hmajor hjoin] at hp
        cases hp
      · rw [parsePhy_unsupportedMessageType hb hmajor hother] at hp
        cases hp
    cases hhdr : parseFhdr (macRegion b) with
    | error e =>
      rw [parsePhy_data_error hb hmajor hdata hhdr] at hp
      cases hp
    | ok r =>
      obtain ⟨hfits, -, -⟩ := parseFhdr_ok_iff.1 hhdr
      rw [parsePhy_ok hb hmajor hdata hfits] at hp
      cases hp
      exact ⟨⟨hb, hmajor, hdata, hfits⟩, rfl⟩
  · rintro ⟨⟨hb, hmajor, hdata, hfits⟩, rfl⟩
    exact parsePhy_ok hb hmajor hdata hfits

/-! ### parse_phy and serialize_phy (R156) -/

theorem serializePhy_data (h : Mhdr) (d : DataPayload) (mic : List Byte) :
    serializePhy ⟨h, .data d, mic⟩ = some (encodeMhdr h :: (serializeData d ++ mic)) :=
  congrArg some (List.append_assoc ..)

theorem encodeMhdr_decodeMhdr (b : Byte) : encodeMhdr (decodeMhdr b) = b &&& 0xE3 :=
  (encodeMhdr_viewMhdr (State.reset.putMhdr (decodeMhdr b))).trans (mhdrByte_putMhdr_decodeMhdr _ b)

section
variable {mic : List Byte} (hmic : mic.length = 4) (x : Byte) (m : List Byte)
include hmic

theorem five_le_frame_length : 5 ≤ (x :: (m ++ mic)).length := by
  rw [List.length_cons, List.length_append, hmic]
  omega

theorem macRegion_frame : macRegion (x :: (m ++ mic)) = m := by
  simp [macRegion, slice, hmic, Config.micBytes]

theorem micTrailer_frame : micTrailer (x :: (m ++ mic)) = mic := by
  simp [micTrailer, slice, hmic, Config.micBytes]

end

section
variable {b : List Byte}

/-- Behind the MHDR byte stand the MAC payload and the MIC (R55). -/
theorem macRegion_append_micTrailer (hb : 5 ≤ b.length) : macRegion b ++ micTrailer b = b.tail := by
  have hone : 1 ≤ b.length - 4 := by omega
  rw [macRegion, micTrailer, slice_append_slice hone (Nat.sub_le ..), slice, List.drop_one,
    List.take_of_length_le (List.length_tail ..).le]

theorem phyOf_wf (hb : PhyReadable b) : (phyOf b).wf :=
  ⟨hb.data, micTrailer_length b hb.size, fhdrOf_wf hb.opts, frmOf_eq_nil⟩

theorem serializePhy_phyOf (hb : PhyReadable b) : serializePhy (phyOf b) = some ((byteAt b 0 &&& 0xE3) :: b.tail) := by
  rw [phyOf, serializePhy_data, serializeData_parsed hb.opts, macRegion_append_micTrailer hb.size,
    encodeMhdr_decodeMhdr]

end

section
variable {h : Mhdr} {d : DataPayload} {mic : List Byte}

theorem decodeMhdr_frame (h : Mhdr) (rest : List Byte) : decodeMhdr (byteAt (encodeMhdr h :: rest) 0) = h :=
  decodeMhdr_encodeMhdr h

theorem phyReadable_frame (hmajor : h.major = 0) (hdata : variantOf h.mtype = some .data) (hd : d.wf)
    (hmic : mic.length = 4) : PhyReadable (encodeMhdr h :: (serializeData d ++ mic)) where
  size := five_le_frame_length hmic _ _
  major := by rwa [decodeMhdr_frame]
  data := by rwa [decodeMhdr_frame]
  opts := by
    rw [macRegion_frame hmic]
    exact fhdr_fits_serializeData hd.left

theorem phyOf_frame (hd : d.wf) (hmic : mic.length = 4) :
    phyOf (encodeMhdr h :: (serializeData d ++ mic)) = ⟨h, .data d, mic⟩ := by
  rw [phyOf, decodeMhdr_frame, macRegion_frame hmic, micTrailer_frame hmic, parsed_serializeData hd]

end

/-- Settles O58: a serialized frame is cut where it was joined, and the parts a frame is read from are adjacent. -/
theorem phyPayloadRoundTrips : Obligations.PhyPayloadRoundTrips := by
  refine ⟨?_, fun b p hp => ?_⟩
  · rintro ⟨h, _, mic⟩ d ⟨hdata, hmic, hd⟩ rfl
    refine ⟨_, serializePhy_data h d mic, fun hmajor => ?_, fun hmajor => ?_⟩
    · exact parsePhy_ok_iff.2 ⟨phyReadable_frame hmajor hdata hd hmic, (phyOf_frame hd hmic).symm⟩
    · have hparse := parsePhy_unsupportedVersion (five_le_frame_length hmic (encodeMhdr h) (serializeData d))
        (by rwa [decodeMhdr_frame])
      rwa [decodeMhdr_frame, micTrailer_frame hmic] at hparse
  · obtain ⟨hb, rfl⟩ := parsePhy_ok_iff.1 hp
    refine ⟨phyOf_wf hb, ?_⟩
    cases b with
    | nil => exact absurd hb.size (by decide)
    | cons x rest => exact ⟨x, rest, rfl, serializePhy_phyOf hb⟩

end Sys2Proof.Machine
end

section
/-! PROOFS. How every command ends (O18, O19, O20), and the idle core (O5). -/

namespace Sys2Proof.Machine

variable {i : Instr} {s t : State}

/-! ### The listed errors (R164, R166) -/

/-- Settles O18: commands complete, and end as listed. -/
theorem everyCommandEndsAsListed : Obligations.EveryCommandEndsAsListed := by
  intro i s
  obtain ⟨t, ht⟩ := exec_completes i s
  exact ⟨t, ht, (exec_endsAsListed ht).status⟩

/-- R164's table has no row with code 7 or 8. -/
theorem errorPairs_code_ne_seven_ne_eight (i : Instr) : ∀ p ∈ errorPairs i, p.1 ≠ 7 ∧ p.1 ≠ 8 := by
  cases i <;> simp [errorPairs]

theorem exec_err_ne_seven_ne_eight (h : exec i s = .next t) : t.err ≠ 7 ∧ t.err ≠ 8 := by
  obtain ⟨herr, -⟩ | hlisted := (exec_endsAsListed h).status
  · rw [herr]; decide
  · exact errorPairs_code_ne_seven_ne_eight i _ hlisted

/-- Settles O20: no listed error has these codes, and a bad command word raises code 11. -/
theorem codesSevenAndEightNeverRaised : Obligations.CodesSevenAndEightNeverRaised := by
  refine ⟨fun i s t h => exec_err_ne_seven_ne_eight h, fun w s t h => ?_⟩
  obtain ⟨i, -, hexec⟩ | ⟨e, -, rfl⟩ := writeCommand_cases h
  · exact exec_err_ne_seven_ne_eight hexec
  · rw [State.withStatus_err]; decide

/-! ### What an error leaves unchanged (R161) -/

/-- The three ways a command ends from `s`: with a result, with an error and no result, and, of PAR_PHY alone, with an
error and the partial result of R153, whose MIC trailer needs the frame's five bytes. -/
inductive EndsCleanly (s : State) : Instr → State → Prop
  | success {i : Instr} {u : State} : EndsCleanly s i (u.withStatus 0 0)
  | error {i : Instr} {e : BitVec 4} {x : Byte} : EndsCleanly s i (s.withStatus e x)
  | partialResult (h5 : 5 ≤ s.ilen.toNat) : EndsCleanly s .parPhy ((s.putHeaderAndMic s.input).withStatus 3 0x43)

theorem exec_endsCleanly (h : exec i s = .next t) : EndsCleanly s i t := by
  cases i with
  | encFctrl | decFctrl | encMhdr | decMhdr | serFhdr =>
    obtain rfl := next_inj h
    exact .success
  | parFhdr =>
    obtain ⟨-, rfl⟩ | ⟨-, -, rfl⟩ | ⟨-, -, -, rfl⟩ | ⟨-, -, rfl⟩ := execParFhdr_cases h
    exacts [.error, .error, .error, .success]
  | serData =>
    obtain ⟨-, rfl⟩ | ⟨-, -, -, rfl⟩ | ⟨-, -, -, rfl⟩ | ⟨-, -, -, rfl⟩ := execSerData_cases h
    exacts [.error, .error, .error, .success]
  | parData =>
    obtain ⟨-, rfl⟩ | ⟨-, -, rfl⟩ | ⟨-, -, -, rfl⟩ | ⟨-, -, rfl⟩ := execParData_cases h
    exacts [.error, .error, .error, .success]
  | crypt =>
    obtain ⟨-, rfl⟩ | ⟨-, -, rfl⟩ | ⟨-, -, -, rfl⟩ | ⟨-, -, -, rfl⟩ := execCrypt_cases h
    exacts [.error, .error, .error, .success]
  | mic =>
    obtain ⟨-, rfl⟩ | ⟨-, -, rfl⟩ | ⟨-, -, -, rfl⟩ | ⟨-, -, -, -, rfl⟩ | ⟨-, -, -, -, rfl⟩ := execMic_cases h
    exacts [.error, .error, .error, .error, .success]
  | micFrame =>
    obtain ⟨-, rfl⟩ | ⟨-, rfl⟩ | ⟨-, ⟨-, rfl⟩ | ⟨-, -, -, rfl⟩ | ⟨-, ⟨-, rfl⟩ | ⟨-, -, rfl⟩ | ⟨-, -, rfl⟩⟩⟩ :=
      execMicFrame_cases h
    exacts [.error, .error, .error, .error, .error, .error, .success]
  | serPhy =>
    obtain ⟨-, rfl⟩ | ⟨-, rfl⟩ | ⟨-, ⟨-, rfl⟩ | ⟨-, -, -, rfl⟩ | ⟨-, ⟨-, rfl⟩ | ⟨-, rfl⟩⟩⟩ := execSerPhy_cases h
    exacts [.error, .error, .error, .error, .error, .success]
  | parPhy =>
    obtain ⟨-, rfl⟩ | ⟨-, -, rfl⟩ | ⟨⟨-, h5⟩, ⟨-, rfl⟩ | ⟨-, ⟨-, rfl⟩ | ⟨-, rfl⟩ |
      ⟨-, ⟨-, rfl⟩ | ⟨-, -, rfl⟩ | ⟨-, rfl⟩⟩⟩⟩ := execParPhy_cases h
    exacts [.error, .error, .partialResult h5, .error, .error, .error, .error, .success]

/-- Settles O19: a success has ERR = 0, and the partial result is the header's two fields and four bytes at MIC. -/
theorem failedCommandChangesOnlyItsStatus : Obligations.FailedCommandChangesOnlyItsStatus := by
  intro i s t h herr
  cases exec_endsCleanly h with
  | success => exact absurd rfl herr
  | error => exact .inl rfl
  | partialResult h5 =>
    have hmic : (micTrailer s.input).length = 4 := micTrailer_length _ (by rwa [input_length])
    exact .inr ⟨rfl, rfl, rfl, sameOutside_writeBytes s.mem 0x120 hmic⟩

/-! ### The idle core (R185) -/

theorem step_of_pending_nil (hidle : s.pending = []) : step s = .next s := by
  simp only [step, hidle]

/-- Settles O5: a step takes an issued access, and there is none. -/
theorem idleCoreHoldsItsState : Obligations.IdleCoreHoldsItsState :=
  fun _ => step_of_pending_nil

end Sys2Proof.Machine
end
